-- ==== Sys2Proof/Word.lean ====
section
/-!
DEFINITION. The word and byte types of the register port and of the data memory (00_scope.md R16: bits are
numbered from 0 at the least significant bit, and every value is unsigned).
-/

namespace Sys2Proof

/-- A 32-bit register or command word (10_state.md R31, 30_encoding.md R100). -/
abbrev Word := BitVec 32

/-- One byte of data memory: a source byte, or one ASCII character (20_memory.md R71, R76). -/
abbrev Byte := BitVec 8

end Sys2Proof
end

