-- ==== Sys2Proof/Config.lean ====
section
/-!
DEFINITION. What a built block fixes: the parameters AW, KERNEL_FAMILY, CHUNK_WIDTHS and ID_VALUE
(00_scope.md R11 to R14), their legal ranges and their defaults, and the fixed SENTINEL (R15).
A parameter is an argument of the model (93_implementation_defined.md K1 to K4): the record stands in State as
`params`, which no step changes (log 1). REG_BASE is read by no rule (20_memory.md R81) and has no field (log 18).
-/

namespace Sys2Proof

/-- KERNEL_FAMILY (R12): which datapath method the chunk kernels use. -/
inductive Family where
  | scalar
  | portable
  | accelBias
  | accelPermute
  deriving DecidableEq, Repr

/-- The parameters of a built block. -/
structure Params where
  /-- AW, the data-memory address width in bits (R11). -/
  aw : Nat
  /-- KERNEL_FAMILY (R12). -/
  family : Family
  /-- CHUNK_WIDTHS (R13), a set of widths in kernel input bytes, listed widest first. -/
  widths : List Nat
  /-- ID_VALUE, the constant the ID register reads (R14). -/
  idValue : Word
  deriving DecidableEq, Repr

/-- The defaults of R11 to R14. -/
def Params.default : Params where
  aw := 32
  family := .accelPermute
  widths := [64, 32, 16]
  idValue := 0x4D480007#32

/-- The widths R13 admits: the powers of two from 2 to 32768. -/
def admissibleWidths : List Nat := (List.range 15).map (fun k => 2 ^ (k + 1))

/-- The list falls strictly: the set of widths in its one canonical order, widest first. -/
def fallsStrictly : List Nat → Bool
  | a :: b :: rest => decide (b < a) && fallsStrictly (b :: rest)
  | _ => true

/-- R11: 1 ≤ AW ≤ 32. -/
def Params.awOk (p : Params) : Bool := decide (1 ≤ p.aw) && decide (p.aw ≤ 32)

/-- R13: powers of two in 2..32768, no repeats (widest first). -/
def Params.widthsOk (p : Params) : Bool :=
  p.widths.all (fun w => admissibleWidths.contains w) && fallsStrictly p.widths

/-- R13: CHUNK_WIDTHS is empty if and only if KERNEL_FAMILY = SCALAR. -/
def Params.familyOk (p : Params) : Bool := p.widths.isEmpty == decide (p.family = .scalar)

/-- The parameters lie in the ranges R11 and R13 give them. -/
def Params.wf (p : Params) : Bool := p.awOk && p.widthsOk && p.familyOk

/-- SENTINEL (R15): the table value of a non-hex character. -/
def sentinel : Byte := 0xFF#8

end Sys2Proof
end

