-- ==== Sys2Proof/Syntax.lean ====
section
/-!
DEFINITION. The commands of MUHEX-CMD v1, one constructor per row of spec/opcode_table.json (30_encoding.md R102).
-/

namespace Sys2Proof

/-- A command as its word names it. WSEL is the only operand a word carries (R103, R104): the chunk width is
2 ^ WSEL. Every other operand is a register. -/
inductive Instr where
  /-- NOP (42_dispatch.md R208). -/
  | nop
  /-- ENCODE (40_encoder.md R132). -/
  | encode
  /-- ENCODE_TO_BUF (40_encoder.md R131). -/
  | encodeToBuf
  /-- DECODE (41_decoder.md R164). -/
  | decode
  /-- DECODE_TO_BUF (41_decoder.md R163). -/
  | decodeToBuf
  /-- ENC_CHUNK.W with W = 2 ^ WSEL (40_encoder.md R133). -/
  | encChunk (wsel : BitVec 4)
  /-- DEC_CHUNK.W with W = 2 ^ WSEL (41_decoder.md R165). -/
  | decChunk (wsel : BitVec 4)
  /-- ENC_SCALAR (40_encoder.md R134). -/
  | encScalar
  /-- DEC_SCALAR (41_decoder.md R166). -/
  | decScalar
  /-- LUT_HEX (40_encoder.md R135). -/
  | lutHex
  /-- LUT_NIB (41_decoder.md R167). -/
  | lutNib
  deriving DecidableEq, Repr

end Sys2Proof
end

