-- ==== Sys2Proof/WellFormed.lean ====
section
/-!
DEFINITION. Which commands a block built with given parameters accepts (30_encoding.md R103, R105): a chunk command
only with a supported width, every other command always.
-/

namespace Sys2Proof

/-- The chunk width a WSEL field selects, 2 ^ WSEL input bytes (30_encoding.md R103). -/
def chunkWidth (wsel : BitVec 4) : Nat := 2 ^ wsel.toNat

/-- The width a WSEL field selects is in CHUNK_WIDTHS (R103). -/
def Params.supports (p : Params) (wsel : BitVec 4) : Bool := p.widths.contains (chunkWidth wsel)

/-- The command is legal in a block built with `p` (R105, last clause). -/
def Instr.wf (p : Params) : Instr → Bool
  | .encChunk wsel => p.supports wsel
  | .decChunk wsel => p.supports wsel
  | .nop => true
  | .encode => true
  | .encodeToBuf => true
  | .decode => true
  | .decodeToBuf => true
  | .encScalar => true
  | .decScalar => true
  | .lutHex => true
  | .lutNib => true

end Sys2Proof
end

