-- ==== Sys2Proof/Decode.lean ====
section
/-!
DEFINITION. Decoding and encoding of the one command format CMD32 (30_encoding.md R100 to R107). The decoder is
total: it answers a command or the reason a word has no meaning. Whether a chunk width is one the block supports is
no matter of decoding (log 7): the opcode table gives ENC_CHUNK and DEC_CHUNK every WSEL, and the command's own
CHECK step refuses an unsupported one (40_encoder.md R133, 41_decoder.md R165).
-/

namespace Sys2Proof

/-- OP, bits [7:0] (R100). -/
def opField (w : Word) : BitVec 8 := w.extractLsb' 0 8

/-- WSEL, bits [11:8] (R100). -/
def wselField (w : Word) : BitVec 4 := w.extractLsb' 8 4

/-- RSV, bits [31:12] (R100). -/
def rsvField (w : Word) : BitVec 20 := w.extractLsb' 12 20

/-- Why a word encodes no command (R105). -/
inductive DecodeError where
  /-- RSV is not 0. -/
  | reservedBits
  /-- OP is not in the map of R102. -/
  | reservedOp
  /-- WSEL is not 0 and OP is neither ENC_CHUNK nor DEC_CHUNK. -/
  | wselNotZero
  deriving DecidableEq, Repr

/-- A command that takes no WSEL: its word must hold 0 there (R103). -/
def plainCommand (wsel : BitVec 4) (i : Instr) : Except DecodeError Instr :=
  if wsel = 0 then .ok i else .error .wselNotZero

/-- The opcode map of R102. -/
def decodeOp (op : BitVec 8) (wsel : BitVec 4) : Except DecodeError Instr :=
  match op with
  | 0x00#8 => plainCommand wsel .nop
  | 0x01#8 => plainCommand wsel .encode
  | 0x02#8 => plainCommand wsel .encodeToBuf
  | 0x03#8 => plainCommand wsel .decode
  | 0x04#8 => plainCommand wsel .decodeToBuf
  | 0x11#8 => .ok (.encChunk wsel)
  | 0x12#8 => .ok (.decChunk wsel)
  | 0x21#8 => plainCommand wsel .encScalar
  | 0x22#8 => plainCommand wsel .decScalar
  | 0x31#8 => plainCommand wsel .lutHex
  | 0x32#8 => plainCommand wsel .lutNib
  | _ => .error .reservedOp

/-- Decode one command word (R100 to R106). -/
def decodeWord (w : Word) : Except DecodeError Instr :=
  if rsvField w = 0 then decodeOp (opField w) (wselField w) else .error .reservedBits

/-- The OP value of a command (R102). -/
def opcode : Instr → BitVec 8
  | .nop => 0x00#8
  | .encode => 0x01#8
  | .encodeToBuf => 0x02#8
  | .decode => 0x03#8
  | .decodeToBuf => 0x04#8
  | .encChunk _ => 0x11#8
  | .decChunk _ => 0x12#8
  | .encScalar => 0x21#8
  | .decScalar => 0x22#8
  | .lutHex => 0x31#8
  | .lutNib => 0x32#8

/-- The WSEL value of a command's word: 0 but for the chunk commands (R103). -/
def wselOf : Instr → BitVec 4
  | .encChunk wsel => wsel
  | .decChunk wsel => wsel
  | .nop => 0
  | .encode => 0
  | .encodeToBuf => 0
  | .decode => 0
  | .decodeToBuf => 0
  | .encScalar => 0
  | .decScalar => 0
  | .lutHex => 0
  | .lutNib => 0

/-- The word of a command: RSV = 0, WSEL, OP from the most significant bit down (R100). -/
def encodeInstr (i : Instr) : Word := (0#20 ++ wselOf i) ++ opcode i

/-- The word is illegal in a block built with `p` (R105). -/
def illegalWord (p : Params) (w : Word) : Bool :=
  match decodeWord w with
  | .ok i => !i.wf p
  | .error _ => true

/-- The command the decoder reads from a word of `nbits` bits, the bits above `nbits` being 0. A command is one
32-bit register word (R101), so no byte order enters. -/
def decodeTableWord (nbits w : Nat) : Option Instr :=
  match decodeWord (BitVec.ofNat 32 (w % 2 ^ nbits)) with
  | .ok i => some i
  | .error _ => none

end Sys2Proof
end

