-- ==== Sys2Proof/Machine/State.lean ====
section
/-!
DEFINITION. The state of the machine: the block's registers and hidden sequencing state (10_state.md R31 to R54), the
data memory (20_memory.md R71), the block's build parameters, and the pending transactions of the host. Everything is
plain data.
-/

namespace Sys2Proof.Machine

/-- PHASE (10_state.md R47). -/
inductive Phase where
  /-- No command is in progress. -/
  | idle
  /-- A command has started, its checks are not yet made. -/
  | check
  /-- The schedule of a command is executing. -/
  | run
  deriving DecidableEq, Repr

/-- One kernel invocation of a schedule, at a source offset (42_dispatch.md R200). -/
inductive Item where
  /-- VEC(o, W): the vector kernel of width W over source offsets [o, o + W). -/
  | vec (offset width : Nat)
  /-- UNIT(o): one scalar unit at source offset o. -/
  | unit (offset : Nat)
  deriving DecidableEq, Repr

/-- LATCH (10_state.md R47, R48): the operand snapshot taken when a command starts. -/
structure Latch where
  cmd : Word
  srcAddr : Word
  srcLen : Word
  dstAddr : Word
  dstLen : Word
  deriving DecidableEq, Repr

/-- The completion codes (60_exceptions.md R230). Codes 6 to 15 are reserved and never produced. -/
inductive StatusCode where
  | none
  | lengthMismatch
  | oddLength
  | invalidCharacter
  | illegalCommand
  | regionError
  deriving DecidableEq, Repr

/-- One transaction of an agent outside the engine: the host, another agent on the data memory, or whoever drives the
reset input (00_scope.md R4, R5). `pass` is the model's own: it gives the engine its turn (log 2). -/
inductive HostEvent where
  /-- A read of `size` bytes at an offset of the register window (10_state.md R31, R51). -/
  | regRead (offset : BitVec 8) (size : Nat)
  /-- A write of `size` bytes at an offset of the register window (R31, R52, R53). -/
  | regWrite (offset : BitVec 8) (size : Nat) (data : Word)
  /-- Reads of a register, repeated until (value & mask) = value wanted (30_encoding.md R108). -/
  | poll (offset : BitVec 8) (mask wanted : Word)
  /-- A host read of one data-memory byte (20_memory.md R72). -/
  | memRead (addr : Word)
  /-- A host write of one data-memory byte (20_memory.md R72). -/
  | memWrite (addr : Word) (data : Byte)
  /-- A write of one data-memory byte by an agent that is neither this engine nor its host (20_memory.md R91). -/
  | otherWrite (addr : Word) (data : Byte)
  /-- The reset input is asserted (70_reset_and_hazards.md R260, R261). -/
  | reset
  /-- No transaction: the engine takes its next step. -/
  | pass
  deriving DecidableEq, Repr

/-- The defined bytes of the data memory, addresses strictly rising. An address that is not listed is Undef
(20_memory.md R71, R73). -/
abbrev Memory := List Host.Cell

/-- The whole state. -/
structure State where
  /-- AW, KERNEL_FAMILY, CHUNK_WIDTHS and ID_VALUE of this block (log 1): no step changes them. -/
  params : Params
  /-- CMD (R34). -/
  cmd : Word
  /-- STATUS (R35). -/
  status : Word
  /-- SRC_ADDR (R36). -/
  srcAddr : Word
  /-- SRC_LEN (R37). -/
  srcLen : Word
  /-- DST_ADDR (R38). -/
  dstAddr : Word
  /-- DST_LEN (R39). -/
  dstLen : Word
  /-- ERR_EXPECTED (R40). -/
  errExpected : Word
  /-- ERR_ACTUAL (R41). -/
  errActual : Word
  /-- ARG (R42). -/
  arg : Word
  /-- RESULT (R43). -/
  result : Word
  /-- PHASE (R47). -/
  phase : Phase
  /-- LATCH (R47, R48). -/
  latch : Latch
  /-- SCHED (R47). -/
  sched : List Item
  /-- IDX (R47): the index of the next item of SCHED. -/
  idx : Nat
  /-- The data memory (20_memory.md R70, R71). -/
  mem : Memory
  /-- The host's pending transactions, next first (log 2). -/
  host : List HostEvent
  /-- The value the last host read returned (log 3); a data byte is zero-extended. -/
  hostData : Word
  deriving DecidableEq, Repr

/-- Why the model stops (60_exceptions.md R236: outcomes of the model, none a hardware event). -/
inductive Fault where
  /-- Raised by a host register access that is not an aligned 32-bit access (10_state.md R31). Safe: the chip may do
  something definite, the model admits no run past it. -/
  | regAccess
  /-- Raised by a host write to register offsets 0x00 to 0x2C while BUSY = 1, a host write to the active command's
  source region, any host access to its destination region, or another agent's write to either region
  (10_state.md R53, 70_reset_and_hazards.md R270, R271, R273, 20_memory.md R91). Safe. -/
  | hostProtocol
  /-- Raised by an engine step that reads an Undef source byte (20_memory.md R75). Safe: the chip reads whatever the
  memory holds. -/
  | undefRead
  /-- Raised by a host read of an Undef data byte (20_memory.md R72). Safe: the chip returns some byte. -/
  | hostUndefRead
  /-- Raised by an access to a data-memory address at or above 2 ^ AW, which does not exist (20_memory.md R70; log 9).
  Safe. -/
  | noSuchAddress
  deriving DecidableEq, Repr

/-- Why the model gives no meaning. -/
inductive Refusal where
  /-- Raised by an arm of exec for an instruction that has no meaning yet; safe (the model stops). -/
  | notModelled (mnemonic : String)
  deriving DecidableEq, Repr

/-- LATCH after reset. The spec leaves it unspecified and never reads it while PHASE = IDLE (R47, R54): zero is the
model's DESIGN CHOICE (log 4, unsafe). -/
def Latch.reset : Latch where
  cmd := 0
  srcAddr := 0
  srcLen := 0
  dstAddr := 0
  dstLen := 0

/-- The state right after reset of a block built with `p` (10_state.md R54, 70_reset_and_hazards.md R260), no data
byte written yet (20_memory.md R73) and no host transaction pending. -/
def State.resetWith (p : Params) : State where
  params := p
  cmd := 0
  status := 0
  srcAddr := 0
  srcLen := 0
  dstAddr := 0
  dstLen := 0
  errExpected := 0
  errActual := 0
  arg := 0
  result := 0
  phase := .idle
  latch := Latch.reset
  sched := []
  idx := 0
  mem := []
  host := []
  hostData := 0

/-- The state right after reset of the default block (00_scope.md R11 to R14). -/
def State.reset : State := State.resetWith Params.default

end Sys2Proof.Machine
end

