-- ==== Sys2Proof/Machine/Flags.lean ====
section
/-!
DEFINITION. The flags: the fields of STATUS (10_state.md R35, R46), the completion codes and the STATUS values they
give (60_exceptions.md R230), and the capability word CAPS (10_state.md R33).
-/

namespace Sys2Proof.Machine

/-- The number of a completion code (R230). -/
def StatusCode.code : StatusCode → BitVec 4
  | .none => 0
  | .lengthMismatch => 1
  | .oddLength => 2
  | .invalidCharacter => 3
  | .illegalCommand => 4
  | .regionError => 5

/-- STATUS while a command is in progress: BUSY = 1, DONE = 0, ERR = 0 (42_dispatch.md R190). -/
def statusBusy : Word := 0x00000001#32

/-- STATUS after completion with a code: ERR = code, DONE = 1, BUSY = 0 (42_dispatch.md R196). -/
def statusDone (c : StatusCode) : Word := 0#24 ++ c.code ++ 0#2 ++ 1#1 ++ 0#1

/-- STATUS.BUSY, bit 0 (R35). -/
def busyBit (status : Word) : Bool := status.getLsbD 0

/-- STATUS.DONE, bit 1 (R35). -/
def doneBit (status : Word) : Bool := status.getLsbD 1

/-- STATUS.ERR, bits [7:4] (R35). -/
def errField (status : Word) : BitVec 4 := status.extractLsb' 4 4

/-- A command is in progress, as the host sees it: STATUS.BUSY = 1. -/
def State.busy (s : State) : Bool := busyBit s.status

/-- The number of a kernel family in CAPS.FAMILY (R12, R33). -/
def familyCode : Family → BitVec 2
  | .scalar => 0
  | .portable => 1
  | .accelBias => 2
  | .accelPermute => 3

/-- CAPS.WMASK: bit k is 1 iff 2 ^ k is a supported width, k = 1 to 15, and bit 0 is 0 (R33). -/
def widthMask (widths : List Nat) : BitVec 16 :=
  (List.range 15).foldl
    (fun mask k => if widths.contains (2 ^ (k + 1)) then mask ||| BitVec.twoPow 16 (k + 1) else mask) 0

/-- CAPS (R33): WMASK [31:16], 0 [15:14], AW [13:8], 0 [7:2], FAMILY [1:0]. -/
def capsWord (p : Params) : Word :=
  widthMask p.widths ++ 0#2 ++ BitVec.ofNat 6 p.aw ++ 0#6 ++ familyCode p.family

end Sys2Proof.Machine
end

