-- ==== Sys2Proof/Machine/Ops.lean ====
section
/-!
DEFINITION. The named operations over memory and registers, the start of a command (42_dispatch.md R190), its
completion with a status code (R196), which is all this block has in place of taking an exception
(60_exceptions.md R234), and reset (70_reset_and_hazards.md R260 to R262).
-/

namespace Sys2Proof.Machine

/-! ## Data memory -/

/-- The byte at an address: `none` is Undef (20_memory.md R71). -/
def Memory.read : Memory → Nat → Option Byte
  | [], _ => none
  | c :: m, a => if c.1 = a then some c.2 else Memory.read m a

/-- Make the byte at an address Def (R72), keeping the addresses in rising order. -/
def Memory.write : Memory → Nat → Byte → Memory
  | [], a, b => [(a, b)]
  | c :: m, a, b =>
    if a < c.1 then (a, b) :: c :: m
    else if a = c.1 then (a, b) :: m
    else c :: Memory.write m a b

/-- Make every byte of [base, base + len) Undef (R83). -/
def Memory.undefine (m : Memory) (base len : Nat) : Memory :=
  m.filter (fun c => decide (c.1 < base) || decide (base + len ≤ c.1))

/-- The canonical form: addresses strictly rising. Every listed byte is Def, and an unlisted address is Undef, so no
entry equals what an unlisted address reads as. -/
def Memory.wf : Memory → Bool
  | c :: d :: m => decide (c.1 < d.1) && Memory.wf (d :: m)
  | _ => true

/-- Every listed address exists in a data memory of 2 ^ `aw` bytes (R70). -/
def Memory.fits (m : Memory) (aw : Nat) : Bool := m.all (fun c => decide (c.1 < 2 ^ aw))

/-- The n bytes from an address on, element i from address addr + i (R76); `none` where one of them is Undef. -/
def Memory.readBytes (m : Memory) (addr : Nat) : Nat → Option (List Byte)
  | 0 => some []
  | n + 1 =>
    match m.read addr, Memory.readBytes m (addr + 1) n with
    | some b, some bs => some (b :: bs)
    | _, _ => none

/-- Write a list of bytes, element i to address addr + i (R76). -/
def Memory.writeBytes (m : Memory) (addr : Nat) : List Byte → Memory
  | [] => m
  | b :: bs => Memory.writeBytes (m.write addr b) (addr + 1) bs

/-- The number of bytes of the data memory, 2 ^ AW (00_scope.md R11). -/
def State.memTop (s : State) : Nat := 2 ^ s.params.aw

/-- MemRead (00_scope.md R17): the n bytes from an address on. It faults where the access leaves the data memory
(log 9) and where one of the bytes is Undef (20_memory.md R75). -/
def memRead (s : State) (addr n : Nat) : Except Fault (List Byte) :=
  if s.memTop < addr + n then .error .noSuchAddress
  else
    match s.mem.readBytes addr n with
    | some bs => .ok bs
    | none => .error .undefRead

/-- MemWrite (R17): the bytes from an address on. It faults where the access leaves the data memory (log 9). -/
def memWrite (s : State) (addr : Nat) (bs : List Byte) : Except Fault State :=
  if s.memTop < addr + bs.length then .error .noSuchAddress
  else .ok { s with mem := s.mem.writeBytes addr bs }

/-- Every byte of a region becomes Undef (20_memory.md R83). -/
def undefineRegion (s : State) (base len : Nat) : State :=
  { s with mem := s.mem.undefine base len }

/-! ## Registers -/

/-- What the address registers keep of a written word: bits [AW-1:0] (10_state.md R36, R38). -/
def maskAddress (p : Params) (w : Word) : Word := w &&& BitVec.ofNat 32 (2 ^ p.aw - 1)

/-- A naturally aligned 32-bit access to the register window (R31). -/
def alignedAccess (offset : BitVec 8) (size : Nat) : Bool :=
  decide (size = 4) && decide (offset.toNat % 4 = 0)

/-- The value an aligned 32-bit read of the register window returns (R31, R51); 0x30 to 0xFC read as zero (R44). -/
def regValue (s : State) (offset : BitVec 8) : Word :=
  if offset = 0x00#8 then s.params.idValue
  else if offset = 0x04#8 then capsWord s.params
  else if offset = 0x08#8 then s.cmd
  else if offset = 0x0C#8 then s.status
  else if offset = 0x10#8 then s.srcAddr
  else if offset = 0x14#8 then s.srcLen
  else if offset = 0x18#8 then s.dstAddr
  else if offset = 0x1C#8 then s.dstLen
  else if offset = 0x20#8 then s.errExpected
  else if offset = 0x24#8 then s.errActual
  else if offset = 0x28#8 then s.arg
  else if offset = 0x2C#8 then s.result
  else 0

/-- The operand snapshot a CMD write takes (R48). -/
def snapshot (s : State) (w : Word) : Latch where
  cmd := w
  srcAddr := s.srcAddr
  srcLen := s.srcLen
  dstAddr := s.dstAddr
  dstLen := s.dstLen

/-- Command start (42_dispatch.md R190). -/
def startCommand (s : State) (w : Word) : State :=
  { s with
    cmd := w
    latch := snapshot s w
    status := statusBusy
    errExpected := 0
    errActual := 0
    phase := .check
    sched := []
    idx := 0 }

/-- A host write to the register window while BUSY = 0 (10_state.md R34, R36 to R39, R42, R44, R52): CMD starts a
command, a read-only register and the reserved offsets ignore it. -/
def writeReg (s : State) (offset : BitVec 8) (w : Word) : State :=
  if offset = 0x08#8 then startCommand s w
  else if offset = 0x10#8 then { s with srcAddr := maskAddress s.params w }
  else if offset = 0x14#8 then { s with srcLen := w }
  else if offset = 0x18#8 then { s with dstAddr := maskAddress s.params w }
  else if offset = 0x1C#8 then { s with dstLen := w }
  else if offset = 0x28#8 then { s with arg := w }
  else s

/-! ## Completion: raise Status(c) -/

/-- Completion with a code, part of the step that raises it (42_dispatch.md R196). -/
def complete (s : State) (c : StatusCode) : State :=
  { s with
    status := statusDone c
    phase := .idle
    sched := []
    idx := 0 }

/-- Completion with LENGTH_MISMATCH, which records the two lengths (42_dispatch.md R192, 10_state.md R40, R41). -/
def completeMismatch (s : State) (required : Nat) : State :=
  complete { s with errExpected := BitVec.ofNat 32 required, errActual := s.latch.dstLen } .lengthMismatch

/-- After an item has succeeded: IDX advances by one, and past the last item the command completes with NONE
(42_dispatch.md R195). -/
def advance (s : State) : State :=
  if s.idx + 1 < s.sched.length then { s with idx := s.idx + 1 } else complete s .none

/-! ## Reset -/

/-- Every piece of block state at its reset value (10_state.md R54, 70_reset_and_hazards.md R260). Data memory, the
build parameters and the agents outside the block keep what they hold (R262). -/
def resetBlock (s : State) : State :=
  { State.resetWith s.params with
    mem := s.mem
    host := s.host
    hostData := s.hostData }

end Sys2Proof.Machine
end

