-- ==== Sys2Proof/Machine/Operands.lean ====
section
/-!
DEFINITION. The operands of the commands: the per-command quantities of 42_dispatch.md R193, the overlap predicate
(R198), the schedule function (R200, the reading of 90_conflicts.md C1) and the source offsets of an item.
-/

namespace Sys2Proof.Machine

/-! ## Items -/

/-- The first source offset of an item (R200). -/
def Item.offset : Item → Nat
  | .vec o _ => o
  | .unit o => o

/-- The number of source offsets an item processes: W, or the unit size u (R200). -/
def Item.count (u : Nat) : Item → Nat
  | .vec _ w => w
  | .unit _ => u

/-! ## The schedule -/

/-- The scalar fallback: UNIT(0), UNIT(u), ..., UNIT(n - u), empty if n = 0 (R200). -/
def scalarUnits (n u : Nat) : List Item :=
  (List.range (n / u)).map (fun k => Item.unit (k * u))

/-- As many successive chunks of width w as fit between pos and n (R200, the while loop). -/
def chunksOf (pos n w : Nat) : List Item :=
  (List.range ((n - pos) / w)).map (fun k => Item.vec (pos + k * w) w)

/-- The position after those chunks. -/
def posAfter (pos n w : Nat) : Nat := pos + (n - pos) / w * w

/-- The cascade from pos on over the widths, widest first (R200, the for loop): the chunks and the position they
reach. -/
def cascade (n : Nat) : List Nat → Nat → List Item × Nat
  | [], pos => ([], pos)
  | w :: ws, pos =>
    let rest := cascade n ws (posAfter pos n w)
    (chunksOf pos n w ++ rest.1, rest.2)

/-- Wmin, the least width (00_scope.md R13): the last of the list, which is in falling order. -/
def leastWidth (widths : List Nat) : Nat := widths.getLastD 0

/-- The chunks of the cascade and, where a remainder is left, the overlap tail of width Wmin (R200). -/
def vectorItems (n : Nat) (widths : List Nat) : List Item :=
  let c := cascade n widths 0
  if c.2 < n then c.1 ++ [Item.vec (n - leastWidth widths) (leastWidth widths)] else c.1

/-- schedule(n, WS, u) (R200). -/
def schedule (n : Nat) (widths : List Nat) (u : Nat) : List Item :=
  if widths.isEmpty || decide (n < leastWidth widths) then scalarUnits n u else vectorItems n widths

/-! ## Regions -/

/-- overlap(a, la, b, lb): both regions are nonempty and share an address (R198). -/
def overlap (a la b lb : Nat) : Bool :=
  decide (0 < la) && decide (0 < lb) && decide (a < b + lb) && decide (b < a + la)

/-- The address lies in [base, base + len). -/
def inRegion (a base len : Nat) : Bool := decide (base ≤ a) && decide (a < base + len)

/-! ## Per-command quantities -/

/-- A row of the table of R193, for one operand snapshot. -/
structure Quantities where
  /-- ENCODE-type: the length limit of R192 item 2 applies. -/
  encodeType : Bool
  /-- srclen. -/
  srcLen : Nat
  /-- dstlen. -/
  dstLen : Nat
  /-- PAR: the odd-length check applies. -/
  par : Bool
  /-- LEN: the destination length is checked. -/
  len : Bool
  /-- OWN: the command writes DST_LEN. -/
  own : Bool
  /-- The schedule. -/
  sched : List Item
  deriving DecidableEq, Repr

/-- ENCODE's row of R193. -/
def quantEncode (p : Params) (l : Latch) : Quantities where
  encodeType := true
  srcLen := l.srcLen.toNat
  dstLen := 2 * l.srcLen.toNat
  par := false
  len := false
  own := true
  sched := schedule l.srcLen.toNat p.widths 1

/-- ENCODE_TO_BUF's row of R193. -/
def quantEncodeToBuf (p : Params) (l : Latch) : Quantities where
  encodeType := true
  srcLen := l.srcLen.toNat
  dstLen := 2 * l.srcLen.toNat
  par := false
  len := true
  own := false
  sched := schedule l.srcLen.toNat p.widths 1

/-- ENC_SCALAR's row of R193. -/
def quantEncScalar (l : Latch) : Quantities where
  encodeType := true
  srcLen := l.srcLen.toNat
  dstLen := 2 * l.srcLen.toNat
  par := false
  len := true
  own := false
  sched := schedule l.srcLen.toNat [] 1

/-- ENC_CHUNK.W's row of R193. -/
def quantEncChunk (wsel : BitVec 4) : Quantities where
  encodeType := false
  srcLen := chunkWidth wsel
  dstLen := 2 * chunkWidth wsel
  par := false
  len := false
  own := false
  sched := [.vec 0 (chunkWidth wsel)]

/-- DECODE's row of R193. -/
def quantDecode (p : Params) (l : Latch) : Quantities where
  encodeType := false
  srcLen := l.srcLen.toNat
  dstLen := l.srcLen.toNat / 2
  par := true
  len := false
  own := true
  sched := schedule l.srcLen.toNat p.widths 2

/-- DECODE_TO_BUF's row of R193. -/
def quantDecodeToBuf (p : Params) (l : Latch) : Quantities where
  encodeType := false
  srcLen := l.srcLen.toNat
  dstLen := l.srcLen.toNat / 2
  par := true
  len := true
  own := false
  sched := schedule l.srcLen.toNat p.widths 2

/-- DEC_SCALAR's row of R193. -/
def quantDecScalar (l : Latch) : Quantities where
  encodeType := false
  srcLen := l.srcLen.toNat
  dstLen := l.srcLen.toNat / 2
  par := true
  len := true
  own := false
  sched := schedule l.srcLen.toNat [] 2

/-- DEC_CHUNK.W's row of R193. -/
def quantDecChunk (wsel : BitVec 4) : Quantities where
  encodeType := false
  srcLen := chunkWidth wsel
  dstLen := chunkWidth wsel / 2
  par := false
  len := false
  own := false
  sched := [.vec 0 (chunkWidth wsel)]

/-- The row of R193 of a command; NOP and the table reads have none. -/
def quantitiesOf (p : Params) (l : Latch) : Instr → Option Quantities
  | .encode => some (quantEncode p l)
  | .encodeToBuf => some (quantEncodeToBuf p l)
  | .encScalar => some (quantEncScalar l)
  | .encChunk wsel => some (quantEncChunk wsel)
  | .decode => some (quantDecode p l)
  | .decodeToBuf => some (quantDecodeToBuf p l)
  | .decScalar => some (quantDecScalar l)
  | .decChunk wsel => some (quantDecChunk wsel)
  | .nop => none
  | .lutHex => none
  | .lutNib => none

/-- The row of R193 of the latched word: none where the word is illegal (it has no regions) and for the commands that
touch no memory. -/
def activeQuantities (s : State) : Option Quantities :=
  match decodeWord s.latch.cmd with
  | .ok i => if i.wf s.params then quantitiesOf s.params s.latch i else none
  | .error _ => none

/-- The address lies in the source region of the command in progress (00_scope.md R19 'Region'; log 12). -/
def inActiveSource (s : State) (a : Nat) : Bool :=
  match activeQuantities s with
  | some q => inRegion a s.latch.srcAddr.toNat q.srcLen
  | none => false

/-- The address lies in the destination region of the command in progress (log 12). -/
def inActiveDest (s : State) (a : Nat) : Bool :=
  match activeQuantities s with
  | some q => inRegion a s.latch.dstAddr.toNat q.dstLen
  | none => false

/-! ## The CHECK step -/

/-- Items 2 to 6 of the CHECK step, in their order (42_dispatch.md R192); item 1 is the caller's. -/
def checkStep (q : Quantities) (s : State) : State :=
  if q.encodeType && decide (2 ^ 31 - 1 < s.latch.srcLen.toNat) then complete s .regionError
  else if s.memTop < s.latch.srcAddr.toNat + q.srcLen then complete s .regionError
  else if q.par && decide (q.srcLen % 2 = 1) then complete s .oddLength
  else if q.len && decide (s.latch.dstLen.toNat ≠ q.dstLen) then completeMismatch s q.dstLen
  else
    let s1 : State := if q.own then { s with dstLen := BitVec.ofNat 32 q.dstLen } else s
    if s.memTop < s.latch.dstAddr.toNat + q.dstLen then complete s1 .regionError
    else if overlap s.latch.srcAddr.toNat q.srcLen s.latch.dstAddr.toNat q.dstLen then complete s1 .regionError
    else if q.sched.isEmpty then complete s1 .none
    else { s1 with sched := q.sched, idx := 0, phase := .run }

/-- The engine step of a command with memory operands: nothing while idle (42_dispatch.md R191; log 5), the CHECK
step, or a RUN step. -/
def commandStep (q : Quantities) (runStep : State → Host.Outcome State Fault Refusal) (s : State) :
    Host.Outcome State Fault Refusal :=
  match s.phase with
  | .idle => .next s
  | .check => .next (checkStep q s)
  | .run => runStep s

/-- The engine step of a command that completes in its CHECK step with NONE after an effect on the registers
(42_dispatch.md R192 item 1, R197). -/
def registerStep (effect : State → State) (s : State) : Host.Outcome State Fault Refusal :=
  match s.phase with
  | .idle => .next s
  | .check => .next (complete (effect s) .none)
  | .run => .next (complete (effect s) .none)

/-- The engine step of a chunk command: an unsupported width completes with ILLEGAL_COMMAND in the CHECK step
(40_encoder.md R133, 41_decoder.md R165). -/
def chunkStep (wsel : BitVec 4) (q : Quantities) (runStep : State → Host.Outcome State Fault Refusal) (s : State) :
    Host.Outcome State Fault Refusal :=
  match s.phase with
  | .idle => .next s
  | .check => if s.params.supports wsel then .next (checkStep q s) else .next (complete s .illegalCommand)
  | .run => runStep s

end Sys2Proof.Machine
end

