-- ==== Sys2Proof/Machine/Tables.lean ====
section
/-!
DEFINITION. The constant tables (10_state.md R50): HEX_LUT (40_encoder.md R120), NIB_LUT (41_decoder.md R150) and the
permute tables PERM_LO and PERM_HI (R157). Their byte values are ASCII code points (00_scope.md R18, log 14).
-/

namespace Sys2Proof.Machine

/-- HEX_LUT, 16 entries: the lowercase hex digit of each nibble (R120). -/
def hexLut : List Byte :=
  [0x30#8, 0x31#8, 0x32#8, 0x33#8, 0x34#8, 0x35#8, 0x36#8, 0x37#8, 0x38#8, 0x39#8] ++
  [0x61#8, 0x62#8, 0x63#8, 0x64#8, 0x65#8, 0x66#8]

/-- HEX_LUT[n]. -/
def hexLutAt (n : BitVec 4) : Byte := hexLut.getD n.toNat 0

/-- A row of NIB_LUT's grid in which every entry is SENTINEL. -/
def nibRowNone : List Byte := List.replicate 16 sentinel

/-- The row of NIB_LUT's grid for c[7:4] = 3: '0' to '9' (R150). -/
def nibRowDigits : List Byte :=
  [0x00#8, 0x01#8, 0x02#8, 0x03#8, 0x04#8, 0x05#8, 0x06#8, 0x07#8, 0x08#8, 0x09#8] ++ List.replicate 6 sentinel

/-- The rows of NIB_LUT's grid for c[7:4] = 4 and 6: 'A' to 'F' and 'a' to 'f' (R150). -/
def nibRowLetters : List Byte :=
  [sentinel, 0x0A#8, 0x0B#8, 0x0C#8, 0x0D#8, 0x0E#8, 0x0F#8] ++ List.replicate 9 sentinel

/-- NIB_LUT, 256 entries: the grid of R150, row by row. -/
def nibLut : List Byte :=
  nibRowNone ++ nibRowNone ++ nibRowNone ++ nibRowDigits ++ nibRowLetters ++ nibRowNone ++ nibRowLetters ++
  (List.replicate 9 nibRowNone).flatten

/-- NIB_LUT[c]. -/
def nibLutAt (c : Byte) : Byte := nibLut.getD c.toNat sentinel

/-- PERM_LO[i] = NIB_LUT[i], 64 entries (R157). -/
def permLo : List Byte := nibLut.take 64

/-- PERM_HI[i] = NIB_LUT[0x40 + i], 64 entries (R157). -/
def permHi : List Byte := (nibLut.drop 0x40).take 64

end Sys2Proof.Machine
end

