-- ==== Sys2Proof/Machine/Decoder.lean ====
section
/-!
DEFINITION. The decoder (41_decoder.md): classification of a character by each permitted method, the vector and scalar
decode kernels, the RUN step of a decode command, and the meanings of DECODE, DECODE_TO_BUF, DEC_CHUNK and DEC_SCALAR.
-/

namespace Sys2Proof.Machine

/-! ## Classification of one character -/

/-- The class of a character and, where it has one, its nibble value (R151). -/
inductive CharClass where
  | digit (value : Byte)
  | upper (value : Byte)
  | lower (value : Byte)
  | invalid
  deriving DecidableEq, Repr

/-- CLASSIFY(c) (R151). -/
def classify (c : Byte) : CharClass :=
  if 0x30#8 ≤ c ∧ c ≤ 0x39#8 then .digit (c - 0x30#8)
  else if 0x41#8 ≤ c ∧ c ≤ 0x46#8 then .upper (c - 0x37#8)
  else if 0x61#8 ≤ c ∧ c ≤ 0x66#8 then .lower (c - 0x57#8)
  else .invalid

/-- The nibble value of a class, none for an invalid character (R151). -/
def CharClass.nibble : CharClass → Option Byte
  | .digit v => some v
  | .upper v => some v
  | .lower v => some v
  | .invalid => none

/-- The lanes of one character under a method: is it valid, and its nibble (R160: (ok, v)). -/
abbrev Lane := Bool × Byte

/-- The bias-and-bound method with its guards (R152). -/
def laneBias (c : Byte) : Lane :=
  let vd := c - 0x30#8
  let vu := c - 0x37#8
  let vl := c - 0x57#8
  let isD := decide (vd ≤ 15#8) && decide (vd ≤ 9#8)
  let isU := decide (vu ≤ 15#8) && decide (10#8 ≤ vu)
  let isL := decide (vl ≤ 15#8) && decide (10#8 ≤ vl)
  (isD || isU || isL, if isD then vd else if isU then vu else vl)

/-- T(c), the permute lookup: bit 7 forces SENTINEL, bit 6 selects the table, c[5:0] indexes it (R158). -/
def permLookup (c : Byte) : Byte :=
  if c.getLsbD 7 then sentinel
  else if c.getLsbD 6 then permHi.getD (c.extractLsb' 0 6).toNat sentinel
  else permLo.getD (c.extractLsb' 0 6).toNat sentinel

/-- A lane is rejected if its table value equals the sentinel (R158, R161). -/
def laneOfValue (v : Byte) : Lane := (decide (v ≠ sentinel), v)

/-- The classification method of a family's vector kernel (R153). A SCALAR block has no vector kernel (log 15). -/
def decLane : Family → Byte → Lane
  | .portable, c => laneBias c
  | .accelBias, c => laneBias c
  | .accelPermute, c => laneOfValue (permLookup c)
  | .scalar, c => laneOfValue (nibLutAt c)

/-! ## Packing -/

/-- Shift-then-OR: (h << 4) | l (R156). -/
def packShiftOr (h l : Byte) : Byte := (h <<< 4) ||| l

/-- Multiply-add: the low 8 bits of h * 16 + l formed at 16 bits (R159). -/
def packMulAdd (h l : Byte) : Byte := (h.setWidth 16 * 16#16 + l.setWidth 16).setWidth 8

/-- The pack method of a family's vector kernel (R153). -/
def packLane : Family → Byte → Byte → Byte
  | .portable, h, l => packShiftOr h l
  | .accelBias, h, l => packShiftOr h l
  | .accelPermute, h, l => packMulAdd h l
  | .scalar, h, l => packShiftOr h l

/-! ## Kernels -/

/-- The high characters of a chunk, Hc[j] = s[2j] (R154). -/
def evenChars : List Byte → List Byte
  | h :: _ :: rest => h :: evenChars rest
  | _ => []

/-- The low characters of a chunk, Lc[j] = s[2j+1] (R154). -/
def oddChars : List Byte → List Byte
  | _ :: l :: rest => l :: oddChars rest
  | _ => []

/-- DEC_VEC(W, s), W the length of s: none where a lane is invalid (R155, R160). -/
def decVec (f : Family) (s : List Byte) : Option (List Byte) :=
  let hs := (evenChars s).map (decLane f)
  let ls := (oddChars s).map (decLane f)
  if hs.all (fun x => x.1) && ls.all (fun x => x.1) then
    some (List.zipWith (fun h l => packLane f h.2 l.2) hs ls)
  else none

/-- DEC_UNIT(ch, cl): none where either entry equals the sentinel (R161). -/
def decUnit (ch cl : Byte) : Option Byte :=
  if nibLutAt ch = sentinel ∨ nibLutAt cl = sentinel then none
  else some (packShiftOr (nibLutAt ch) (nibLutAt cl))

/-- The value of a whole text: the byte of each pair in order, none where the text holds an invalid character
(R151, R156, R168) or half a pair. -/
def decChars : List Byte → Option (List Byte)
  | [] => some []
  | [_] => none
  | h :: l :: rest =>
    match (classify h).nibble, (classify l).nibble, decChars rest with
    | some vh, some vl, some bs => some (packShiftOr vh vl :: bs)
    | _, _, _ => none

/-- What an item of a decode schedule writes for the characters it read, none where it fails (R162). -/
def decItem (f : Family) : Item → List Byte → Option (List Byte)
  | .vec _ _, v => decVec f v
  | .unit _, [ch, cl] => (decUnit ch cl).map (fun b => [b])
  | .unit _, _ => none

/-! ## Commands -/

/-- A failing item of DECODE, DECODE_TO_BUF or DEC_SCALAR: the whole destination region becomes Undef and the command
completes with INVALID_CHARACTER (42_dispatch.md R195, 20_memory.md R83). -/
def failUndefining (s : State) : State :=
  complete (undefineRegion s s.latch.dstAddr.toNat (s.latch.srcLen.toNat / 2)) .invalidCharacter

/-- A failing item of DEC_CHUNK: the destination is unchanged (42_dispatch.md R195, 41_decoder.md R165). -/
def failKeeping (s : State) : State := complete s .invalidCharacter

/-- One RUN step of a decode command (42_dispatch.md R194, R195, 41_decoder.md R162, 42_dispatch.md R202). No run
reaches IDX past the end of SCHED; the command then completes with NONE (log 8). -/
def decodeRun (onFail : State → State) (s : State) : Host.Outcome State Fault Refusal :=
  match s.sched[s.idx]? with
  | none => .next (complete s .none)
  | some item =>
    match memRead s (s.latch.srcAddr.toNat + item.offset) (item.count 2) with
    | .error f => .fault f
    | .ok v =>
      match decItem s.params.family item v with
      | none => .next (onFail s)
      | some bs =>
        match memWrite s (s.latch.dstAddr.toNat + item.offset / 2) bs with
        | .error f => .fault f
        | .ok s' => .next (advance s')

/-- DECODE (R164): the owning decode, DST_LEN reports n/2. -/
def execDecode (s : State) : Host.Outcome State Fault Refusal :=
  commandStep (quantDecode s.params s.latch) (decodeRun failUndefining) s

/-- DECODE_TO_BUF (R163): requires DST_LEN = n/2. -/
def execDecodeToBuf (s : State) : Host.Outcome State Fault Refusal :=
  commandStep (quantDecodeToBuf s.params s.latch) (decodeRun failUndefining) s

/-- DEC_CHUNK.W (R165): one vector decode kernel invocation. -/
def execDecChunk (wsel : BitVec 4) (s : State) : Host.Outcome State Fault Refusal :=
  chunkStep wsel (quantDecChunk wsel) (decodeRun failKeeping) s

/-- DEC_SCALAR (R166): scalar units over the whole input. -/
def execDecScalar (s : State) : Host.Outcome State Fault Refusal :=
  commandStep (quantDecScalar s.latch) (decodeRun failUndefining) s

end Sys2Proof.Machine
end

