-- ==== Sys2Proof/Machine/Encoder.lean ====
section
/-!
DEFINITION. The encoder (40_encoder.md): the nibble-to-character methods of each kernel family, the vector and scalar
encode kernels, the RUN step of an encode command, and the meanings of ENCODE, ENCODE_TO_BUF, ENC_CHUNK and ENC_SCALAR.
-/

namespace Sys2Proof.Machine

/-- The high nibble of a byte, b[7:4] (R121). -/
def hiNibble (b : Byte) : BitVec 4 := b.extractLsb' 4 4

/-- The low nibble of a byte, b[3:0] (R121). -/
def loNibble (b : Byte) : BitVec 4 := b.extractLsb' 0 4

/-- enc_byte(b): the two characters of a byte, high nibble first (R122). -/
def encByte (b : Byte) : List Byte := [hexLutAt (hiNibble b), hexLutAt (loNibble b)]

/-- ENC(s): the lowercase two-digit rendering of each byte in order (R122). -/
def encBytes : List Byte → List Byte
  | [] => []
  | b :: rest => encByte b ++ encBytes rest

/-- M(n), the lane-wise compare mask of the biased-add method (R123). -/
def overNineMask (n : BitVec 4) : Byte := if 9 < n.toNat then 0xFF#8 else 0x00#8

/-- asc(n) = 0x30 + n + (M(n) & 0x27), mod 256 (R123). -/
def biasedAscii (n : BitVec 4) : Byte := 0x30#8 + n.setWidth 8 + (overNineMask n &&& 0x27#8)

/-- CH, the nibble-to-character method of a family's vector kernel (R125). A SCALAR block has no vector kernel (log 15). -/
def encLane : Family → BitVec 4 → Byte
  | .portable, n => biasedAscii n
  | .accelBias, n => hexLutAt n
  | .accelPermute, n => hexLutAt n
  | .scalar, n => hexLutAt n

/-- Interleave the high and low character lanes: out[2j] = H[j], out[2j+1] = L[j] (R126). -/
def interleave : List Byte → List Byte → List Byte
  | h :: hs, l :: ls => h :: l :: interleave hs ls
  | _, _ => []

/-- ENC_VEC(W, s), W the length of s (R126). -/
def encVec (f : Family) (s : List Byte) : List Byte :=
  interleave (s.map (fun b => encLane f (hiNibble b))) (s.map (fun b => encLane f (loNibble b)))

/-- ENC_UNIT(b) (R127). -/
def encUnit (b : Byte) : List Byte := encByte b

/-- What an item of an encode schedule writes for the source bytes it read (R128). -/
def encItem (f : Family) : Item → List Byte → List Byte
  | .vec _ _, v => encVec f v
  | .unit _, v => v.flatMap encUnit

/-- One RUN step of an encode command (42_dispatch.md R194, R195, 40_encoder.md R128). No run reaches IDX past the end
of SCHED; the command then completes with NONE (log 8). -/
def encodeRun (s : State) : Host.Outcome State Fault Refusal :=
  match s.sched[s.idx]? with
  | none => .next (complete s .none)
  | some item =>
    match memRead s (s.latch.srcAddr.toNat + item.offset) (item.count 1) with
    | .error f => .fault f
    | .ok v =>
      match memWrite s (s.latch.dstAddr.toNat + 2 * item.offset) (encItem s.params.family item v) with
      | .error f => .fault f
      | .ok s' => .next (advance s')

/-- ENCODE (R132): the owning encode, DST_LEN reports 2n. -/
def execEncode (s : State) : Host.Outcome State Fault Refusal :=
  commandStep (quantEncode s.params s.latch) encodeRun s

/-- ENCODE_TO_BUF (R131): requires DST_LEN = 2n. -/
def execEncodeToBuf (s : State) : Host.Outcome State Fault Refusal :=
  commandStep (quantEncodeToBuf s.params s.latch) encodeRun s

/-- ENC_CHUNK.W (R133): one vector encode kernel invocation. -/
def execEncChunk (wsel : BitVec 4) (s : State) : Host.Outcome State Fault Refusal :=
  chunkStep wsel (quantEncChunk wsel) encodeRun s

/-- ENC_SCALAR (R134): scalar units over the whole input. -/
def execEncScalar (s : State) : Host.Outcome State Fault Refusal :=
  commandStep (quantEncScalar s.latch) encodeRun s

end Sys2Proof.Machine
end

