-- ==== Sys2Proof/Machine/TableReads.lean ====
section
/-!
DEFINITION. The commands without memory operands: NOP (42_dispatch.md R208) and the table reads LUT_HEX
(40_encoder.md R135) and LUT_NIB (41_decoder.md R167). ARG is read in the CHECK step itself, not from LATCH
(10_state.md R48).
-/

namespace Sys2Proof.Machine

/-- RESULT ← zext_32(HEX_LUT[ARG[3:0]]) (R135). -/
def readHexLut (s : State) : State :=
  { s with result := (hexLutAt (s.arg.extractLsb' 0 4)).setWidth 32 }

/-- RESULT ← zext_32(NIB_LUT[ARG[7:0]]) (R167). -/
def readNibLut (s : State) : State :=
  { s with result := (nibLutAt (s.arg.extractLsb' 0 8)).setWidth 32 }

/-- NOP (R208): completes with NONE and does nothing else. -/
def execNop (s : State) : Host.Outcome State Fault Refusal := registerStep (fun t => t) s

/-- LUT_HEX (R135). -/
def execLutHex (s : State) : Host.Outcome State Fault Refusal := registerStep readHexLut s

/-- LUT_NIB (R167). -/
def execLutNib (s : State) : Host.Outcome State Fault Refusal := registerStep readNibLut s

end Sys2Proof.Machine
end

