-- ==== Sys2Proof/Machine/Dispatch.lean ====
section
/-!
DEFINITION. One engine step of a command: one arm per constructor of Instr (42_dispatch.md R191).
-/

namespace Sys2Proof.Machine

def exec (i : Instr) (s : State) : Host.Outcome State Fault Refusal :=
  match i with
  | .nop => Sys2Proof.Machine.execNop s
  | .encode => Sys2Proof.Machine.execEncode s
  | .encodeToBuf => Sys2Proof.Machine.execEncodeToBuf s
  | .decode => Sys2Proof.Machine.execDecode s
  | .decodeToBuf => Sys2Proof.Machine.execDecodeToBuf s
  | .encChunk wsel => Sys2Proof.Machine.execEncChunk wsel s
  | .decChunk wsel => Sys2Proof.Machine.execDecChunk wsel s
  | .encScalar => Sys2Proof.Machine.execEncScalar s
  | .decScalar => Sys2Proof.Machine.execDecScalar s
  | .lutHex => Sys2Proof.Machine.execLutHex s
  | .lutNib => Sys2Proof.Machine.execLutNib s

end Sys2Proof.Machine
end

