-- ==== Sys2Proof/Machine/Engine.lean ====
section
/-!
DEFINITION. The engine agent: its one step (42_dispatch.md R191) on the latched command word.
-/

namespace Sys2Proof.Machine

/-- The engine's step: none while PHASE = IDLE (R191; the state then stays, log 5). Otherwise the latched word
(10_state.md R48) is decoded and its command takes one step; a word that encodes no command completes with
ILLEGAL_COMMAND (R192 item 1). -/
def engineStep (s : State) : Host.Outcome State Fault Refusal :=
  if s.phase = .idle then .next s
  else
    match decodeWord s.latch.cmd with
    | .ok i => exec i s
    | .error _ => .next (complete s .illegalCommand)

/-- The command word of an instruction of `nbits` bits, the bits above `nbits` being 0. -/
def tableWord (nbits w : Nat) : Word := BitVec.ofNat 32 (w % 2 ^ nbits)

/-- The host's pending transactions with the engine's turn first: an empty list already lets the engine move. -/
def engineFirst : List HostEvent → List HostEvent
  | [] => []
  | e :: rest => .pass :: e :: rest

end Sys2Proof.Machine
end

