-- ==== Sys2Proof/Machine/HostPort.lean ====
section
/-!
DEFINITION. The agents outside the engine: what one transaction of the host, of another agent on the data memory, or
of the reset input does (10_state.md R51 to R53, 20_memory.md R72, R91, 70_reset_and_hazards.md R260 to R273).
Where several faults apply to one transaction the order is the model's (log 10).
-/

namespace Sys2Proof.Machine

/-- A host register read (R51): the current value, busy or not, without side effects. -/
def hostRegRead (s : State) (offset : BitVec 8) (size : Nat) : Host.Outcome State Fault Refusal :=
  if alignedAccess offset size then .next { s with hostData := regValue s offset } else .fault .regAccess

/-- A host register write (R52, R53, R44): ignored at 0x30 to 0xFC at all times, a protocol violation elsewhere while
BUSY = 1. -/
def hostRegWrite (s : State) (offset : BitVec 8) (size : Nat) (w : Word) : Host.Outcome State Fault Refusal :=
  if alignedAccess offset size then
    if 0x30 ≤ offset.toNat then .next s
    else if s.busy then .fault .hostProtocol
    else .next (writeReg s offset w)
  else .fault .regAccess

/-- One read of a poll loop (30_encoding.md R108): done where the masked value is the wanted one, else the engine gets
one step and the loop goes on (log 16). -/
def hostPoll (s : State) (offset : BitVec 8) (mask wanted : Word) : Host.Outcome State Fault Refusal :=
  if alignedAccess offset 4 then
    if regValue s offset &&& mask = wanted then .next { s with hostData := regValue s offset }
    else .next { s with hostData := regValue s offset, host := .pass :: .poll offset mask wanted :: s.host }
  else .fault .regAccess

/-- A host read of a data byte (20_memory.md R72): not of the active destination while BUSY = 1
(70_reset_and_hazards.md R273); reads of the source are allowed (R271). A byte in both regions of a command whose
overlap check has not run yet is under both rules: the fault is the model's DESIGN CHOICE (log 12, safe). -/
def hostMemRead (s : State) (a : Nat) : Host.Outcome State Fault Refusal :=
  if s.memTop ≤ a then .fault .noSuchAddress
  else if s.busy && inActiveDest s a then .fault .hostProtocol
  else
    match s.mem.read a with
    | some b => .next { s with hostData := b.setWidth 32 }
    | none => .fault .hostUndefRead

/-- A write of a data byte by the host (R72, R271, R273) or by another agent (20_memory.md R91, log 11): not to the
active regions while BUSY = 1. It can only make a byte Def: how a second instance's destination that became Undef
(20_memory.md R83, 42_dispatch.md R195, R261) shows in the shared memory the spec does not say (60_exceptions.md R242),
and that no transaction shows it is the model's DESIGN CHOICE (log 25, unsafe). -/
def busMemWrite (s : State) (a : Nat) (b : Byte) : Host.Outcome State Fault Refusal :=
  if s.memTop ≤ a then .fault .noSuchAddress
  else if s.busy && (inActiveSource s a || inActiveDest s a) then .fault .hostProtocol
  else .next { s with mem := s.mem.write a b }

/-- The bytes of an abandoned command's destination hold no architectural value (70_reset_and_hazards.md R261). R261
also says that source bytes are unchanged: that a byte in both regions of a command whose overlap check has not run yet
becomes Undef is the model's DESIGN CHOICE (log 12, safe). -/
def undefineAbandoned (s : State) : State :=
  match activeQuantities s with
  | some q => undefineRegion s s.latch.dstAddr.toNat q.dstLen
  | none => s

/-- The reset input (R260, R261): a command in progress is abandoned, and the block goes to its reset values. -/
def assertReset (s : State) : State :=
  if s.busy then resetBlock (undefineAbandoned s) else resetBlock s

/-- One transaction, already taken off the pending list; `pass` itself does nothing here. -/
def hostAct (e : HostEvent) (s : State) : Host.Outcome State Fault Refusal :=
  match e with
  | .regRead offset size => hostRegRead s offset size
  | .regWrite offset size w => hostRegWrite s offset size w
  | .poll offset mask wanted => hostPoll s offset mask wanted
  | .memRead a => hostMemRead s a.toNat
  | .memWrite a b => busMemWrite s a.toNat b
  | .otherWrite a b => busMemWrite s a.toNat b
  | .reset => .next (assertReset s)
  | .pass => .next s

end Sys2Proof.Machine
end

