-- ==== Sys2Proof/Machine/Step.lean ====
section
/-!
DEFINITION. One step of the whole machine: the host's next pending transaction, or, at `pass` and where none is
pending, the engine's step (00_scope.md R5, 42_dispatch.md R190, R191; log 2).
-/

namespace Sys2Proof.Machine

/-- One step: of the host, if a transaction is pending, else of the engine. -/
def step (s : State) : Host.Outcome State Fault Refusal :=
  match s.host with
  | [] => engineStep s
  | .pass :: rest => engineStep { s with host := rest }
  | e :: rest => hostAct e { s with host := rest }

/-- `s` right after a CMD write of the word has started its command (42_dispatch.md R190), the engine to move next, so
that the very next step is that command's CHECK step (log 17). -/
def State.withFetchWord (s : State) (nbits w : Nat) : State :=
  { startCommand s (tableWord nbits w) with host := engineFirst s.host }

end Sys2Proof.Machine
end

