-- ==== Sys2Proof/Machine/HostAsm.lean ====
section
/-!
DEFINITION. The host assembly (30_encoding.md R108) and its pseudo-instructions (R109), as the transactions they
stand for.
-/

namespace Sys2Proof.Machine

/-- `wr REG, value`: a 32-bit write at a register's offset (R108). -/
def asmWr (offset : BitVec 8) (w : Word) : List HostEvent := [.regWrite offset 4 w]

/-- `rd REG` (R108). -/
def asmRd (offset : BitVec 8) : List HostEvent := [.regRead offset 4]

/-- `poll REG, mask, value` (R108). -/
def asmPoll (offset : BitVec 8) (mask wanted : Word) : List HostEvent := [.poll offset mask wanted]

/-- `cmd MNEMONIC`: a write of the command's word to CMD (R108). -/
def asmCmd (i : Instr) : List HostEvent := asmWr 0x08#8 (encodeInstr i)

/-- `mem ADDR: b0 b1 ...`: host writes of bytes to consecutive addresses (R108). The spec gives no meaning to a
statement whose bytes run past address 0xFFFFFFFF (00_scope.md R16, 20_memory.md R70): going on at address 0 is the
model's DESIGN CHOICE (log 24, unsafe). -/
def asmMem (addr : Word) : List Byte → List HostEvent
  | [] => []
  | b :: bs => .memWrite addr b :: asmMem (addr + 1) bs

/-- `hex.wait` (R109). -/
def hexWait : List HostEvent := asmPoll 0x0C#8 0x1#32 0x0#32

/-- `hex.encode s, n, d` (R109). -/
def hexEncode (src n dst : Word) : List HostEvent :=
  asmWr 0x10#8 src ++ asmWr 0x14#8 n ++ asmWr 0x18#8 dst ++ asmCmd .encode ++ hexWait

/-- `hex.encode_to_buf s, n, d, m` (R109). -/
def hexEncodeToBuf (src n dst m : Word) : List HostEvent :=
  asmWr 0x10#8 src ++ asmWr 0x14#8 n ++ asmWr 0x18#8 dst ++ asmWr 0x1C#8 m ++ asmCmd .encodeToBuf ++ hexWait

/-- `hex.decode s, n, d` (R109). -/
def hexDecode (src n dst : Word) : List HostEvent :=
  asmWr 0x10#8 src ++ asmWr 0x14#8 n ++ asmWr 0x18#8 dst ++ asmCmd .decode ++ hexWait

/-- `hex.decode_to_buf s, n, d, m` (R109). -/
def hexDecodeToBuf (src n dst m : Word) : List HostEvent :=
  asmWr 0x10#8 src ++ asmWr 0x14#8 n ++ asmWr 0x18#8 dst ++ asmWr 0x1C#8 m ++ asmCmd .decodeToBuf ++ hexWait

/-- `hex.lut_hex i` (R109). -/
def hexLutHex (i : Word) : List HostEvent := asmWr 0x28#8 i ++ asmCmd .lutHex ++ hexWait ++ asmRd 0x2C#8

/-- `hex.lut_nib c` (R109). -/
def hexLutNib (c : Word) : List HostEvent := asmWr 0x28#8 c ++ asmCmd .lutNib ++ hexWait ++ asmRd 0x2C#8

end Sys2Proof.Machine
end

