-- ==== Sys2Proof/Safety.lean ====
section
/-!
DEFINITION. What claims about the block rest on: which commands encode and which decode, when a command's checks pass
(42_dispatch.md R192), the legal values of STATUS, and the invariant of the block's state (10_state.md R35, R36, R38,
R40, R41, R43, R47, R48, 60_exceptions.md R230).
-/

namespace Sys2Proof

/-- The encode commands (40_encoder.md R130). -/
def Instr.encodes : Instr → Bool
  | .encode => true
  | .encodeToBuf => true
  | .encScalar => true
  | .encChunk _ => true
  | .decode => false
  | .decodeToBuf => false
  | .decScalar => false
  | .decChunk _ => false
  | .nop => false
  | .lutHex => false
  | .lutNib => false

/-- The decode commands with a schedule of several items, DECODE, DECODE_TO_BUF and DEC_SCALAR (20_memory.md R83). -/
def Instr.decodesMany : Instr → Bool
  | .decode => true
  | .decodeToBuf => true
  | .decScalar => true
  | .encode => false
  | .encodeToBuf => false
  | .encScalar => false
  | .encChunk _ => false
  | .decChunk _ => false
  | .nop => false
  | .lutHex => false
  | .lutNib => false

/-- A chunk command, ENC_CHUNK.W or DEC_CHUNK.W. -/
def Instr.isChunk : Instr → Bool
  | .encChunk _ => true
  | .decChunk _ => true
  | .encode => false
  | .encodeToBuf => false
  | .encScalar => false
  | .decode => false
  | .decodeToBuf => false
  | .decScalar => false
  | .nop => false
  | .lutHex => false
  | .lutNib => false

/-- The decode commands (41_decoder.md R163 to R166). -/
def Instr.decodes (i : Instr) : Bool := i.decodesMany || (i.isChunk && !i.encodes)

namespace Machine

/-- `k` steps of the machine, stopping at the first fault or refusal (the run of Host/Core.lean, said of State). -/
def runSteps : Nat → State → Host.Outcome State Fault Refusal
  | 0, s => .next s
  | k + 1, s =>
    match step s with
    | .next t => runSteps k t
    | .fault f => .fault f
    | .refused r => .refused r

/-- A character of the hex alphabet 0-9A-Fa-f (41_decoder.md R151). -/
def validChar (c : Byte) : Bool := (classify c).nibble.isSome

/-- Every check of the CHECK step but the illegal-word check passes (42_dispatch.md R192 items 2 to 5). -/
def checksPass (q : Quantities) (s : State) : Bool :=
  !(q.encodeType && decide (2 ^ 31 - 1 < s.latch.srcLen.toNat)) &&
  decide (s.latch.srcAddr.toNat + q.srcLen ≤ s.memTop) &&
  !(q.par && decide (q.srcLen % 2 = 1)) &&
  !(q.len && decide (s.latch.dstLen.toNat ≠ q.dstLen)) &&
  decide (s.latch.dstAddr.toNat + q.dstLen ≤ s.memTop) &&
  !overlap s.latch.srcAddr.toNat q.srcLen s.latch.dstAddr.toNat q.dstLen

/-- The bytes of the source region of a command in progress are all Def (70_reset_and_hazards.md R264 step 2). -/
def sourceDefined (q : Quantities) (s : State) : Bool :=
  (s.mem.readBytes s.latch.srcAddr.toNat q.srcLen).isSome

/-- The completion codes (60_exceptions.md R230). -/
def statusCodes : List StatusCode :=
  [.none, .lengthMismatch, .oddLength, .invalidCharacter, .illegalCommand, .regionError]

/-- The values of STATUS while idle: 0 after reset, else the value after a completion (R230, 10_state.md R35). -/
def idleStatus (status : Word) : Bool :=
  decide (status = 0) || statusCodes.any (fun c => decide (status = statusDone c))

/-- STATUS agrees with PHASE: BUSY = 1, DONE = 0, ERR = 0 exactly while a command is in progress (R35, R47). -/
def statusAgrees (s : State) : Bool :=
  match s.phase with
  | .idle => idleStatus s.status
  | .check => decide (s.status = statusBusy)
  | .run => decide (s.status = statusBusy)

/-- Address registers and their snapshots hold AW-bit addresses (R36, R38). -/
def addressesFit (s : State) : Bool :=
  decide (s.srcAddr.toNat < s.memTop) && decide (s.dstAddr.toNat < s.memTop) &&
  decide (s.latch.srcAddr.toNat < s.memTop) && decide (s.latch.dstAddr.toNat < s.memTop)

/-- ERR_EXPECTED and ERR_ACTUAL are 0 unless the last command completed with LENGTH_MISMATCH (R40, R41). -/
def errorsAgree (s : State) : Bool :=
  decide (s.status = statusDone .lengthMismatch) || (decide (s.errExpected = 0) && decide (s.errActual = 0))

/-- While a command is in progress LATCH holds the operand registers, which the host may not write then (R48, R53);
DST_LEN is the one of them the engine may write, in the CHECK step (R45). -/
def latchAgrees (s : State) : Bool :=
  match s.phase with
  | .idle => true
  | .check => decide (s.latch = snapshot s s.cmd)
  | .run => decide ({ s.latch with dstLen := s.dstLen } = snapshot s s.cmd)

/-- The sequencing state (R47): SCHED is empty and IDX is 0 unless PHASE = RUN; then the latched word is a legal
command whose checks have passed, SCHED is its schedule and IDX points into it. -/
def sequencingAgrees (s : State) : Bool :=
  match s.phase with
  | .idle => s.sched.isEmpty && decide (s.idx = 0)
  | .check => s.sched.isEmpty && decide (s.idx = 0)
  | .run =>
    match activeQuantities s with
    | some q => checksPass q s && decide (s.sched = q.sched) && decide (s.idx < s.sched.length)
    | none => false

/-- The invariant of the block's state: it holds after reset and every step keeps it. -/
structure Inv (s : State) : Prop where
  /-- The build parameters are in range (00_scope.md R11, R13). -/
  params : s.params.wf = true
  /-- The data memory is in its canonical form. -/
  memory : s.mem.wf = true
  /-- Every Def byte exists in the data memory (20_memory.md R70). -/
  memoryFits : s.mem.fits s.params.aw = true
  /-- STATUS agrees with PHASE. -/
  status : statusAgrees s = true
  /-- Addresses are AW bits wide. -/
  addresses : addressesFit s = true
  /-- RESULT bits [31:8] read 0 (10_state.md R43). -/
  result : s.result.toNat < 256
  /-- The error registers agree with STATUS. -/
  errors : errorsAgree s = true
  /-- LATCH agrees with the registers while a command is in progress. -/
  latch : latchAgrees s = true
  /-- PHASE, SCHED and IDX agree. -/
  sequencing : sequencingAgrees s = true

/-- The state after a completion with code number `code`, spelled out as R196 spells it: STATUS is (code << 4) | 2.
LATCH keeps what it holds, the model's choice (log 4). -/
def ended (s : State) (code : Nat) : State :=
  { s with
    status := BitVec.ofNat 32 (16 * code + 2)
    phase := .idle
    sched := []
    idx := 0 }

/-- The state after a schedule item has succeeded (42_dispatch.md R195): IDX advances, and after the last item the
command completes with NONE. -/
def itemDone (s : State) : State :=
  if s.idx + 1 = s.sched.length then ended s 0 else { s with idx := s.idx + 1 }

/-- The bytes [addr, addr + n) exist and hold the list (20_memory.md R71, R76). -/
def holdsBytes (s : State) (addr n : Nat) (bs : List Byte) : Prop :=
  addr + n ≤ s.memTop ∧ s.mem.readBytes addr n = some bs

/-- Nothing but the data memory, the status and the sequencing state differs: the registers and inputs an encode or a
decode command of R193 without OWN leaves alone (10_state.md R45). -/
def sameOperands (s t : State) : Prop :=
  t.params = s.params ∧ t.cmd = s.cmd ∧ t.srcAddr = s.srcAddr ∧ t.srcLen = s.srcLen ∧ t.dstAddr = s.dstAddr ∧
  t.arg = s.arg ∧ t.latch = s.latch ∧ t.host = s.host ∧ t.hostData = s.hostData

/-- A CMD write of a word (10_state.md R34). -/
def cmdWrite (w : Word) : HostEvent := .regWrite 0x08#8 4 w

/-- How many engine steps the command in progress takes at most from here (42_dispatch.md R206). -/
def stepsLeft (s : State) : Nat :=
  match s.phase with
  | .idle => 0
  | .check =>
    match activeQuantities s with
    | some q => 1 + q.sched.length
    | none => 1
  | .run => s.sched.length - s.idx

end Machine

end Sys2Proof
end

