-- ==== Sys2Proof/Certificates/Slice0/Obligations.lean ====
section
/-!
DEFINITION. The statements about the model, for the provers. A docstring names the rule of spec/ a statement
formalises, or the sentence it is derived from. Runs are runs of any state, never only of the reset state.
-/

open Sys2Proof Sys2Proof.Machine

/-! ## Encoding -/

/-- 30_encoding.md R100 to R103: a word decodes to a command exactly when it is that command's word. -/
def Obligations.WordDecodesIffEncoded : Prop :=
  ∀ (w : Word) (i : Instr), decodeWord w = .ok i ↔ w = encodeInstr i

/-- 30_encoding.md R107 (sample words, each written out from the field layout of R100). -/
def Obligations.SampleWordsDecode : Prop :=
  decodeWord 0x00000000#32 = .ok .nop ∧ decodeWord 0x00000001#32 = .ok .encode ∧
  decodeWord 0x00000004#32 = .ok .decodeToBuf ∧ decodeWord 0x00000611#32 = .ok (.encChunk 6) ∧
  decodeWord 0x00000412#32 = .ok (.decChunk 4) ∧ decodeWord 0x00000022#32 = .ok .decScalar ∧
  decodeWord 0x00000031#32 = .ok .lutHex ∧ decodeWord 0x00000100#32 = .error .wselNotZero ∧
  decodeWord 0x00001001#32 = .error .reservedBits ∧ decodeWord 0x00000005#32 = .error .reservedOp

/-- 30_encoding.md R107 ('Every other 32-bit word is illegal'), which the spec derives from R102, R103 and R105. -/
def Obligations.DefaultLegalWords : Prop :=
  ∀ w : Word, illegalWord Params.default w = false ↔
    w ∈ [0x00000000#32, 0x00000001#32, 0x00000002#32, 0x00000003#32, 0x00000004#32,
      0x00000411#32, 0x00000511#32, 0x00000611#32, 0x00000412#32, 0x00000512#32, 0x00000612#32,
      0x00000021#32, 0x00000022#32, 0x00000031#32, 0x00000032#32]

/-- Derived from 30_encoding.md R105: which words are illegal, and what the command an illegal word starts does. That
LATCH holds the snapshot once the block is idle again is the model's choice (log 4). -/
def Obligations.IllegalWords : Prop :=
  (∀ (p : Params) (w : Word), illegalWord p w = true ↔
    (opField w ∉ [0x00#8, 0x01#8, 0x02#8, 0x03#8, 0x04#8, 0x11#8, 0x12#8, 0x21#8, 0x22#8, 0x31#8, 0x32#8] ∨
      rsvField w ≠ 0 ∨
      (opField w ≠ 0x11#8 ∧ opField w ≠ 0x12#8 ∧ wselField w ≠ 0) ∨
      ((opField w = 0x11#8 ∨ opField w = 0x12#8) ∧ 2 ^ (wselField w).toNat ∉ p.widths))) ∧
  (∀ (p : Params) (w : Word), p.wf = true → p.family = .scalar → (opField w = 0x11#8 ∨ opField w = 0x12#8) →
    illegalWord p w = true) ∧
  (∀ (s : State) (w : Word) (rest : List HostEvent), s.phase = .idle → s.busy = false →
    s.host = cmdWrite w :: .pass :: rest → illegalWord s.params w = true →
    runSteps 2 s =
      .next { ended s 4 with cmd := w, errExpected := 0, errActual := 0, latch := snapshot s w, host := rest })

/-! ## The step, the start of a command, its completion -/

/-- 42_dispatch.md R191 and log 2: the engine's step runs the decoded command, a pending transaction goes first. The
idle engine's step and LATCH after a completion are the model's choice (log 5, log 4). -/
def Obligations.StepRunsTheDecodedCommand : Prop :=
  (∀ (s : State) (i : Instr), s.host = [] → s.phase ≠ .idle → decodeWord s.latch.cmd = .ok i → step s = exec i s) ∧
  (∀ (s : State) (i : Instr) (rest : List HostEvent), s.host = .pass :: rest → s.phase ≠ .idle →
    decodeWord s.latch.cmd = .ok i → step s = exec i { s with host := rest }) ∧
  (∀ (s : State) (e : DecodeError), s.host = [] → s.phase ≠ .idle → decodeWord s.latch.cmd = .error e →
    step s = .next (ended s 4)) ∧
  (∀ s : State, s.host = [] → s.phase = .idle → step s = .next s) ∧
  (∀ (s : State) (e : HostEvent) (rest : List HostEvent), s.host = e :: rest → e ≠ .pass →
    step s = hostAct e { s with host := rest })

/-- 42_dispatch.md R190: what a CMD write does in one step, and that BUSY then reads 1 until completion (or reset,
70_reset_and_hazards.md R261). -/
def Obligations.CommandStart : Prop :=
  (∀ (s : State) (w : Word) (rest : List HostEvent), s.phase = .idle → s.busy = false →
    s.host = cmdWrite w :: rest →
    step s = .next { s with
      cmd := w
      latch := { cmd := w, srcAddr := s.srcAddr, srcLen := s.srcLen, dstAddr := s.dstAddr, dstLen := s.dstLen }
      status := 0x00000001#32
      errExpected := 0
      errActual := 0
      phase := .check
      sched := []
      idx := 0
      host := rest }) ∧
  (∀ s t : State, s.phase ≠ .idle → s.status = 0x00000001#32 → step s = .next t →
    t.status = 0x00000001#32 ∨ (t.phase = .idle ∧ busyBit t.status = false ∧ doneBit t.status = true) ∨
    ∃ rest, s.host = .reset :: rest)

/-- 42_dispatch.md R196: a step of the engine that ends a command writes STATUS with a code from 0 to 5, DONE = 1 and
BUSY = 0, and empties the sequencing state; a step that does not end it leaves STATUS alone. -/
def Obligations.CompletionWritesStatus : Prop :=
  ∀ (i : Instr) (s t : State), s.phase ≠ .idle → exec i s = .next t →
    (t.phase = .idle ∧ t.sched = [] ∧ t.idx = 0 ∧ ∃ c : Nat, c ≤ 5 ∧ t.status = BitVec.ofNat 32 (16 * c + 2)) ∨
    (t.phase = .run ∧ t.status = s.status)

/-! ## NOP and the table reads -/

/-- Derived from 42_dispatch.md R208. That LATCH holds the snapshot once the block is idle again is the model's choice
(log 4). -/
def Obligations.NopCompletes : Prop :=
  (∀ s : State, s.phase = .check → exec .nop s = .next (ended s 0)) ∧
  decodeWord 0x00000000#32 = .ok .nop ∧
  (∀ (p : Params) (w : Word), opField w = 0x00#8 → w ≠ 0 → illegalWord p w = true) ∧
  (∀ (s : State) (rest : List HostEvent), s.phase = .idle → s.busy = false →
    s.host = cmdWrite 0x00000000#32 :: .pass :: rest →
    runSteps 2 s = .next { ended s 0 with
      cmd := 0, errExpected := 0, errActual := 0, latch := snapshot s 0, host := rest })

/-- Derived from 40_encoder.md R135, with the entries of R120 said as R123 says them: 0x30 + n up to 9, 0x57 + n above.
The ASCII values are presumed (log 14), and that LATCH holds the snapshot once the block is idle again is the model's
choice (log 4). -/
def Obligations.LutHexReadsHexLut : Prop :=
  (∀ s : State, s.phase = .check →
    exec .lutHex s = .next { ended s 0 with
      result :=
        if s.arg.toNat % 16 ≤ 9 then BitVec.ofNat 32 (0x30 + s.arg.toNat % 16)
        else BitVec.ofNat 32 (0x57 + s.arg.toNat % 16) }) ∧
  decodeWord 0x00000031#32 = .ok .lutHex ∧
  (∀ (p : Params) (w : Word), opField w = 0x31#8 → w ≠ 0x00000031#32 → illegalWord p w = true) ∧
  (∀ (s : State) (rest : List HostEvent), s.phase = .idle → s.busy = false →
    s.host = cmdWrite 0x00000031#32 :: .pass :: rest →
    runSteps 2 s = .next { ended s 0 with
      cmd := 0x00000031#32, errExpected := 0, errActual := 0, latch := snapshot s 0x00000031#32, host := rest
      result :=
        if s.arg.toNat % 16 ≤ 9 then BitVec.ofNat 32 (0x30 + s.arg.toNat % 16)
        else BitVec.ofNat 32 (0x57 + s.arg.toNat % 16) })

/-- Derived from 41_decoder.md R167, with the entries of R150. The ASCII values are presumed (log 14), and that LATCH
holds the snapshot once the block is idle again is the model's choice (log 4). -/
def Obligations.LutNibReadsNibLut : Prop :=
  (∀ s : State, s.phase = .check →
    exec .lutNib s = .next { ended s 0 with
      result :=
        if 0x30 ≤ s.arg.toNat % 256 ∧ s.arg.toNat % 256 ≤ 0x39 then BitVec.ofNat 32 (s.arg.toNat % 256 - 0x30)
        else if 0x41 ≤ s.arg.toNat % 256 ∧ s.arg.toNat % 256 ≤ 0x46 then BitVec.ofNat 32 (s.arg.toNat % 256 - 0x37)
        else if 0x61 ≤ s.arg.toNat % 256 ∧ s.arg.toNat % 256 ≤ 0x66 then BitVec.ofNat 32 (s.arg.toNat % 256 - 0x57)
        else 0x000000FF#32 }) ∧
  decodeWord 0x00000032#32 = .ok .lutNib ∧
  (∀ (p : Params) (w : Word), opField w = 0x32#8 → w ≠ 0x00000032#32 → illegalWord p w = true) ∧
  (∀ (s : State) (rest : List HostEvent), s.phase = .idle → s.busy = false →
    s.host = cmdWrite 0x00000032#32 :: .pass :: rest →
    runSteps 2 s = .next { ended s 0 with
      cmd := 0x00000032#32, errExpected := 0, errActual := 0, latch := snapshot s 0x00000032#32, host := rest
      result :=
        if 0x30 ≤ s.arg.toNat % 256 ∧ s.arg.toNat % 256 ≤ 0x39 then BitVec.ofNat 32 (s.arg.toNat % 256 - 0x30)
        else if 0x41 ≤ s.arg.toNat % 256 ∧ s.arg.toNat % 256 ≤ 0x46 then BitVec.ofNat 32 (s.arg.toNat % 256 - 0x37)
        else if 0x61 ≤ s.arg.toNat % 256 ∧ s.arg.toNat % 256 ≤ 0x66 then BitVec.ofNat 32 (s.arg.toNat % 256 - 0x57)
        else 0x000000FF#32 })

/-! ## The CHECK step of each command -/

/-- 40_encoder.md R132, its pseudocode up to the schedule; LATCH after a completion is the model's choice (log 4). -/
def Obligations.EncodeCheckStep : Prop :=
  ∀ (s : State) (n a d : Nat), s.phase = .check → s.latch.srcLen.toNat = n → s.latch.srcAddr.toNat = a →
    s.latch.dstAddr.toNat = d →
    exec .encode s = .next (
      if n > 2 ^ 31 - 1 ∨ a + n > 2 ^ s.params.aw then ended s 5
      else if d + 2 * n > 2 ^ s.params.aw ∨ (0 < n ∧ a < d + 2 * n ∧ d < a + n) then
        ended { s with dstLen := BitVec.ofNat 32 (2 * n) } 5
      else if n = 0 then ended { s with dstLen := 0 } 0
      else { s with
        dstLen := BitVec.ofNat 32 (2 * n), sched := schedule n s.params.widths 1, idx := 0, phase := .run })

/-- 40_encoder.md R131 and R134, their pseudocode up to the schedule; ENC_SCALAR schedules units only. LATCH
after a completion is the model's choice (log 4). -/
def Obligations.EncodeToBufCheckStep : Prop :=
  ∀ (s : State) (n a d m : Nat), s.phase = .check → s.latch.srcLen.toNat = n → s.latch.srcAddr.toNat = a →
    s.latch.dstAddr.toNat = d → s.latch.dstLen.toNat = m →
    ∀ i sched, (i, sched) ∈ [(Instr.encodeToBuf, schedule n s.params.widths 1),
        (Instr.encScalar, (List.range n).map Item.unit)] →
      exec i s = .next (
        if n > 2 ^ 31 - 1 ∨ a + n > 2 ^ s.params.aw then ended s 5
        else if m ≠ 2 * n then
          ended { s with errExpected := BitVec.ofNat 32 (2 * n), errActual := s.latch.dstLen } 1
        else if d + 2 * n > 2 ^ s.params.aw ∨ (0 < n ∧ a < d + 2 * n ∧ d < a + n) then ended s 5
        else if n = 0 then ended s 0
        else { s with sched := sched, idx := 0, phase := .run })

/-- 41_decoder.md R164, its pseudocode up to the schedule; LATCH after a completion is the model's choice (log 4). -/
def Obligations.DecodeCheckStep : Prop :=
  ∀ (s : State) (n a d : Nat), s.phase = .check → s.latch.srcLen.toNat = n → s.latch.srcAddr.toNat = a →
    s.latch.dstAddr.toNat = d →
    exec .decode s = .next (
      if a + n > 2 ^ s.params.aw then ended s 5
      else if n % 2 = 1 then ended s 2
      else if d + n / 2 > 2 ^ s.params.aw ∨ (0 < n ∧ a < d + n / 2 ∧ d < a + n) then
        ended { s with dstLen := BitVec.ofNat 32 (n / 2) } 5
      else if n = 0 then ended { s with dstLen := 0 } 0
      else { s with
        dstLen := BitVec.ofNat 32 (n / 2), sched := schedule n s.params.widths 2, idx := 0, phase := .run })

/-- 41_decoder.md R163 and R166, their pseudocode up to the schedule; DEC_SCALAR schedules units only. LATCH
after a completion is the model's choice (log 4). -/
def Obligations.DecodeToBufCheckStep : Prop :=
  ∀ (s : State) (n a d m : Nat), s.phase = .check → s.latch.srcLen.toNat = n → s.latch.srcAddr.toNat = a →
    s.latch.dstAddr.toNat = d → s.latch.dstLen.toNat = m →
    ∀ i sched, (i, sched) ∈ [(Instr.decodeToBuf, schedule n s.params.widths 2),
        (Instr.decScalar, (List.range (n / 2)).map (fun k => Item.unit (2 * k)))] →
      exec i s = .next (
        if a + n > 2 ^ s.params.aw then ended s 5
        else if n % 2 = 1 then ended s 2
        else if m ≠ n / 2 then
          ended { s with errExpected := BitVec.ofNat 32 (n / 2), errActual := s.latch.dstLen } 1
        else if d + n / 2 > 2 ^ s.params.aw ∨ (0 < n ∧ a < d + n / 2 ∧ d < a + n) then ended s 5
        else if n = 0 then ended s 0
        else { s with sched := sched, idx := 0, phase := .run })

/-- 40_encoder.md R133 and 41_decoder.md R165, their pseudocode up to the schedule; LATCH after a completion is the
model's choice (log 4). -/
def Obligations.ChunkCheckStep : Prop :=
  ∀ (s : State) (wsel : BitVec 4) (w a d : Nat), s.phase = .check → 2 ^ wsel.toNat = w → s.latch.srcAddr.toNat = a →
    s.latch.dstAddr.toNat = d →
    ∀ i dstlen, (i, dstlen) ∈ [(Instr.encChunk wsel, 2 * w), (Instr.decChunk wsel, w / 2)] →
      exec i s = .next (
        if w ∉ s.params.widths then ended s 4
        else if a + w > 2 ^ s.params.aw then ended s 5
        else if d + dstlen > 2 ^ s.params.aw ∨ (0 < dstlen ∧ a < d + dstlen ∧ d < a + w) then ended s 5
        else { s with sched := [Item.vec 0 w], idx := 0, phase := .run })

/-! ## The RUN step -/

/-- 40_encoder.md R128, 42_dispatch.md R195: an item of an encode command writes ENC of the bytes it reads, in every
kernel family. LATCH after a completion is the model's choice (log 4). -/
def Obligations.EncodeRunStep : Prop :=
  ∀ (i : Instr) (s : State) (item : Item) (v : List Byte), i.encodes = true → s.phase = .run →
    s.sched[s.idx]? = some item →
    holdsBytes s (s.latch.srcAddr.toNat + item.offset) (item.count 1) v →
    s.latch.dstAddr.toNat + 2 * item.offset + 2 * item.count 1 ≤ s.memTop →
    exec i s = .next (itemDone
      { s with mem := s.mem.writeBytes (s.latch.dstAddr.toNat + 2 * item.offset) (encBytes v) })

/-- 41_decoder.md R162, 42_dispatch.md R195, R202: an item of a decode command that reads valid characters writes one
byte for each pair, in every kernel family. LATCH after a completion is the model's choice (log 4). -/
def Obligations.DecodeRunStepValid : Prop :=
  ∀ (i : Instr) (s : State) (item : Item) (v out : List Byte), i.decodes = true → s.phase = .run →
    s.sched[s.idx]? = some item →
    holdsBytes s (s.latch.srcAddr.toNat + item.offset) (item.count 2) v → decChars v = some out →
    s.latch.dstAddr.toNat + item.offset / 2 + out.length ≤ s.memTop →
    exec i s = .next (itemDone
      { s with mem := s.mem.writeBytes (s.latch.dstAddr.toNat + item.offset / 2) out })

/-- 42_dispatch.md R195, 20_memory.md R83: an item of a decode command that reads an invalid character writes nothing
and the command completes with INVALID_CHARACTER at once; the multi-item commands leave the whole destination region
Undef, DEC_CHUNK leaves it unchanged. LATCH after a completion is the model's choice (log 4). -/
def Obligations.DecodeRunStepInvalid : Prop :=
  ∀ (i : Instr) (s : State) (item : Item) (v : List Byte), i.decodes = true → s.phase = .run →
    s.sched[s.idx]? = some item → item.count 2 % 2 = 0 →
    holdsBytes s (s.latch.srcAddr.toNat + item.offset) (item.count 2) v → (∃ c ∈ v, validChar c = false) →
    ∃ t : State, exec i s = .next t ∧ t = { ended s 3 with mem := t.mem } ∧
      (i.isChunk = true → t.mem = s.mem) ∧
      (i.isChunk = false → ∀ x : Nat, t.mem.read x =
        if s.latch.dstAddr.toNat ≤ x ∧ x < s.latch.dstAddr.toNat + s.latch.srcLen.toNat / 2 then none
        else s.mem.read x)

/-- 20_memory.md R75: a RUN step that reads an Undef source byte stops with the fault UndefRead. -/
def Obligations.UndefinedSourceFaults : Prop :=
  ∀ (i : Instr) (s : State) (item : Item) (u x : Nat),
    (i.encodes = true ∧ u = 1 ∨ i.decodes = true ∧ u = 2) → s.phase = .run → s.sched[s.idx]? = some item →
    s.latch.srcAddr.toNat + item.offset + item.count u ≤ s.memTop →
    inRegion x (s.latch.srcAddr.toNat + item.offset) (item.count u) = true → s.mem.read x = none →
    exec i s = .fault .undefRead

/-! ## Whole commands -/

/-- 40_encoder.md R130, R136 and 42_dispatch.md R206, which the spec derives: an encode command whose checks pass takes
1 + len(SCHED) engine steps, completes with NONE, and leaves ENC(src) in the destination and every other byte alone.
LATCH after completion is the model's choice (log 4). -/
def Obligations.EncodeCommandResult : Prop :=
  ∀ (s : State) (i : Instr) (q : Quantities) (src : List Byte), s.params.wf = true → s.host = [] →
    s.phase = .check → decodeWord s.latch.cmd = .ok i → i.wf s.params = true → i.encodes = true →
    quantitiesOf s.params s.latch i = some q → checksPass q s = true →
    s.mem.readBytes s.latch.srcAddr.toNat q.srcLen = some src →
    ∃ t : State, runSteps (1 + q.sched.length) s = .next t ∧
      t.status = 0x00000002#32 ∧ t.phase = .idle ∧ t.sched = [] ∧ t.idx = 0 ∧
      t.mem.readBytes s.latch.dstAddr.toNat (2 * src.length) = some (encBytes src) ∧
      (∀ x, inRegion x s.latch.dstAddr.toNat (2 * src.length) = false → t.mem.read x = s.mem.read x) ∧
      sameOperands s t ∧ t.errExpected = s.errExpected ∧ t.errActual = s.errActual ∧ t.result = s.result ∧
      t.dstLen = if i = .encode then BitVec.ofNat 32 (2 * src.length) else s.dstLen

/-- 41_decoder.md R168, which the spec derives: a decode command whose checks pass and whose source holds only
characters of the hex alphabet completes with NONE and leaves one byte for each pair, and every other byte alone. LATCH
after completion is the model's choice (log 4). -/
def Obligations.DecodeCommandAccepts : Prop :=
  ∀ (s : State) (i : Instr) (q : Quantities) (src : List Byte), s.params.wf = true → s.host = [] →
    s.phase = .check → decodeWord s.latch.cmd = .ok i → i.wf s.params = true → i.decodes = true →
    quantitiesOf s.params s.latch i = some q → checksPass q s = true →
    s.mem.readBytes s.latch.srcAddr.toNat q.srcLen = some src → (∀ c ∈ src, validChar c = true) →
    ∃ (t : State) (out : List Byte), runSteps (1 + q.sched.length) s = .next t ∧
      t.status = 0x00000002#32 ∧ t.phase = .idle ∧ t.sched = [] ∧ t.idx = 0 ∧
      decChars src = some out ∧ 2 * out.length = src.length ∧
      t.mem.readBytes s.latch.dstAddr.toNat (src.length / 2) = some out ∧
      (∀ x, inRegion x s.latch.dstAddr.toNat (src.length / 2) = false → t.mem.read x = s.mem.read x) ∧
      sameOperands s t ∧ t.errExpected = s.errExpected ∧ t.errActual = s.errActual ∧ t.result = s.result ∧
      t.dstLen = if i = .decode then BitVec.ofNat 32 (src.length / 2) else s.dstLen

/-- 41_decoder.md R169 and 20_memory.md R83: a decode command whose checks pass and whose source holds a character
outside the hex alphabet completes with INVALID_CHARACTER in every kernel family and for every set of widths; the
destination is Undef (DEC_CHUNK: unchanged) and every other byte is unchanged. LATCH after completion is the model's
choice (log 4). -/
def Obligations.DecodeCommandRejects : Prop :=
  ∀ (s : State) (i : Instr) (q : Quantities) (src : List Byte), s.params.wf = true → s.host = [] →
    s.phase = .check → decodeWord s.latch.cmd = .ok i → i.wf s.params = true → i.decodes = true →
    quantitiesOf s.params s.latch i = some q → checksPass q s = true →
    s.mem.readBytes s.latch.srcAddr.toNat q.srcLen = some src → (∃ c ∈ src, validChar c = false) →
    ∃ (k : Nat) (t : State), k ≤ 1 + q.sched.length ∧ runSteps k s = .next t ∧
      t.status = 0x00000032#32 ∧ t.phase = .idle ∧ t.sched = [] ∧ t.idx = 0 ∧
      (∀ x, inRegion x s.latch.dstAddr.toNat (src.length / 2) = true →
        t.mem.read x = if i.isChunk then s.mem.read x else none) ∧
      (∀ x, inRegion x s.latch.dstAddr.toNat (src.length / 2) = false → t.mem.read x = s.mem.read x) ∧
      sameOperands s t ∧ t.errExpected = s.errExpected ∧ t.errActual = s.errActual ∧ t.result = s.result ∧
      t.dstLen = if i = .decode then BitVec.ofNat 32 (src.length / 2) else s.dstLen

/-- 42_dispatch.md R205: for the same command word (not a chunk command), the same registers and the same memory, two
blocks of equal address width end the command with the same code, registers and memory, whatever their kernel family
and widths. That LATCH is the same once both are idle is the model's choice (log 4). -/
def Obligations.FamilyInvariance : Prop :=
  ∀ (s : State) (p : Params) (i : Instr), s.params.wf = true → p.wf = true → p.aw = s.params.aw → s.host = [] →
    s.phase = .check → decodeWord s.latch.cmd = .ok i → i.isChunk = false →
    (∀ q, quantitiesOf s.params s.latch i = some q → checksPass q s = true → sourceDefined q s = true) →
    ∃ (k k' : Nat) (t t' : State), runSteps k s = .next t ∧
      runSteps k' { s with params := p } = .next t' ∧
      t.phase = .idle ∧ t'.phase = .idle ∧ (∀ x, t'.mem.read x = t.mem.read x) ∧
      t' = { t with params := p, mem := t'.mem }

/-- 40_encoder.md R137, which the spec derives: DECODE applied to the output of ENCODE, with regions in range that do
not overlap, completes with NONE and yields the bytes encoded. -/
def Obligations.EncodeThenDecode : Prop :=
  ∀ (s : State) (q : Quantities) (src : List Byte) (e : Word), s.params.wf = true → s.host = [] →
    s.phase = .check → decodeWord s.latch.cmd = .ok .encode → quantitiesOf s.params s.latch .encode = some q →
    checksPass q s = true → s.mem.readBytes s.latch.srcAddr.toNat q.srcLen = some src →
    e.toNat + src.length ≤ s.memTop →
    overlap s.latch.dstAddr.toNat (2 * src.length) e.toNat src.length = false →
    ∃ (k k' : Nat) (t u : State), runSteps k s = .next t ∧ t.status = 0x00000002#32 ∧
      runSteps k'
        (startCommand { t with srcAddr := s.latch.dstAddr, srcLen := t.dstLen, dstAddr := e } 0x00000003#32) = .next u ∧
      u.status = 0x00000002#32 ∧ u.mem.readBytes e.toNat src.length = some src

/-- 42_dispatch.md R206, R207: from every state of the invariant the command in progress ends within the steps left,
or the run stops at an Undef source byte. -/
def Obligations.CommandsTerminate : Prop :=
  ∀ s : State, Inv s → s.host = [] →
    (∃ t : State, runSteps (stepsLeft s) s = .next t ∧ t.phase = .idle) ∨
    runSteps (stepsLeft s) s = .fault .undefRead

/-- 30_encoding.md R109 and log 16: `hex.wait` ends, with BUSY = 0 in the word it read, or the run stops at an Undef
source byte. -/
def Obligations.WaitEnds : Prop :=
  ∀ (s : State) (rest : List HostEvent), Inv s → s.host = hexWait ++ rest →
    ∃ k : Nat, (∃ t : State, runSteps k s = .next t ∧ t.host = rest ∧ t.phase = .idle ∧
      busyBit t.hostData = false ∧ t.hostData = t.status) ∨
      runSteps k s = .fault .undefRead

/-! ## The register port -/

/-- 10_state.md R51 with the map of R31: an aligned 32-bit read returns the current value, whether or not a command is
in progress, and changes nothing. -/
def Obligations.RegisterReads : Prop :=
  ∀ (s : State) (rest : List HostEvent) (offset : BitVec 8) (value : Word),
    ((offset, value) ∈ [(0x00#8, s.params.idValue), (0x04#8, capsWord s.params), (0x08#8, s.cmd), (0x0C#8, s.status),
        (0x10#8, s.srcAddr), (0x14#8, s.srcLen), (0x18#8, s.dstAddr), (0x1C#8, s.dstLen), (0x20#8, s.errExpected),
        (0x24#8, s.errActual), (0x28#8, s.arg), (0x2C#8, s.result)]) →
    s.host = .regRead offset 4 :: rest → step s = .next { s with host := rest, hostData := value }

/-- 10_state.md R44: reserved offsets read 0 and ignore writes at all times; read-only registers ignore writes while
BUSY = 0. -/
def Obligations.ReservedAndReadOnly : Prop :=
  (∀ (s : State) (rest : List HostEvent) (offset : BitVec 8), 0x30 ≤ offset.toNat → offset.toNat % 4 = 0 →
    (s.host = .regRead offset 4 :: rest → step s = .next { s with host := rest, hostData := 0 }) ∧
    (∀ w : Word, s.host = .regWrite offset 4 w :: rest → step s = .next { s with host := rest })) ∧
  (∀ (s : State) (rest : List HostEvent) (offset : BitVec 8) (w : Word),
    offset ∈ [0x00#8, 0x04#8, 0x0C#8, 0x20#8, 0x24#8, 0x2C#8] → s.busy = false →
    s.host = .regWrite offset 4 w :: rest → step s = .next { s with host := rest })

/-- 10_state.md R52, R36, R38: a write to an operand register while BUSY = 0 stores the value, an address modulo
2 ^ AW, and has no other effect. -/
def Obligations.OperandWrites : Prop :=
  ∀ (s : State) (rest : List HostEvent) (w : Word), s.params.wf = true → s.busy = false →
    (s.host = .regWrite 0x10#8 4 w :: rest →
      step s = .next { s with host := rest, srcAddr := BitVec.ofNat 32 (w.toNat % 2 ^ s.params.aw) }) ∧
    (s.host = .regWrite 0x14#8 4 w :: rest → step s = .next { s with host := rest, srcLen := w }) ∧
    (s.host = .regWrite 0x18#8 4 w :: rest →
      step s = .next { s with host := rest, dstAddr := BitVec.ofNat 32 (w.toNat % 2 ^ s.params.aw) }) ∧
    (s.host = .regWrite 0x1C#8 4 w :: rest → step s = .next { s with host := rest, dstLen := w }) ∧
    (s.host = .regWrite 0x28#8 4 w :: rest → step s = .next { s with host := rest, arg := w })

/-- 10_state.md R53: an aligned write to any offset from 0x00 to 0x2C while BUSY = 1 is the fault HostProtocol, a write
to a reserved offset is ignored at all times. -/
def Obligations.BusyRegisterWrites : Prop :=
  ∀ (s : State) (rest : List HostEvent) (offset : BitVec 8) (w : Word), offset.toNat % 4 = 0 →
    s.host = .regWrite offset 4 w :: rest →
    (offset.toNat ≤ 0x2C → s.busy = true → step s = .fault .hostProtocol) ∧
    (0x30 ≤ offset.toNat → step s = .next { s with host := rest })

/-- 10_state.md R31: an access that is not a naturally aligned 32-bit access is the fault RegAccess (log 10: whatever
else is wrong with it). -/
def Obligations.UnalignedRegisterAccess : Prop :=
  ∀ (s : State) (rest : List HostEvent) (offset : BitVec 8) (size : Nat) (w : Word),
    (size ≠ 4 ∨ offset.toNat % 4 ≠ 0) →
    (s.host = .regRead offset size :: rest → step s = .fault .regAccess) ∧
    (s.host = .regWrite offset size w :: rest → step s = .fault .regAccess)

/-- 10_state.md R33: the fields of CAPS, for every admissible set of parameters. -/
def Obligations.CapsFields : Prop :=
  ∀ p : Params, p.wf = true →
    (capsWord p).extractLsb' 0 2 = familyCode p.family ∧ (capsWord p).extractLsb' 2 6 = 0 ∧
    ((capsWord p).extractLsb' 8 6).toNat = p.aw ∧ (capsWord p).extractLsb' 14 2 = 0 ∧
    (capsWord p).getLsbD 16 = false ∧
    (∀ k, 1 ≤ k → k ≤ 15 → ((capsWord p).getLsbD (16 + k) = true ↔ 2 ^ k ∈ p.widths))

/-! ## The host and the data memory -/

/-- 20_memory.md R72, for every byte of the data memory that 70_reset_and_hazards.md R271 and R273 leave to the host:
every byte while BUSY = 0, the bytes outside the active regions while BUSY = 1. -/
def Obligations.HostMemoryAccess : Prop :=
  ∀ (s : State) (rest : List HostEvent) (a : Word), a.toNat < s.memTop →
    s.busy = false ∨ (inActiveSource s a.toNat = false ∧ inActiveDest s a.toNat = false) →
    (∀ b : Byte, s.host = .memWrite a b :: rest → ∃ t : State, step s = .next t ∧
      t = { s with host := rest, mem := t.mem } ∧ t.mem.read a.toNat = some b ∧
      ∀ x, x ≠ a.toNat → t.mem.read x = s.mem.read x) ∧
    (∀ b : Byte, s.host = .memRead a :: rest → s.mem.read a.toNat = some b →
      step s = .next { s with host := rest, hostData := b.setWidth 32 }) ∧
    (s.host = .memRead a :: rest → s.mem.read a.toNat = none → step s = .fault .hostUndefRead)

/-- Derived from 70_reset_and_hazards.md R271, R273 and 20_memory.md R91: while BUSY = 1 a host access to the active destination
region, another agent's write to it and a host write to the active source region are the fault HostProtocol; a host
read of a source byte outside the destination returns the unchanged byte. What is active before the CHECK step has run,
and the fault for a byte in both regions then, is the model's choice (log 12). -/
def Obligations.DutiesWhileBusy : Prop :=
  ∀ (s : State) (rest : List HostEvent) (a : Word) (b : Byte), s.busy = true → a.toNat < s.memTop →
    (inActiveDest s a.toNat = true →
      (s.host = .memRead a :: rest → step s = .fault .hostProtocol) ∧
      (s.host = .memWrite a b :: rest → step s = .fault .hostProtocol) ∧
      (s.host = .otherWrite a b :: rest → step s = .fault .hostProtocol)) ∧
    (inActiveSource s a.toNat = true →
      (s.host = .memWrite a b :: rest → step s = .fault .hostProtocol) ∧
      (inActiveDest s a.toNat = false → s.mem.read a.toNat = some b → s.host = .memRead a :: rest →
        step s = .next { s with host := rest, hostData := b.setWidth 32 }))

/-- 20_memory.md R86 item 4: a write by the host outside both regions while BUSY = 1 commutes with the
engine's step. -/
def Obligations.OutsideWritesCommute : Prop :=
  ∀ (s t : State) (a : Word) (b : Byte), Inv s → s.host = [] → s.phase ≠ .idle → a.toNat < s.memTop →
    inActiveSource s a.toNat = false → inActiveDest s a.toNat = false → step s = .next t →
    (∀ u : State, step { t with host := [.memWrite a b] } = .next u →
      runSteps 2 { s with host := [.memWrite a b, .pass] } = .next u) ∧
    ∃ u : State, runSteps 2 { s with host := [.memWrite a b, .pass] } = .next u

/-! ## Reset -/

/-- 10_state.md R54: the values after reset, for every block; the ID and CAPS registers read their constants. -/
def Obligations.ResetValues : Prop :=
  ∀ p : Params, (State.resetWith p).cmd = 0 ∧ (State.resetWith p).status = 0 ∧ (State.resetWith p).srcAddr = 0 ∧
    (State.resetWith p).srcLen = 0 ∧ (State.resetWith p).dstAddr = 0 ∧ (State.resetWith p).dstLen = 0 ∧
    (State.resetWith p).errExpected = 0 ∧ (State.resetWith p).errActual = 0 ∧ (State.resetWith p).arg = 0 ∧
    (State.resetWith p).result = 0 ∧ (State.resetWith p).phase = .idle ∧ (State.resetWith p).sched = [] ∧
    (State.resetWith p).idx = 0 ∧ (∀ x, (State.resetWith p).mem.read x = none) ∧
    regValue (State.resetWith p) 0x00#8 = p.idValue ∧ regValue (State.resetWith p) 0x04#8 = capsWord p ∧
    State.reset = State.resetWith Params.default

/-- Derived from 70_reset_and_hazards.md R260 to R262: asserting reset puts every register and the sequencing state to its reset
value in one step; a command in progress is abandoned, its destination region is Undef, and every other byte of the
data memory, like the whole of it when no command is in progress, keeps its value. Which region that is before the CHECK
step has run (an odd decode length halved downwards, none for an illegal word), and that a byte also in the source
region becomes Undef then, is the model's choice (log 12). -/
def Obligations.ResetAbandonsTheCommand : Prop :=
  ∀ (s : State) (rest : List HostEvent), s.host = .reset :: rest →
    ∃ t : State, step s = .next t ∧ t.params = s.params ∧ t.host = rest ∧ t.cmd = 0 ∧ t.status = 0 ∧ t.srcAddr = 0 ∧
      t.srcLen = 0 ∧ t.dstAddr = 0 ∧ t.dstLen = 0 ∧ t.errExpected = 0 ∧ t.errActual = 0 ∧ t.arg = 0 ∧ t.result = 0 ∧
      t.phase = .idle ∧ t.sched = [] ∧ t.idx = 0 ∧
      (s.busy = false → t.mem = s.mem) ∧
      (s.busy = true → ∀ x, t.mem.read x = if inActiveDest s x = true then none else s.mem.read x)

/-! ## Invariants -/

/-- The reset state of every block with admissible parameters meets the invariant. -/
def Obligations.ResetMeetsInv : Prop :=
  (∀ p : Params, p.wf = true → Inv (State.resetWith p)) ∧ Inv State.reset

/-- 10_state.md R35, R36, R38, R40, R41, R43, R47: every step, of the engine or of any agent outside it, keeps the
invariant. -/
def Obligations.StepKeepsInv : Prop :=
  ∀ s t : State, Inv s → step s = .next t → Inv t

/-- 10_state.md R35, R47 and 60_exceptions.md R230: what the invariant says a host reads in STATUS. -/
def Obligations.StatusFields : Prop :=
  ∀ s : State, Inv s →
    (busyBit s.status = true ↔ s.phase ≠ .idle) ∧ ¬(busyBit s.status = true ∧ doneBit s.status = true) ∧
    (busyBit s.status = true → errField s.status = 0) ∧ (errField s.status).toNat ≤ 5 ∧
    s.status.extractLsb' 2 2 = 0 ∧ s.status.extractLsb' 8 24 = 0

/-- 42_dispatch.md R204, 10_state.md R32, R33: no step changes what a block was built with, so ID and CAPS never
change. -/
def Obligations.BuildParametersNeverChange : Prop :=
  ∀ s t : State, step s = .next t →
    t.params = s.params ∧ regValue t 0x00#8 = regValue s 0x00#8 ∧ regValue t 0x04#8 = regValue s 0x04#8

/-- 60_exceptions.md R236 and 42_dispatch.md R207: from a state of the invariant the engine stops only at an Undef
byte of its source region, and no step is ever refused. -/
def Obligations.EngineStopsOnlyAtUndefinedSource : Prop :=
  (∀ (s : State) (f : Fault), Inv s → engineStep s = .fault f →
    f = .undefRead ∧ s.phase = .run ∧ ∃ x, inActiveSource s x = true ∧ s.mem.read x = none) ∧
  (∀ (s : State) (r : Refusal), step s ≠ .refused r)

/-- 20_memory.md R84, which the spec derives: no engine step, whatever its outcome, changes a byte outside the
destination region of the command in progress. -/
def Obligations.EngineWritesOnlyDestination : Prop :=
  ∀ s t : State, Inv s → engineStep s = .next t → ∀ x, inActiveDest s x = false → t.mem.read x = s.mem.read x

/-- 20_memory.md R74: an engine step depends on no byte outside the source region: over memories that agree there, it
stops alike, or goes on to states that differ at most in memory, and every byte it changes gets the same value. -/
def Obligations.EngineReadsOnlySource : Prop :=
  ∀ (s : State) (m : Memory), Inv s → (∀ x, inActiveSource s x = true → m.read x = s.mem.read x) →
    (∀ f : Fault, engineStep s = .fault f → engineStep { s with mem := m } = .fault f) ∧
    (∀ t : State, engineStep s = .next t → ∃ t' : State, engineStep { s with mem := m } = .next t' ∧
      t' = { t with mem := t'.mem } ∧
      ∀ x, t'.mem.read x = t.mem.read x ∨ (t.mem.read x = s.mem.read x ∧ t'.mem.read x = m.read x))

/-! ## Frames -/

/-- 10_state.md R45: no command's step changes a register its row does not name: the operand registers, CMD, ARG and
LATCH never, DST_LEN only ENCODE and DECODE, RESULT only the table reads, ERR_EXPECTED and ERR_ACTUAL only the
commands with a length check. LATCH once the command has completed is the model's choice (log 4). -/
def Obligations.RegisterFrame : Prop :=
  ∀ (i : Instr) (s t : State), exec i s = .next t →
    sameOperands s t ∧ (i ≠ .encode → i ≠ .decode → t.dstLen = s.dstLen) ∧
    (i ≠ .lutHex → i ≠ .lutNib → t.result = s.result) ∧
    (i ≠ .encodeToBuf → i ≠ .encScalar → i ≠ .decodeToBuf → i ≠ .decScalar →
      t.errExpected = s.errExpected ∧ t.errActual = s.errActual)

/-- 42_dispatch.md R192: a step of a command outside its RUN phase, and every step of NOP and of the table reads, leaves
the data memory alone. -/
def Obligations.CheckStepLeavesMemory : Prop :=
  ∀ (i : Instr) (s t : State), exec i s = .next t →
    (s.phase ≠ .run ∨ i = .nop ∨ i = .lutHex ∨ i = .lutNib) → t.mem = s.mem

/-- 40_encoder.md R128: a RUN step of an encode command changes no byte outside the 2·W (or 2) bytes its item writes,
and no register but STATUS and the sequencing state. LATCH after a completion is the model's choice (log 4). -/
def Obligations.EncodeRunStepFrame : Prop :=
  ∀ (i : Instr) (s t : State) (item : Item), i.encodes = true → s.phase = .run → s.sched[s.idx]? = some item →
    exec i s = .next t →
    (∀ x, inRegion x (s.latch.dstAddr.toNat + 2 * item.offset) (2 * item.count 1) = false →
      t.mem.read x = s.mem.read x) ∧
    t = { s with mem := t.mem, status := t.status, phase := t.phase, sched := t.sched, idx := t.idx }

/-- 41_decoder.md R162, 20_memory.md R83: a RUN step of a decode command that goes on, or completes with NONE, changes
no byte outside the W/2 (or 1) bytes its item writes; one that completes with INVALID_CHARACTER changes none outside
the destination region, and DEC_CHUNK then none at all; no register but STATUS and the sequencing state changes. LATCH after a
completion is the model's choice (log 4). -/
def Obligations.DecodeRunStepFrame : Prop :=
  ∀ (i : Instr) (s t : State) (item : Item), i.decodes = true → s.phase = .run → s.status = 0x00000001#32 →
    s.sched[s.idx]? = some item → exec i s = .next t →
    (t.status ≠ 0x00000032#32 →
      ∀ x, inRegion x (s.latch.dstAddr.toNat + item.offset / 2) (item.count 2 / 2) = false →
        t.mem.read x = s.mem.read x) ∧
    (t.status = 0x00000032#32 →
      ∀ x, (inRegion x s.latch.dstAddr.toNat (s.latch.srcLen.toNat / 2) = false ∨ i.isChunk = true) →
        t.mem.read x = s.mem.read x) ∧
    t = { s with mem := t.mem, status := t.status, phase := t.phase, sched := t.sched, idx := t.idx }

/-! ## Schedules -/

/-- 42_dispatch.md R200: the scalar fallback, the cascade loop widest first, the overlap tail, and the source offsets an
item processes. The list of widths is WS in descending order. -/
def Obligations.ScheduleFollowsTheCascade : Prop :=
  (∀ (n u : Nat) (ws : List Nat), ws = [] ∨ n < leastWidth ws →
    schedule n ws u = (List.range (n / u)).map (fun k => Item.unit (k * u))) ∧
  (∀ (n u : Nat) (ws : List Nat), ws ≠ [] → leastWidth ws ≤ n →
    schedule n ws u = (cascade n ws 0).1 ++
      (if (cascade n ws 0).2 < n then [Item.vec (n - leastWidth ws) (leastWidth ws)] else [])) ∧
  (∀ (n pos : Nat), cascade n [] pos = ([], pos)) ∧
  (∀ (n w pos : Nat) (ws : List Nat), 0 < w →
    cascade n (w :: ws) pos =
      if w ≤ n - pos then (Item.vec pos w :: (cascade n (w :: ws) (pos + w)).1, (cascade n (w :: ws) (pos + w)).2)
      else cascade n ws pos) ∧
  (∀ o w u : Nat, (Item.vec o w).offset = o ∧ (Item.vec o w).count u = w ∧ (Item.unit o).offset = o ∧
    (Item.unit o).count u = u)

/-- 42_dispatch.md R201 items 1 and 5, which the spec derives: every item lies inside the source, starts at an even
offset for pairs, and every source offset lies in an item. -/
def Obligations.ScheduleCoversTheSource : Prop :=
  ∀ (p : Params) (ws : List Nat) (n u : Nat), p.wf = true → (ws = p.widths ∨ ws = []) → (u = 1 ∨ u = 2) → n % u = 0 →
    (∀ item ∈ schedule n ws u, item.offset + item.count u ≤ n ∧ item.offset % u = 0 ∧ item.count u % u = 0) ∧
    (∀ x, x < n → ∃ item ∈ schedule n ws u, item.offset ≤ x ∧ x < item.offset + item.count u)

/-- 42_dispatch.md R201 items 2 to 4, which the spec derives: units only, from offset 0 on; or chunks only, contiguous
from offset 0 with widths that never increase, followed where they leave a remainder by one overlap chunk of width Wmin
that ends at the source's end. -/
def Obligations.ScheduleShape : Prop :=
  ∀ (p : Params) (n u : Nat), p.wf = true → (u = 1 ∨ u = 2) → n % u = 0 →
    ((p.widths = [] ∨ n < leastWidth p.widths) ∧
      ∀ k, (schedule n p.widths u)[k]? = if k * u < n then some (Item.unit (k * u)) else none) ∨
    (p.widths ≠ [] ∧ leastWidth p.widths ≤ n ∧ ∃ (body : List Nat) (pos : Nat),
      (∀ w ∈ body, w ∈ p.widths) ∧ body.Pairwise (fun v w => w ≤ v) ∧ body.sum = pos ∧ pos ≤ n ∧
      n - pos < leastWidth p.widths ∧
      ∀ k, (schedule n p.widths u)[k]? =
        if k < body.length then (body[k]?).map (fun w => Item.vec (body.take k).sum w)
        else if k = body.length ∧ pos < n then some (Item.vec (n - leastWidth p.widths) (leastWidth p.widths))
        else none)

/-- 42_dispatch.md R198: the overlap predicate, and that two regions overlap iff both are nonempty and they share at
least one address. -/
def Obligations.OverlapIsASharedAddress : Prop :=
  ∀ a la b lb : Nat,
    (overlap a la b lb = true ↔ 0 < la ∧ 0 < lb ∧ a < b + lb ∧ b < a + la) ∧
    (overlap a la b lb = true ↔ 0 < la ∧ 0 < lb ∧ ∃ x, inRegion x a la = true ∧ inRegion x b lb = true)

/-! ## Tables and kernels -/

/-- 40_encoder.md R120, R123 and 41_decoder.md R150, R157: the constant tables, entry by entry. The ASCII values are
presumed (log 14). -/
def Obligations.ConstantTables : Prop :=
  hexLut.length = 16 ∧ nibLut.length = 256 ∧ permLo.length = 64 ∧ permHi.length = 64 ∧
  (∀ n : BitVec 4, biasedAscii n = hexLutAt n ∧
    hexLutAt n = if n.toNat ≤ 9 then BitVec.ofNat 8 (0x30 + n.toNat) else BitVec.ofNat 8 (0x57 + n.toNat)) ∧
  (∀ c : Byte, nibLutAt c =
    if 0x30 ≤ c.toNat ∧ c.toNat ≤ 0x39 then BitVec.ofNat 8 (c.toNat - 0x30)
    else if 0x41 ≤ c.toNat ∧ c.toNat ≤ 0x46 then BitVec.ofNat 8 (c.toNat - 0x37)
    else if 0x61 ≤ c.toNat ∧ c.toNat ≤ 0x66 then BitVec.ofNat 8 (c.toNat - 0x57)
    else 0xFF#8) ∧
  (∀ i : Nat, i < 64 → permLo[i]? = nibLut[i]? ∧ permHi[i]? = nibLut[0x40 + i]?)

/-- 41_decoder.md R151, R152, R158, R172: the three classification methods agree with CLASSIFY on every character, and
no byte from 0x80 on is valid. The ASCII values are presumed (log 14). -/
def Obligations.ClassifiersAgree : Prop :=
  ∀ c : Byte,
    (validChar c = true → laneBias c = (true, nibLutAt c) ∧ (classify c).nibble = some (nibLutAt c)) ∧
    (validChar c = false → (laneBias c).1 = false ∧ nibLutAt c = sentinel) ∧
    permLookup c = nibLutAt c ∧ (0x80 ≤ c.toNat → validChar c = false) ∧
    (validChar c = true ↔ (0x30 ≤ c.toNat ∧ c.toNat ≤ 0x39) ∨ (0x41 ≤ c.toNat ∧ c.toNat ≤ 0x46) ∨
      (0x61 ≤ c.toNat ∧ c.toNat ≤ 0x66))

/-- 40_encoder.md R126, which the spec derives: the vector encode kernel of every family is ENC, and so are the scalar
units. -/
def Obligations.EncodeKernelsAgree : Prop :=
  ∀ (f : Family) (s : List Byte), encVec f s = encBytes s ∧ s.flatMap encUnit = encBytes s

/-- 41_decoder.md R160, R161, which the spec derives: the vector decode kernel of every family and the scalar units
give the same value for a text of whole pairs. -/
def Obligations.DecodeKernelsAgree : Prop :=
  (∀ (f : Family) (s : List Byte), s.length % 2 = 0 → decVec f s = decChars s) ∧
  (∀ ch cl : Byte, (decUnit ch cl).map (fun b => [b]) = decChars [ch, cl])

/-- 40_encoder.md R122 and R129 (which the spec derives): ENC has two characters a byte, the high nibble's first, each
in the lowercase alphabet. The ASCII values are presumed (log 14). -/
def Obligations.EncodeRendering : Prop :=
  ∀ s : List Byte, (encBytes s).length = 2 * s.length ∧
    (∀ i (b : Byte), s[i]? = some b → (encBytes s)[2 * i]? = some (hexLutAt (b.extractLsb' 4 4)) ∧
      (encBytes s)[2 * i + 1]? = some (hexLutAt (b.extractLsb' 0 4))) ∧
    (∀ c ∈ encBytes s, (0x30 ≤ c.toNat ∧ c.toNat ≤ 0x39) ∨ (0x61 ≤ c.toNat ∧ c.toNat ≤ 0x66))

/-- 41_decoder.md R168 and R171: a text has a value iff its length is even and every character is valid, and then byte
i is (nib(t[2i]) << 4) | nib(t[2i+1]). -/
def Obligations.DecodeValue : Prop :=
  ∀ t : List Byte,
    ((∃ out, decChars t = some out) ↔ t.length % 2 = 0 ∧ ∀ c ∈ t, validChar c = true) ∧
    (∀ out, decChars t = some out → 2 * out.length = t.length ∧
      ∀ i (h l : Byte), t[2 * i]? = some h → t[2 * i + 1]? = some l →
        out[i]? = some (BitVec.ofNat 8 (16 * (nibLutAt h).toNat + (nibLutAt l).toNat)))

/-- 20_memory.md R85, which the spec derives from 42_dispatch.md R205: what an item writes is that item's slice of one
result, so items that cover the same position write the same value. -/
def Obligations.ItemsWriteSlices : Prop :=
  (∀ (f : Family) (item : Item) (src : List Byte), item.offset + item.count 1 ≤ src.length →
    encItem f item ((src.drop item.offset).take (item.count 1)) =
      ((encBytes src).drop (2 * item.offset)).take (2 * item.count 1)) ∧
  (∀ (f : Family) (item : Item) (src out : List Byte), item.offset + item.count 2 ≤ src.length →
    item.offset % 2 = 0 → item.count 2 % 2 = 0 → decChars src = some out →
    decItem f item ((src.drop item.offset).take (item.count 2)) =
      some ((out.drop (item.offset / 2)).take (item.count 2 / 2)))
end

