-- ==== Sys2Proof/Laws/Memory.lean ====
section
/-!
SUPPORT. The laws of the data memory: a read after a write, a write or an undefinition leaves every other byte alone,
every operation keeps the canonical form, and memories in canonical form with equal reads are equal.
-/

namespace Sys2Proof.Machine

/-! ## One byte -/

@[simp] theorem Memory.read_write_same (m : Memory) (a : Nat) (b : Byte) : (m.write a b).read a = some b := by
  induction m with
  | nil => simp [Memory.write, Memory.read]
  | cons c m ih =>
    unfold Memory.write
    split
    · simp [Memory.read]
    · split
      · simp [Memory.read]
      · rename_i _ h
        rw [Memory.read, if_neg (fun e => h e.symm)]
        exact ih

theorem Memory.read_write_other (m : Memory) {a x : Nat} (b : Byte) (h : x ≠ a) :
    (m.write a b).read x = m.read x := by
  induction m with
  | nil => simp [Memory.write, Memory.read, Ne.symm h]
  | cons c m ih =>
    unfold Memory.write
    split
    · simp [Memory.read, Ne.symm h]
    · split
      · rename_i _ e
        subst e
        simp [Memory.read, Ne.symm h]
      · simp only [Memory.read]
        split
        · rfl
        · exact ih

theorem Memory.read_write (m : Memory) (a x : Nat) (b : Byte) :
    (m.write a b).read x = if x = a then some b else m.read x := by
  split
  · rename_i h
    subst h
    simp
  · rename_i h
    exact Memory.read_write_other m b h

theorem Memory.read_undefine (m : Memory) (base len x : Nat) :
    (m.undefine base len).read x = if base ≤ x ∧ x < base + len then none else m.read x := by
  induction m with
  | nil => simp [Memory.undefine, Memory.read]
  | cons c m ih =>
    unfold Memory.undefine at ih ⊢
    rw [List.filter_cons]
    split
    · rename_i keep
      simp only [Bool.or_eq_true, decide_eq_true_eq] at keep
      simp only [Memory.read]
      split
      · rename_i e
        subst e
        rw [if_neg (by omega)]
      · exact ih
    · rename_i drop
      simp only [Bool.or_eq_true, decide_eq_true_eq, not_or, not_lt, not_le] at drop
      rw [ih]
      simp only [Memory.read]
      split
      · rfl
      · rw [if_neg (by omega)]

/-! ## A list of bytes -/

/-- What a multi-byte write leaves at an address: element x - addr inside the written bytes, the old byte outside. -/
theorem Memory.read_writeBytes (m : Memory) (addr : Nat) (bs : List Byte) (x : Nat) :
    (m.writeBytes addr bs).read x =
      if addr ≤ x ∧ x < addr + bs.length then bs[x - addr]? else m.read x := by
  induction bs generalizing m addr with
  | nil => simp [Memory.writeBytes]
  | cons b bs ih =>
    rw [Memory.writeBytes, ih, Memory.read_write]
    simp only [List.length_cons]
    by_cases h : x = addr
    · subst h
      rw [if_neg (by omega), if_pos rfl, if_pos (by omega)]
      simp
    · rw [if_neg h]
      by_cases h2 : addr + 1 ≤ x ∧ x < addr + 1 + bs.length
      · rw [if_pos h2, if_pos (by omega)]
        have e : x - addr = (x - (addr + 1)) + 1 := by omega
        rw [e, List.getElem?_cons_succ]
      · rw [if_neg h2, if_neg (by omega)]

/-- A multi-byte read answers exactly when every byte is Def, and then element i is the byte at addr + i. -/
theorem Memory.readBytes_eq_some (m : Memory) (addr n : Nat) (bs : List Byte) :
    m.readBytes addr n = some bs ↔ bs.length = n ∧ ∀ i, i < n → m.read (addr + i) = bs[i]? := by
  induction n generalizing addr bs with
  | zero =>
    rw [Memory.readBytes]
    constructor
    · rintro h
      cases h
      simp
    · rintro ⟨h, -⟩
      rw [List.length_eq_zero_iff.mp h]
  | succ n ih =>
    rw [Memory.readBytes]
    constructor
    · intro h
      split at h
      · rename_i b rest hb hrest
        cases h
        obtain ⟨hl, hr⟩ := (ih (addr + 1) rest).mp hrest
        refine ⟨by simp [hl], ?_⟩
        intro i hi
        cases i with
        | zero => simpa using hb
        | succ i =>
          have := hr i (by omega)
          rw [List.getElem?_cons_succ, ← this]
          congr 1
          omega
      · cases h
    · rintro ⟨hl, hr⟩
      cases bs with
      | nil => simp at hl
      | cons b rest =>
        have h0 := hr 0 (by omega)
        simp only [Nat.add_zero, List.getElem?_cons_zero] at h0
        have hrest : m.readBytes (addr + 1) n = some rest := by
          refine (ih (addr + 1) rest).mpr ⟨by simpa using hl, ?_⟩
          intro i hi
          have := hr (i + 1) (by omega)
          rw [List.getElem?_cons_succ] at this
          rw [← this]
          congr 1
          omega
        rw [h0, hrest]

theorem Memory.readBytes_length {m : Memory} {addr n : Nat} {bs : List Byte} (h : m.readBytes addr n = some bs) :
    bs.length = n := ((Memory.readBytes_eq_some m addr n bs).mp h).1

/-- Two memories that agree on the bytes read give the same bytes. -/
theorem Memory.readBytes_congr {m m' : Memory} {addr n : Nat}
    (h : ∀ x, addr ≤ x → x < addr + n → m.read x = m'.read x) : m.readBytes addr n = m'.readBytes addr n := by
  induction n generalizing addr with
  | zero => rfl
  | succ n ih =>
    rw [Memory.readBytes, Memory.readBytes, h addr (by omega) (by omega),
      ih (fun x h1 h2 => h x (by omega) (by omega))]

/-- A part of a readable region is readable and reads as that part. -/
theorem Memory.readBytes_part {m : Memory} {addr n : Nat} {bs : List Byte} (h : m.readBytes addr n = some bs)
    (o k : Nat) (hk : o + k ≤ n) : m.readBytes (addr + o) k = some ((bs.drop o).take k) := by
  obtain ⟨hl, hr⟩ := (Memory.readBytes_eq_some m addr n bs).mp h
  refine (Memory.readBytes_eq_some m (addr + o) k _).mpr ⟨?_, ?_⟩
  · simp only [List.length_take, List.length_drop, hl]
    omega
  · intro i hi
    rw [List.getElem?_take_of_lt hi, List.getElem?_drop, Nat.add_assoc]
    exact hr (o + i) (by omega)

/-! ## The canonical form -/

/-- The form, said of the head: every later address is above it, and the tail has the form. -/
theorem Memory.wf_cons (c : Host.Cell) (m : Memory) :
    Memory.wf (c :: m) = true ↔ (∀ d ∈ m, c.1 < d.1) ∧ Memory.wf m = true := by
  induction m generalizing c with
  | nil => simp [Memory.wf]
  | cons d m ih =>
    simp only [Memory.wf, Bool.and_eq_true, decide_eq_true_eq]
    constructor
    · rintro ⟨h1, h2⟩
      refine ⟨?_, h2⟩
      intro e he
      rcases List.mem_cons.mp he with rfl | he
      · exact h1
      · exact Nat.lt_trans h1 (((ih d).mp h2).1 e he)
    · rintro ⟨h1, h2⟩
      exact ⟨h1 d (List.mem_cons_self ..), h2⟩

theorem Memory.mem_write {m : Memory} {a : Nat} {b : Byte} {c : Host.Cell} (h : c ∈ m.write a b) :
    c = (a, b) ∨ c ∈ m := by
  induction m with
  | nil => simpa [Memory.write] using h
  | cons d m ih =>
    unfold Memory.write at h
    split at h
    · simpa using h
    · split at h
      · rcases List.mem_cons.mp h with h | h
        · exact .inl h
        · exact .inr (List.mem_cons_of_mem _ h)
      · rcases List.mem_cons.mp h with h | h
        · exact .inr (h ▸ List.mem_cons_self ..)
        · rcases ih h with h | h
          · exact .inl h
          · exact .inr (List.mem_cons_of_mem _ h)

theorem Memory.wf_write {m : Memory} (h : m.wf = true) (a : Nat) (b : Byte) : (m.write a b).wf = true := by
  induction m with
  | nil => rfl
  | cons c m ih =>
    have hc := (Memory.wf_cons c m).mp h
    unfold Memory.write
    split
    · rename_i lt
      refine (Memory.wf_cons _ _).mpr ⟨?_, h⟩
      intro d hd
      rcases List.mem_cons.mp hd with rfl | hd
      · exact lt
      · exact Nat.lt_trans lt (hc.1 d hd)
    · split
      · rename_i e
        exact (Memory.wf_cons _ _).mpr ⟨fun d hd => by simpa [e] using hc.1 d hd, hc.2⟩
      · refine (Memory.wf_cons _ _).mpr ⟨?_, ih hc.2⟩
        intro d hd
        rcases Memory.mem_write hd with rfl | hd
        · simp only
          omega
        · exact hc.1 d hd

theorem Memory.wf_writeBytes {m : Memory} (h : m.wf = true) (addr : Nat) (bs : List Byte) :
    (m.writeBytes addr bs).wf = true := by
  induction bs generalizing m addr with
  | nil => exact h
  | cons b bs ih => exact ih (Memory.wf_write h addr b) (addr + 1)

theorem Memory.wf_undefine {m : Memory} (h : m.wf = true) (base len : Nat) : (m.undefine base len).wf = true := by
  induction m with
  | nil => rfl
  | cons c m ih =>
    have hc := (Memory.wf_cons c m).mp h
    unfold Memory.undefine at ih ⊢
    rw [List.filter_cons]
    split
    · exact (Memory.wf_cons _ _).mpr ⟨fun d hd => hc.1 d (List.mem_of_mem_filter hd), ih hc.2⟩
    · exact ih hc.2

theorem Memory.fits_iff (m : Memory) (aw : Nat) : m.fits aw = true ↔ ∀ c ∈ m, c.1 < 2 ^ aw := by
  simp [Memory.fits, List.all_eq_true]

theorem Memory.fits_write {m : Memory} {aw a : Nat} (h : m.fits aw = true) (ha : a < 2 ^ aw) (b : Byte) :
    (m.write a b).fits aw = true := by
  rw [Memory.fits_iff] at h ⊢
  intro c hc
  rcases Memory.mem_write hc with rfl | hc
  · exact ha
  · exact h c hc

theorem Memory.fits_writeBytes {m : Memory} {aw addr : Nat} {bs : List Byte} (h : m.fits aw = true)
    (ha : addr + bs.length ≤ 2 ^ aw) : (m.writeBytes addr bs).fits aw = true := by
  induction bs generalizing m addr with
  | nil => exact h
  | cons b bs ih =>
    simp only [List.length_cons] at ha
    exact ih (Memory.fits_write h (by omega) b) (by omega)

theorem Memory.fits_undefine {m : Memory} {aw : Nat} (h : m.fits aw = true) (base len : Nat) :
    (m.undefine base len).fits aw = true := by
  rw [Memory.fits_iff] at h ⊢
  exact fun c hc => h c (List.mem_of_mem_filter hc)

/-- A byte whose address is below every listed one is Undef. -/
theorem Memory.read_below {m : Memory} {a : Nat} (h : ∀ c ∈ m, a < c.1) : m.read a = none := by
  induction m with
  | nil => rfl
  | cons c m ih =>
    have hc := h c (List.mem_cons_self ..)
    rw [Memory.read, if_neg (by omega)]
    exact ih (fun d hd => h d (List.mem_cons_of_mem _ hd))

/-- Memories in canonical form with equal reads are equal data. -/
theorem Memory.ext_of_reads {m m' : Memory} (h : m.wf = true) (h' : m'.wf = true)
    (e : ∀ a, m.read a = m'.read a) : m = m' := by
  induction m generalizing m' with
  | nil =>
    cases m' with
    | nil => rfl
    | cons d m' => simpa [Memory.read] using e d.1
  | cons c m ih =>
    have hc := (Memory.wf_cons c m).mp h
    cases m' with
    | nil => simpa [Memory.read] using e c.1
    | cons d m' =>
      have hd := (Memory.wf_cons d m').mp h'
      have key : c.1 = d.1 := by
        rcases Nat.lt_trichotomy c.1 d.1 with lt | eq | gt
        · have := e c.1
          rw [Memory.read, if_pos rfl, Memory.read_below (m := d :: m')] at this
          · cases this
          · intro x hx
            rcases List.mem_cons.mp hx with rfl | hx
            · exact lt
            · exact Nat.lt_trans lt (hd.1 x hx)
        · exact eq
        · have := e d.1
          rw [Memory.read_below (m := c :: m)] at this
          · simp [Memory.read] at this
          · intro x hx
            rcases List.mem_cons.mp hx with rfl | hx
            · exact gt
            · exact Nat.lt_trans gt (hc.1 x hx)
      have val : c.2 = d.2 := by
        have := e c.1
        rw [Memory.read, if_pos rfl, Memory.read, if_pos key.symm] at this
        exact Option.some.inj this
      have head : c = d := Prod.ext key val
      subst head
      congr 1
      refine ih hc.2 hd.2 (fun a => ?_)
      have ha := e a
      simp only [Memory.read] at ha
      by_cases hca : c.1 = a
      · rw [Memory.read_below (fun x hx => hca ▸ hc.1 x hx), Memory.read_below (fun x hx => hca ▸ hd.1 x hx)]
      · simpa [hca] using ha

end Sys2Proof.Machine
end

