-- ==== Sys2Proof/Laws/State.lean ====
section
/-!
SUPPORT. One lemma per field of State per named update, each true by unfolding: later proofs read a field of an updated
state by simp and unfold no update.
-/

namespace Sys2Proof.Machine

/-! ## complete -/

@[simp] theorem complete_params (s : State) (c : StatusCode) : (complete s c).params = s.params := rfl

@[simp] theorem complete_cmd (s : State) (c : StatusCode) : (complete s c).cmd = s.cmd := rfl

@[simp] theorem complete_status (s : State) (c : StatusCode) : (complete s c).status = statusDone c := rfl

@[simp] theorem complete_srcAddr (s : State) (c : StatusCode) : (complete s c).srcAddr = s.srcAddr := rfl

@[simp] theorem complete_srcLen (s : State) (c : StatusCode) : (complete s c).srcLen = s.srcLen := rfl

@[simp] theorem complete_dstAddr (s : State) (c : StatusCode) : (complete s c).dstAddr = s.dstAddr := rfl

@[simp] theorem complete_dstLen (s : State) (c : StatusCode) : (complete s c).dstLen = s.dstLen := rfl

@[simp] theorem complete_errExpected (s : State) (c : StatusCode) : (complete s c).errExpected = s.errExpected := rfl

@[simp] theorem complete_errActual (s : State) (c : StatusCode) : (complete s c).errActual = s.errActual := rfl

@[simp] theorem complete_arg (s : State) (c : StatusCode) : (complete s c).arg = s.arg := rfl

@[simp] theorem complete_result (s : State) (c : StatusCode) : (complete s c).result = s.result := rfl

@[simp] theorem complete_phase (s : State) (c : StatusCode) : (complete s c).phase = .idle := rfl

@[simp] theorem complete_latch (s : State) (c : StatusCode) : (complete s c).latch = s.latch := rfl

@[simp] theorem complete_sched (s : State) (c : StatusCode) : (complete s c).sched = [] := rfl

@[simp] theorem complete_idx (s : State) (c : StatusCode) : (complete s c).idx = 0 := rfl

@[simp] theorem complete_mem (s : State) (c : StatusCode) : (complete s c).mem = s.mem := rfl

@[simp] theorem complete_host (s : State) (c : StatusCode) : (complete s c).host = s.host := rfl

@[simp] theorem complete_hostData (s : State) (c : StatusCode) : (complete s c).hostData = s.hostData := rfl

/-! ## completeMismatch -/

@[simp] theorem completeMismatch_params (s : State) (n : Nat) : (completeMismatch s n).params = s.params := rfl

@[simp] theorem completeMismatch_cmd (s : State) (n : Nat) : (completeMismatch s n).cmd = s.cmd := rfl

@[simp] theorem completeMismatch_status (s : State) (n : Nat) : (completeMismatch s n).status = statusDone .lengthMismatch := rfl

@[simp] theorem completeMismatch_srcAddr (s : State) (n : Nat) : (completeMismatch s n).srcAddr = s.srcAddr := rfl

@[simp] theorem completeMismatch_srcLen (s : State) (n : Nat) : (completeMismatch s n).srcLen = s.srcLen := rfl

@[simp] theorem completeMismatch_dstAddr (s : State) (n : Nat) : (completeMismatch s n).dstAddr = s.dstAddr := rfl

@[simp] theorem completeMismatch_dstLen (s : State) (n : Nat) : (completeMismatch s n).dstLen = s.dstLen := rfl

@[simp] theorem completeMismatch_errExpected (s : State) (n : Nat) : (completeMismatch s n).errExpected = BitVec.ofNat 32 n := rfl

@[simp] theorem completeMismatch_errActual (s : State) (n : Nat) : (completeMismatch s n).errActual = s.latch.dstLen := rfl

@[simp] theorem completeMismatch_arg (s : State) (n : Nat) : (completeMismatch s n).arg = s.arg := rfl

@[simp] theorem completeMismatch_result (s : State) (n : Nat) : (completeMismatch s n).result = s.result := rfl

@[simp] theorem completeMismatch_phase (s : State) (n : Nat) : (completeMismatch s n).phase = .idle := rfl

@[simp] theorem completeMismatch_latch (s : State) (n : Nat) : (completeMismatch s n).latch = s.latch := rfl

@[simp] theorem completeMismatch_sched (s : State) (n : Nat) : (completeMismatch s n).sched = [] := rfl

@[simp] theorem completeMismatch_idx (s : State) (n : Nat) : (completeMismatch s n).idx = 0 := rfl

@[simp] theorem completeMismatch_mem (s : State) (n : Nat) : (completeMismatch s n).mem = s.mem := rfl

@[simp] theorem completeMismatch_host (s : State) (n : Nat) : (completeMismatch s n).host = s.host := rfl

@[simp] theorem completeMismatch_hostData (s : State) (n : Nat) : (completeMismatch s n).hostData = s.hostData := rfl

/-! ## startCommand -/

@[simp] theorem startCommand_params (s : State) (w : Word) : (startCommand s w).params = s.params := rfl

@[simp] theorem startCommand_cmd (s : State) (w : Word) : (startCommand s w).cmd = w := rfl

@[simp] theorem startCommand_status (s : State) (w : Word) : (startCommand s w).status = statusBusy := rfl

@[simp] theorem startCommand_srcAddr (s : State) (w : Word) : (startCommand s w).srcAddr = s.srcAddr := rfl

@[simp] theorem startCommand_srcLen (s : State) (w : Word) : (startCommand s w).srcLen = s.srcLen := rfl

@[simp] theorem startCommand_dstAddr (s : State) (w : Word) : (startCommand s w).dstAddr = s.dstAddr := rfl

@[simp] theorem startCommand_dstLen (s : State) (w : Word) : (startCommand s w).dstLen = s.dstLen := rfl

@[simp] theorem startCommand_errExpected (s : State) (w : Word) : (startCommand s w).errExpected = 0 := rfl

@[simp] theorem startCommand_errActual (s : State) (w : Word) : (startCommand s w).errActual = 0 := rfl

@[simp] theorem startCommand_arg (s : State) (w : Word) : (startCommand s w).arg = s.arg := rfl

@[simp] theorem startCommand_result (s : State) (w : Word) : (startCommand s w).result = s.result := rfl

@[simp] theorem startCommand_phase (s : State) (w : Word) : (startCommand s w).phase = .check := rfl

@[simp] theorem startCommand_latch (s : State) (w : Word) : (startCommand s w).latch = snapshot s w := rfl

@[simp] theorem startCommand_sched (s : State) (w : Word) : (startCommand s w).sched = [] := rfl

@[simp] theorem startCommand_idx (s : State) (w : Word) : (startCommand s w).idx = 0 := rfl

@[simp] theorem startCommand_mem (s : State) (w : Word) : (startCommand s w).mem = s.mem := rfl

@[simp] theorem startCommand_host (s : State) (w : Word) : (startCommand s w).host = s.host := rfl

@[simp] theorem startCommand_hostData (s : State) (w : Word) : (startCommand s w).hostData = s.hostData := rfl

/-! ## undefineRegion -/

@[simp] theorem undefineRegion_params (s : State) (base len : Nat) : (undefineRegion s base len).params = s.params := rfl

@[simp] theorem undefineRegion_cmd (s : State) (base len : Nat) : (undefineRegion s base len).cmd = s.cmd := rfl

@[simp] theorem undefineRegion_status (s : State) (base len : Nat) : (undefineRegion s base len).status = s.status := rfl

@[simp] theorem undefineRegion_srcAddr (s : State) (base len : Nat) : (undefineRegion s base len).srcAddr = s.srcAddr := rfl

@[simp] theorem undefineRegion_srcLen (s : State) (base len : Nat) : (undefineRegion s base len).srcLen = s.srcLen := rfl

@[simp] theorem undefineRegion_dstAddr (s : State) (base len : Nat) : (undefineRegion s base len).dstAddr = s.dstAddr := rfl

@[simp] theorem undefineRegion_dstLen (s : State) (base len : Nat) : (undefineRegion s base len).dstLen = s.dstLen := rfl

@[simp] theorem undefineRegion_errExpected (s : State) (base len : Nat) : (undefineRegion s base len).errExpected = s.errExpected := rfl

@[simp] theorem undefineRegion_errActual (s : State) (base len : Nat) : (undefineRegion s base len).errActual = s.errActual := rfl

@[simp] theorem undefineRegion_arg (s : State) (base len : Nat) : (undefineRegion s base len).arg = s.arg := rfl

@[simp] theorem undefineRegion_result (s : State) (base len : Nat) : (undefineRegion s base len).result = s.result := rfl

@[simp] theorem undefineRegion_phase (s : State) (base len : Nat) : (undefineRegion s base len).phase = s.phase := rfl

@[simp] theorem undefineRegion_latch (s : State) (base len : Nat) : (undefineRegion s base len).latch = s.latch := rfl

@[simp] theorem undefineRegion_sched (s : State) (base len : Nat) : (undefineRegion s base len).sched = s.sched := rfl

@[simp] theorem undefineRegion_idx (s : State) (base len : Nat) : (undefineRegion s base len).idx = s.idx := rfl

@[simp] theorem undefineRegion_mem (s : State) (base len : Nat) : (undefineRegion s base len).mem = s.mem.undefine base len := rfl

@[simp] theorem undefineRegion_host (s : State) (base len : Nat) : (undefineRegion s base len).host = s.host := rfl

@[simp] theorem undefineRegion_hostData (s : State) (base len : Nat) : (undefineRegion s base len).hostData = s.hostData := rfl

/-! ## resetBlock -/

@[simp] theorem resetBlock_params (s : State) : (resetBlock s).params = s.params := rfl

@[simp] theorem resetBlock_cmd (s : State) : (resetBlock s).cmd = 0 := rfl

@[simp] theorem resetBlock_status (s : State) : (resetBlock s).status = 0 := rfl

@[simp] theorem resetBlock_srcAddr (s : State) : (resetBlock s).srcAddr = 0 := rfl

@[simp] theorem resetBlock_srcLen (s : State) : (resetBlock s).srcLen = 0 := rfl

@[simp] theorem resetBlock_dstAddr (s : State) : (resetBlock s).dstAddr = 0 := rfl

@[simp] theorem resetBlock_dstLen (s : State) : (resetBlock s).dstLen = 0 := rfl

@[simp] theorem resetBlock_errExpected (s : State) : (resetBlock s).errExpected = 0 := rfl

@[simp] theorem resetBlock_errActual (s : State) : (resetBlock s).errActual = 0 := rfl

@[simp] theorem resetBlock_arg (s : State) : (resetBlock s).arg = 0 := rfl

@[simp] theorem resetBlock_result (s : State) : (resetBlock s).result = 0 := rfl

@[simp] theorem resetBlock_phase (s : State) : (resetBlock s).phase = .idle := rfl

@[simp] theorem resetBlock_latch (s : State) : (resetBlock s).latch = Latch.reset := rfl

@[simp] theorem resetBlock_sched (s : State) : (resetBlock s).sched = [] := rfl

@[simp] theorem resetBlock_idx (s : State) : (resetBlock s).idx = 0 := rfl

@[simp] theorem resetBlock_mem (s : State) : (resetBlock s).mem = s.mem := rfl

@[simp] theorem resetBlock_host (s : State) : (resetBlock s).host = s.host := rfl

@[simp] theorem resetBlock_hostData (s : State) : (resetBlock s).hostData = s.hostData := rfl

/-! ## State.resetWith -/

@[simp] theorem State.resetWith_params (p : Params) : (State.resetWith p).params = p := rfl

@[simp] theorem State.resetWith_cmd (p : Params) : (State.resetWith p).cmd = 0 := rfl

@[simp] theorem State.resetWith_status (p : Params) : (State.resetWith p).status = 0 := rfl

@[simp] theorem State.resetWith_srcAddr (p : Params) : (State.resetWith p).srcAddr = 0 := rfl

@[simp] theorem State.resetWith_srcLen (p : Params) : (State.resetWith p).srcLen = 0 := rfl

@[simp] theorem State.resetWith_dstAddr (p : Params) : (State.resetWith p).dstAddr = 0 := rfl

@[simp] theorem State.resetWith_dstLen (p : Params) : (State.resetWith p).dstLen = 0 := rfl

@[simp] theorem State.resetWith_errExpected (p : Params) : (State.resetWith p).errExpected = 0 := rfl

@[simp] theorem State.resetWith_errActual (p : Params) : (State.resetWith p).errActual = 0 := rfl

@[simp] theorem State.resetWith_arg (p : Params) : (State.resetWith p).arg = 0 := rfl

@[simp] theorem State.resetWith_result (p : Params) : (State.resetWith p).result = 0 := rfl

@[simp] theorem State.resetWith_phase (p : Params) : (State.resetWith p).phase = .idle := rfl

@[simp] theorem State.resetWith_latch (p : Params) : (State.resetWith p).latch = Latch.reset := rfl

@[simp] theorem State.resetWith_sched (p : Params) : (State.resetWith p).sched = [] := rfl

@[simp] theorem State.resetWith_idx (p : Params) : (State.resetWith p).idx = 0 := rfl

@[simp] theorem State.resetWith_mem (p : Params) : (State.resetWith p).mem = [] := rfl

@[simp] theorem State.resetWith_host (p : Params) : (State.resetWith p).host = [] := rfl

@[simp] theorem State.resetWith_hostData (p : Params) : (State.resetWith p).hostData = 0 := rfl

/-! ## readHexLut -/

@[simp] theorem readHexLut_params (s : State) : (readHexLut s).params = s.params := rfl

@[simp] theorem readHexLut_cmd (s : State) : (readHexLut s).cmd = s.cmd := rfl

@[simp] theorem readHexLut_status (s : State) : (readHexLut s).status = s.status := rfl

@[simp] theorem readHexLut_srcAddr (s : State) : (readHexLut s).srcAddr = s.srcAddr := rfl

@[simp] theorem readHexLut_srcLen (s : State) : (readHexLut s).srcLen = s.srcLen := rfl

@[simp] theorem readHexLut_dstAddr (s : State) : (readHexLut s).dstAddr = s.dstAddr := rfl

@[simp] theorem readHexLut_dstLen (s : State) : (readHexLut s).dstLen = s.dstLen := rfl

@[simp] theorem readHexLut_errExpected (s : State) : (readHexLut s).errExpected = s.errExpected := rfl

@[simp] theorem readHexLut_errActual (s : State) : (readHexLut s).errActual = s.errActual := rfl

@[simp] theorem readHexLut_arg (s : State) : (readHexLut s).arg = s.arg := rfl

@[simp] theorem readHexLut_result (s : State) : (readHexLut s).result = (hexLutAt (s.arg.extractLsb' 0 4)).setWidth 32 := rfl

@[simp] theorem readHexLut_phase (s : State) : (readHexLut s).phase = s.phase := rfl

@[simp] theorem readHexLut_latch (s : State) : (readHexLut s).latch = s.latch := rfl

@[simp] theorem readHexLut_sched (s : State) : (readHexLut s).sched = s.sched := rfl

@[simp] theorem readHexLut_idx (s : State) : (readHexLut s).idx = s.idx := rfl

@[simp] theorem readHexLut_mem (s : State) : (readHexLut s).mem = s.mem := rfl

@[simp] theorem readHexLut_host (s : State) : (readHexLut s).host = s.host := rfl

@[simp] theorem readHexLut_hostData (s : State) : (readHexLut s).hostData = s.hostData := rfl

/-! ## readNibLut -/

@[simp] theorem readNibLut_params (s : State) : (readNibLut s).params = s.params := rfl

@[simp] theorem readNibLut_cmd (s : State) : (readNibLut s).cmd = s.cmd := rfl

@[simp] theorem readNibLut_status (s : State) : (readNibLut s).status = s.status := rfl

@[simp] theorem readNibLut_srcAddr (s : State) : (readNibLut s).srcAddr = s.srcAddr := rfl

@[simp] theorem readNibLut_srcLen (s : State) : (readNibLut s).srcLen = s.srcLen := rfl

@[simp] theorem readNibLut_dstAddr (s : State) : (readNibLut s).dstAddr = s.dstAddr := rfl

@[simp] theorem readNibLut_dstLen (s : State) : (readNibLut s).dstLen = s.dstLen := rfl

@[simp] theorem readNibLut_errExpected (s : State) : (readNibLut s).errExpected = s.errExpected := rfl

@[simp] theorem readNibLut_errActual (s : State) : (readNibLut s).errActual = s.errActual := rfl

@[simp] theorem readNibLut_arg (s : State) : (readNibLut s).arg = s.arg := rfl

@[simp] theorem readNibLut_result (s : State) : (readNibLut s).result = (nibLutAt (s.arg.extractLsb' 0 8)).setWidth 32 := rfl

@[simp] theorem readNibLut_phase (s : State) : (readNibLut s).phase = s.phase := rfl

@[simp] theorem readNibLut_latch (s : State) : (readNibLut s).latch = s.latch := rfl

@[simp] theorem readNibLut_sched (s : State) : (readNibLut s).sched = s.sched := rfl

@[simp] theorem readNibLut_idx (s : State) : (readNibLut s).idx = s.idx := rfl

@[simp] theorem readNibLut_mem (s : State) : (readNibLut s).mem = s.mem := rfl

@[simp] theorem readNibLut_host (s : State) : (readNibLut s).host = s.host := rfl

@[simp] theorem readNibLut_hostData (s : State) : (readNibLut s).hostData = s.hostData := rfl

/-! ## snapshot -/

@[simp] theorem snapshot_cmd (s : State) (w : Word) : (snapshot s w).cmd = w := rfl

@[simp] theorem snapshot_srcAddr (s : State) (w : Word) : (snapshot s w).srcAddr = s.srcAddr := rfl

@[simp] theorem snapshot_srcLen (s : State) (w : Word) : (snapshot s w).srcLen = s.srcLen := rfl

@[simp] theorem snapshot_dstAddr (s : State) (w : Word) : (snapshot s w).dstAddr = s.dstAddr := rfl

@[simp] theorem snapshot_dstLen (s : State) (w : Word) : (snapshot s w).dstLen = s.dstLen := rfl

end Sys2Proof.Machine
end

