-- ==== Sys2Proof/Laws/Ops.lean ====
section
/-!
SUPPORT. One lemma per shared operation, saying once what it can do: MemRead, MemWrite, the CHECK step, a register
write, the RUN steps, and the outcome of the engine's step by phase. Later proofs cite these and unfold no operation.
-/

namespace Sys2Proof.Machine

/-! ## MemRead and MemWrite -/

theorem memRead_eq_ok {s : State} {addr n : Nat} {bs : List Byte} :
    memRead s addr n = .ok bs ↔ addr + n ≤ s.memTop ∧ s.mem.readBytes addr n = some bs := by
  unfold memRead
  split
  · constructor
    · rintro ⟨⟩
    · rintro ⟨h, -⟩
      omega
  · rename_i h
    cases s.mem.readBytes addr n with
    | none => simp
    | some v => simp; omega

theorem memRead_eq_error {s : State} {addr n : Nat} {f : Fault} :
    memRead s addr n = .error f ↔
      (s.memTop < addr + n ∧ f = .noSuchAddress) ∨
      (addr + n ≤ s.memTop ∧ s.mem.readBytes addr n = none ∧ f = .undefRead) := by
  unfold memRead
  split
  · rename_i h
    simp only [Except.error.injEq]
    constructor
    · rintro rfl
      exact .inl ⟨h, rfl⟩
    · rintro (⟨-, rfl⟩ | ⟨h', -⟩)
      · rfl
      · omega
  · rename_i h
    cases s.mem.readBytes addr n with
    | none =>
      simp only [Except.error.injEq, true_and]
      constructor
      · rintro rfl
        exact .inr ⟨by omega, rfl⟩
      · rintro (⟨h', -⟩ | ⟨-, rfl⟩)
        · omega
        · rfl
    | some v =>
      constructor
      · rintro ⟨⟩
      · rintro (⟨h', -⟩ | ⟨-, h', -⟩)
        · omega
        · cases h'

theorem memWrite_eq_ok {s t : State} {addr : Nat} {bs : List Byte} :
    memWrite s addr bs = .ok t ↔
      addr + bs.length ≤ s.memTop ∧ t = { s with mem := s.mem.writeBytes addr bs } := by
  unfold memWrite
  split
  · constructor
    · rintro ⟨⟩
    · rintro ⟨h, -⟩
      omega
  · simp only [Except.ok.injEq]
    constructor
    · rintro rfl
      exact ⟨by omega, rfl⟩
    · rintro ⟨-, rfl⟩
      rfl

theorem memWrite_eq_error {s : State} {addr : Nat} {bs : List Byte} {f : Fault} :
    memWrite s addr bs = .error f ↔ s.memTop < addr + bs.length ∧ f = .noSuchAddress := by
  unfold memWrite
  split
  · rename_i h
    simp only [Except.error.injEq]
    exact ⟨fun e => ⟨h, e.symm⟩, fun e => e.2.symm⟩
  · constructor
    · rintro ⟨⟩
    · rintro ⟨h, -⟩
      omega

/-! ## Advancing, and the register writes -/

/-- After an item: either IDX moved on inside SCHED, or the command completed with NONE. -/
theorem advance_cases (s : State) :
    (s.idx + 1 < s.sched.length ∧ advance s = { s with idx := s.idx + 1 }) ∨
    (s.sched.length ≤ s.idx + 1 ∧ advance s = complete s .none) := by
  unfold advance
  split
  · exact .inl ⟨by assumption, rfl⟩
  · exact .inr ⟨by omega, rfl⟩

/-- A register write while idle: it starts a command, stores one operand register, or is ignored. -/
theorem writeReg_cases (s : State) (offset : BitVec 8) (w : Word) :
    writeReg s offset w = startCommand s w ∨
    writeReg s offset w = { s with srcAddr := maskAddress s.params w } ∨
    writeReg s offset w = { s with srcLen := w } ∨
    writeReg s offset w = { s with dstAddr := maskAddress s.params w } ∨
    writeReg s offset w = { s with dstLen := w } ∨
    writeReg s offset w = { s with arg := w } ∨
    writeReg s offset w = s := by
  unfold writeReg
  repeat' split
  all_goals simp only [true_or, or_true]

theorem maskAddress_toNat {p : Params} (h : p.aw ≤ 32) (w : Word) :
    (maskAddress p w).toNat = w.toNat % 2 ^ p.aw := by
  have e : 2 ^ p.aw ≤ 2 ^ 32 := Nat.pow_le_pow_right (by decide) h
  have z : 0 < 2 ^ p.aw := Nat.two_pow_pos p.aw
  rw [maskAddress, BitVec.toNat_and, BitVec.toNat_ofNat, Nat.mod_eq_of_lt (by omega), Nat.and_two_pow_sub_one_eq_mod]

/-! ## The CHECK step -/

/-- What the CHECK step can do: end the command with a code, DST_LEN written or not (R192 items 2, 3, 5, 6), end it with
LENGTH_MISMATCH (item 4), or start its RUN phase. -/
theorem checkStep_cases (q : Quantities) (s : State) :
    (∃ c, checkStep q s = complete s c) ∨
    (∃ c, q.own = true ∧ checkStep q s = complete { s with dstLen := BitVec.ofNat 32 q.dstLen } c) ∨
    (q.len = true ∧ checkStep q s = completeMismatch s q.dstLen) ∨
    (q.own = false ∧ q.sched ≠ [] ∧ checkStep q s = { s with sched := q.sched, idx := 0, phase := .run }) ∨
    (q.own = true ∧ q.sched ≠ [] ∧ checkStep q s =
      { s with dstLen := BitVec.ofNat 32 q.dstLen, sched := q.sched, idx := 0, phase := .run }) := by
  unfold checkStep
  split
  · exact .inl ⟨_, rfl⟩
  · split
    · exact .inl ⟨_, rfl⟩
    · split
      · exact .inl ⟨_, rfl⟩
      · split
        · rename_i h
          exact .inr (.inr (.inl ⟨(Bool.and_eq_true _ _ ▸ h).1, rfl⟩))
        · cases hown : q.own with
          | false =>
            simp only [Bool.false_eq_true, if_false]
            split
            · exact .inl ⟨_, rfl⟩
            · split
              · exact .inl ⟨_, rfl⟩
              · split
                · exact .inl ⟨_, rfl⟩
                · rename_i h
                  exact .inr (.inr (.inr (.inl ⟨trivial, by simpa using h, rfl⟩)))
          | true =>
            simp only [if_true]
            split
            · exact .inr (.inl ⟨_, trivial, rfl⟩)
            · split
              · exact .inr (.inl ⟨_, trivial, rfl⟩)
              · split
                · exact .inr (.inl ⟨_, trivial, rfl⟩)
                · rename_i h
                  exact .inr (.inr (.inr (.inr ⟨trivial, by simpa using h, rfl⟩)))

/-! ## The RUN steps -/

/-- What a RUN step of an encode command that goes on has done. -/
theorem encodeRun_next {s t : State} (h : encodeRun s = .next t) :
    (s.sched[s.idx]? = none ∧ t = complete s .none) ∨
    ∃ item v, s.sched[s.idx]? = some item ∧
      s.latch.srcAddr.toNat + item.offset + item.count 1 ≤ s.memTop ∧
      s.mem.readBytes (s.latch.srcAddr.toNat + item.offset) (item.count 1) = some v ∧
      s.latch.dstAddr.toNat + 2 * item.offset + (encItem s.params.family item v).length ≤ s.memTop ∧
      t = advance
        { s with
          mem := s.mem.writeBytes (s.latch.dstAddr.toNat + 2 * item.offset) (encItem s.params.family item v) } := by
  unfold encodeRun at h
  split at h
  · rename_i hi
    cases h
    exact .inl ⟨hi, rfl⟩
  · rename_i item hi
    split at h
    · cases h
    · rename_i v hv
      split at h
      · cases h
      · rename_i s' hw
        cases h
        obtain ⟨h1, h2⟩ := memRead_eq_ok.mp hv
        obtain ⟨h3, rfl⟩ := memWrite_eq_ok.mp hw
        exact .inr ⟨item, v, hi, h1, h2, h3, rfl⟩

/-- Why a RUN step of an encode command stops. -/
theorem encodeRun_fault {s : State} {f : Fault} (h : encodeRun s = .fault f) :
    ∃ item, s.sched[s.idx]? = some item ∧
      (memRead s (s.latch.srcAddr.toNat + item.offset) (item.count 1) = .error f ∨
        ∃ v, memRead s (s.latch.srcAddr.toNat + item.offset) (item.count 1) = .ok v ∧
          memWrite s (s.latch.dstAddr.toNat + 2 * item.offset) (encItem s.params.family item v) = .error f) := by
  unfold encodeRun at h
  split at h
  · cases h
  · rename_i item hi
    refine ⟨item, hi, ?_⟩
    split at h
    · rename_i f' hf
      cases h
      exact .inl hf
    · rename_i v hv
      split at h
      · rename_i f' hf
        cases h
        exact .inr ⟨v, hv, hf⟩
      · cases h

/-- What a RUN step of a decode command that goes on has done. -/
theorem decodeRun_next {onFail : State → State} {s t : State} (h : decodeRun onFail s = .next t) :
    (s.sched[s.idx]? = none ∧ t = complete s .none) ∨
    ∃ item v, s.sched[s.idx]? = some item ∧
      s.latch.srcAddr.toNat + item.offset + item.count 2 ≤ s.memTop ∧
      s.mem.readBytes (s.latch.srcAddr.toNat + item.offset) (item.count 2) = some v ∧
      ((decItem s.params.family item v = none ∧ t = onFail s) ∨
        ∃ bs, decItem s.params.family item v = some bs ∧
          s.latch.dstAddr.toNat + item.offset / 2 + bs.length ≤ s.memTop ∧
          t = advance { s with mem := s.mem.writeBytes (s.latch.dstAddr.toNat + item.offset / 2) bs }) := by
  unfold decodeRun at h
  split at h
  · rename_i hi
    cases h
    exact .inl ⟨hi, rfl⟩
  · rename_i item hi
    split at h
    · cases h
    · rename_i v hv
      obtain ⟨h1, h2⟩ := memRead_eq_ok.mp hv
      split at h
      · rename_i hd
        cases h
        exact .inr ⟨item, v, hi, h1, h2, .inl ⟨hd, rfl⟩⟩
      · rename_i bs hd
        split at h
        · cases h
        · rename_i s' hw
          cases h
          obtain ⟨h3, rfl⟩ := memWrite_eq_ok.mp hw
          exact .inr ⟨item, v, hi, h1, h2, .inr ⟨bs, hd, h3, rfl⟩⟩

/-- Why a RUN step of a decode command stops. -/
theorem decodeRun_fault {onFail : State → State} {s : State} {f : Fault} (h : decodeRun onFail s = .fault f) :
    ∃ item, s.sched[s.idx]? = some item ∧
      (memRead s (s.latch.srcAddr.toNat + item.offset) (item.count 2) = .error f ∨
        ∃ v bs, memRead s (s.latch.srcAddr.toNat + item.offset) (item.count 2) = .ok v ∧
          decItem s.params.family item v = some bs ∧
          memWrite s (s.latch.dstAddr.toNat + item.offset / 2) bs = .error f) := by
  unfold decodeRun at h
  split at h
  · cases h
  · rename_i item hi
    refine ⟨item, hi, ?_⟩
    split at h
    · rename_i f' hf
      cases h
      exact .inl hf
    · rename_i v hv
      split at h
      · cases h
      · rename_i bs hd
        split at h
        · rename_i f' hf
          cases h
          exact .inr ⟨v, bs, hv, hd, hf⟩
        · cases h

/-! ## Steps by phase -/

theorem commandStep_idle {q : Quantities} {r : State → Host.Outcome State Fault Refusal} {s : State}
    (h : s.phase = .idle) : commandStep q r s = .next s := by rw [commandStep, h]

theorem commandStep_check {q : Quantities} {r : State → Host.Outcome State Fault Refusal} {s : State}
    (h : s.phase = .check) : commandStep q r s = .next (checkStep q s) := by rw [commandStep, h]

theorem commandStep_run {q : Quantities} {r : State → Host.Outcome State Fault Refusal} {s : State}
    (h : s.phase = .run) : commandStep q r s = r s := by rw [commandStep, h]

theorem chunkStep_idle {wsel : BitVec 4} {q : Quantities} {r : State → Host.Outcome State Fault Refusal} {s : State}
    (h : s.phase = .idle) : chunkStep wsel q r s = .next s := by rw [chunkStep, h]

theorem chunkStep_check {wsel : BitVec 4} {q : Quantities} {r : State → Host.Outcome State Fault Refusal} {s : State}
    (h : s.phase = .check) :
    chunkStep wsel q r s =
      .next (if s.params.supports wsel then checkStep q s else complete s .illegalCommand) := by
  rw [chunkStep, h]
  cases s.params.supports wsel <;> rfl

theorem chunkStep_run {wsel : BitVec 4} {q : Quantities} {r : State → Host.Outcome State Fault Refusal} {s : State}
    (h : s.phase = .run) : chunkStep wsel q r s = r s := by rw [chunkStep, h]

theorem registerStep_busy {effect : State → State} {s : State} (h : s.phase ≠ .idle) :
    registerStep effect s = .next (complete (effect s) .none) := by
  unfold registerStep
  split
  · contradiction
  · rfl
  · rfl

theorem registerStep_idle {effect : State → State} {s : State} (h : s.phase = .idle) :
    registerStep effect s = .next s := by rw [registerStep, h]

/-- While PHASE = IDLE no command takes a step (R191). -/
theorem exec_idle (i : Instr) {s : State} (h : s.phase = .idle) : exec i s = .next s := by
  cases i <;>
    simp only [exec, execNop, execLutHex, execLutNib, execEncode, execEncodeToBuf, execEncScalar, execEncChunk,
      execDecode, execDecodeToBuf, execDecScalar, execDecChunk, commandStep_idle h, chunkStep_idle h,
      registerStep_idle h]

theorem engineStep_idle {s : State} (h : s.phase = .idle) : engineStep s = .next s := by
  rw [engineStep, if_pos h]

/-- Outside IDLE the engine's step is the step of the latched command. -/
theorem engineStep_busy {s : State} {i : Instr} (h : s.phase ≠ .idle) (hd : decodeWord s.latch.cmd = .ok i) :
    engineStep s = exec i s := by
  rw [engineStep, if_neg h, hd]

/-- Outside IDLE a latched word that encodes no command completes with ILLEGAL_COMMAND. -/
theorem engineStep_undecodable {s : State} {e : DecodeError} (h : s.phase ≠ .idle)
    (hd : decodeWord s.latch.cmd = .error e) : engineStep s = .next (complete s .illegalCommand) := by
  rw [engineStep, if_neg h, hd]

end Sys2Proof.Machine
end

