-- ==== Sys2Proof/Laws/Exec.lean ====
section
/-!
SUPPORT. What one step of a command is in each phase, by the kind of command, and what one transaction of the host can
do. Proofs over all commands go through these and unfold no meaning.
-/

namespace Sys2Proof.Machine

/-! ## Completion and advancing, spelled out -/

theorem statusDone_eq (c : StatusCode) : statusDone c = BitVec.ofNat 32 (16 * c.code.toNat + 2) := by
  cases c <;> decide

theorem complete_eq_ended (s : State) (c : StatusCode) : complete s c = ended s c.code.toNat := by
  rw [complete, ended, statusDone_eq]

theorem advance_eq_itemDone {s : State} {item : Item} (h : s.sched[s.idx]? = some item) :
    advance s = itemDone s := by
  have hlt : s.idx < s.sched.length := (List.getElem?_eq_some_iff.mp h).1
  unfold advance itemDone
  by_cases e : s.idx + 1 = s.sched.length
  · rw [if_neg (by omega), if_pos e]
    exact complete_eq_ended s .none
  · rw [if_pos (by omega), if_neg e]

/-! ## The CHECK step -/

/-- The CHECK step of a legal command with memory operands (42_dispatch.md R192). -/
theorem exec_check {i : Instr} {s : State} {q : Quantities} (hp : s.phase = .check) (hw : i.wf s.params = true)
    (hq : quantitiesOf s.params s.latch i = some q) : exec i s = .next (checkStep q s) := by
  cases i <;> simp only [quantitiesOf, Option.some.injEq, reduceCtorEq] at hq <;> subst hq
  case encode => exact commandStep_check hp
  case encodeToBuf => exact commandStep_check hp
  case decode => exact commandStep_check hp
  case decodeToBuf => exact commandStep_check hp
  case encScalar => exact commandStep_check hp
  case decScalar => exact commandStep_check hp
  case encChunk wsel => exact (chunkStep_check hp).trans (by rw [if_pos (show s.params.supports wsel = true from hw)])
  case decChunk wsel => exact (chunkStep_check hp).trans (by rw [if_pos (show s.params.supports wsel = true from hw)])

/-- A chunk command with an unsupported width completes with ILLEGAL_COMMAND (40_encoder.md R133, 41_decoder.md R165). -/
theorem exec_check_unsupported {i : Instr} {s : State} (hp : s.phase = .check) (hw : i.wf s.params = false) :
    exec i s = .next (complete s .illegalCommand) := by
  cases i <;> simp only [Instr.wf, reduceCtorEq] at hw
  case encChunk wsel => exact (chunkStep_check hp).trans (by simp [hw])
  case decChunk wsel => exact (chunkStep_check hp).trans (by simp [hw])

/-- With its checks passed the CHECK step starts the schedule, or completes with NONE where it is empty. -/
theorem checkStep_of_checksPass {q : Quantities} {s : State} (h : checksPass q s = true) :
    checkStep q s =
      (if q.sched.isEmpty then
        complete (if q.own then { s with dstLen := BitVec.ofNat 32 q.dstLen } else s) .none
      else
        { (if q.own then { s with dstLen := BitVec.ofNat 32 q.dstLen } else s) with
          sched := q.sched, idx := 0, phase := .run }) := by
  simp only [checksPass, Bool.and_eq_true, Bool.not_eq_true', decide_eq_true_eq] at h
  obtain ⟨⟨⟨⟨⟨h1, h2⟩, h3⟩, h4⟩, h5⟩, h6⟩ := h
  unfold checkStep
  simp only [h1, h3, h4, h6, Bool.false_eq_true, if_false]
  rw [if_neg (by omega), if_neg (by omega)]

/-! ## The RUN step -/

theorem exec_run_encodes {i : Instr} {s : State} (hp : s.phase = .run) (hi : i.encodes = true) :
    exec i s = encodeRun s := by
  cases i <;> simp only [Instr.encodes, reduceCtorEq] at hi
  case encode => exact commandStep_run hp
  case encodeToBuf => exact commandStep_run hp
  case encScalar => exact commandStep_run hp
  case encChunk wsel => exact chunkStep_run hp

theorem exec_run_decodesMany {i : Instr} {s : State} (hp : s.phase = .run) (hi : i.decodesMany = true) :
    exec i s = decodeRun failUndefining s := by
  cases i <;> simp only [Instr.decodesMany, reduceCtorEq] at hi
  case decode => exact commandStep_run hp
  case decodeToBuf => exact commandStep_run hp
  case decScalar => exact commandStep_run hp

theorem exec_run_decChunk {wsel : BitVec 4} {s : State} (hp : s.phase = .run) :
    exec (.decChunk wsel) s = decodeRun failKeeping s := chunkStep_run hp

/-- A decode command's RUN step, with what its failing item does. -/
theorem exec_run_decodes {i : Instr} {s : State} (hp : s.phase = .run) (hi : i.decodes = true) :
    exec i s = decodeRun (if i.isChunk then failKeeping else failUndefining) s := by
  cases i <;> simp only [Instr.decodes, Instr.decodesMany, Instr.isChunk, Instr.encodes, Bool.not_true, Bool.not_false,
    Bool.and_true, Bool.and_false, Bool.or_false, Bool.or_true, Bool.and_self, Bool.or_self, reduceCtorEq] at hi
  case decode => exact commandStep_run hp
  case decodeToBuf => exact commandStep_run hp
  case decScalar => exact commandStep_run hp
  case decChunk wsel => exact chunkStep_run hp

theorem exec_nop {s : State} (h : s.phase ≠ .idle) : exec .nop s = .next (complete s .none) :=
  registerStep_busy (effect := fun t => t) h

theorem exec_lutHex {s : State} (h : s.phase ≠ .idle) : exec .lutHex s = .next (complete (readHexLut s) .none) :=
  registerStep_busy h

theorem exec_lutNib {s : State} (h : s.phase ≠ .idle) : exec .lutNib s = .next (complete (readNibLut s) .none) :=
  registerStep_busy h

/-- NOP and the table reads complete with NONE in one step. -/
theorem exec_register {i : Instr} {s : State} (hp : s.phase ≠ .idle)
    (hq : quantitiesOf s.params s.latch i = none) :
    (i = .nop ∧ exec i s = .next (complete s .none)) ∨
    (i = .lutHex ∧ exec i s = .next (complete (readHexLut s) .none)) ∨
    (i = .lutNib ∧ exec i s = .next (complete (readNibLut s) .none)) := by
  cases i <;> simp only [quantitiesOf, reduceCtorEq] at hq
  case nop => exact .inl ⟨rfl, exec_nop hp⟩
  case lutHex => exact .inr (.inl ⟨rfl, exec_lutHex hp⟩)
  case lutNib => exact .inr (.inr ⟨rfl, exec_lutNib hp⟩)

/-- A command with memory operands encodes or decodes. -/
theorem encodes_or_decodes {p : Params} {l : Latch} {i : Instr} {q : Quantities} (h : quantitiesOf p l i = some q) :
    i.encodes = true ∨ i.decodes = true := by
  cases i <;> first
    | exact .inl rfl
    | exact .inr rfl
    | cases h

/-- Every way a step of a command can go on. -/
theorem exec_next_cases {i : Instr} {s t : State} (hp : s.phase ≠ .idle) (h : exec i s = .next t) :
    (i = .nop ∧ t = complete s .none) ∨
    (i = .lutHex ∧ t = complete (readHexLut s) .none) ∨
    (i = .lutNib ∧ t = complete (readNibLut s) .none) ∨
    (s.phase = .check ∧ i.wf s.params = false ∧ t = complete s .illegalCommand) ∨
    (∃ q, s.phase = .check ∧ i.wf s.params = true ∧ quantitiesOf s.params s.latch i = some q ∧ t = checkStep q s) ∨
    (s.phase = .run ∧ i.encodes = true ∧ encodeRun s = .next t) ∨
    (s.phase = .run ∧ i.decodes = true ∧
      decodeRun (if i.isChunk then failKeeping else failUndefining) s = .next t) := by
  rcases hq : quantitiesOf s.params s.latch i with _ | q
  · rcases exec_register hp hq with ⟨hi, e⟩ | ⟨hi, e⟩ | ⟨hi, e⟩ <;> rw [e] at h <;> cases h
    · exact .inl ⟨hi, rfl⟩
    · exact .inr (.inl ⟨hi, rfl⟩)
    · exact .inr (.inr (.inl ⟨hi, rfl⟩))
  · rcases hph : s.phase with _ | _ | _
    · exact absurd hph hp
    · cases hw : i.wf s.params with
      | false =>
        rw [exec_check_unsupported hph hw] at h
        cases h
        exact .inr (.inr (.inr (.inl ⟨rfl, rfl, rfl⟩)))
      | true =>
        rw [exec_check hph hw hq] at h
        cases h
        exact .inr (.inr (.inr (.inr (.inl ⟨q, rfl, rfl, rfl, rfl⟩))))
    · rcases encodes_or_decodes hq with hi | hi
      · exact .inr (.inr (.inr (.inr (.inr (.inl ⟨rfl, hi, exec_run_encodes hph hi ▸ h⟩)))))
      · exact .inr (.inr (.inr (.inr (.inr (.inr ⟨rfl, hi, exec_run_decodes hph hi ▸ h⟩)))))

/-! ## The step -/

/-- Every way the engine's step can go on. -/
theorem engineStep_next_cases {s t : State} (h : engineStep s = .next t) :
    (s.phase = .idle ∧ t = s) ∨
    (s.phase ≠ .idle ∧ (∃ e, decodeWord s.latch.cmd = .error e) ∧ t = complete s .illegalCommand) ∨
    (∃ i, s.phase ≠ .idle ∧ decodeWord s.latch.cmd = .ok i ∧ exec i s = .next t) := by
  by_cases hp : s.phase = .idle
  · rw [engineStep_idle hp] at h
    cases h
    exact .inl ⟨hp, rfl⟩
  · cases hd : decodeWord s.latch.cmd with
    | error e =>
      rw [engineStep_undecodable hp hd] at h
      cases h
      exact .inr (.inl ⟨hp, ⟨e, rfl⟩, rfl⟩)
    | ok i => exact .inr (.inr ⟨i, hp, rfl, engineStep_busy hp hd ▸ h⟩)

theorem step_engine {s : State} (h : s.host = []) : step s = engineStep s := by
  rw [step, h]

theorem step_pass {s : State} {rest : List HostEvent} (h : s.host = .pass :: rest) :
    step s = engineStep { s with host := rest } := by
  rw [step, h]

theorem step_host {s : State} {e : HostEvent} {rest : List HostEvent} (h : s.host = e :: rest) (he : e ≠ .pass) :
    step s = hostAct e { s with host := rest } := by
  rw [step, h]
  cases e <;> first | rfl | exact absurd rfl he

/-- What one transaction outside the engine can do when the run goes on. -/
theorem hostAct_next {e : HostEvent} {s t : State} (h : hostAct e s = .next t) :
    t = s ∨
    (∃ v events, t = { s with hostData := v, host := events }) ∨
    (∃ offset w, s.busy = false ∧ t = writeReg s offset w) ∨
    (∃ a b, a < s.memTop ∧ (s.busy && (inActiveSource s a || inActiveDest s a)) = false ∧
      t = { s with mem := s.mem.write a b }) ∨
    (e = .reset ∧ t = assertReset s) := by
  cases e with
  | regRead offset size =>
    simp only [hostAct, hostRegRead] at h
    split at h <;> cases h
    exact .inr (.inl ⟨regValue s offset, s.host, rfl⟩)
  | regWrite offset size w =>
    simp only [hostAct, hostRegWrite] at h
    split at h
    · split at h
      · cases h
        exact .inl rfl
      · split at h
        · cases h
        · rename_i hb
          cases h
          exact .inr (.inr (.inl ⟨offset, w, by simpa using hb, rfl⟩))
    · cases h
  | poll offset mask wanted =>
    simp only [hostAct, hostPoll] at h
    split at h
    · split at h <;> cases h
      · exact .inr (.inl ⟨regValue s offset, s.host, rfl⟩)
      · exact .inr (.inl ⟨_, _, rfl⟩)
    · cases h
  | memRead a =>
    simp only [hostAct, hostMemRead] at h
    split at h
    · cases h
    · split at h
      · cases h
      · split at h <;> cases h
        exact .inr (.inl ⟨_, s.host, rfl⟩)
  | memWrite a b =>
    simp only [hostAct, busMemWrite] at h
    split at h
    · cases h
    · split at h
      · cases h
      · rename_i ha hb
        cases h
        exact .inr (.inr (.inr (.inl ⟨a.toNat, b, by omega, by simpa using hb, rfl⟩)))
  | otherWrite a b =>
    simp only [hostAct, busMemWrite] at h
    split at h
    · cases h
    · split at h
      · cases h
      · rename_i ha hb
        cases h
        exact .inr (.inr (.inr (.inl ⟨a.toNat, b, by omega, by simpa using hb, rfl⟩)))
  | reset =>
    cases h
    exact .inr (.inr (.inr (.inr ⟨rfl, rfl⟩)))
  | pass =>
    cases h
    exact .inl rfl

end Sys2Proof.Machine
end

