-- ==== Sys2Proof/Laws/PerInstr.lean ====
section
/-!
SUPPORT. Statements made for every instruction as syntax, one lemma per constructor: the three fields of a command's
word are its OP value, its WSEL value and 0 (30_encoding.md R100, R102, R103).
-/

namespace Sys2Proof.Laws.WordFields

/-- The fields of the command's word (R100). -/
def Statement (i : Instr) : Prop :=
  opField (encodeInstr i) = opcode i ∧ wselField (encodeInstr i) = wselOf i ∧ rsvField (encodeInstr i) = 0

theorem nop : Statement .nop := by
  unfold Statement
  decide

theorem encode : Statement .encode := by
  unfold Statement
  decide

theorem encodeToBuf : Statement .encodeToBuf := by
  unfold Statement
  decide

theorem decode : Statement .decode := by
  unfold Statement
  decide

theorem decodeToBuf : Statement .decodeToBuf := by
  unfold Statement
  decide

theorem encChunk (wsel : BitVec 4) : Statement (.encChunk wsel) := by
  unfold Statement
  revert wsel
  decide

theorem decChunk (wsel : BitVec 4) : Statement (.decChunk wsel) := by
  unfold Statement
  revert wsel
  decide

theorem encScalar : Statement .encScalar := by
  unfold Statement
  decide

theorem decScalar : Statement .decScalar := by
  unfold Statement
  decide

theorem lutHex : Statement .lutHex := by
  unfold Statement
  decide

theorem lutNib : Statement .lutNib := by
  unfold Statement
  decide

end Sys2Proof.Laws.WordFields
end

