-- ==== Sys2Proof/Laws/Run.lean ====
section
/-!
SUPPORT. Runs of several steps: how a run unfolds, that it is the run of the host's interface, and how two runs join.
-/

namespace Sys2Proof.Machine

@[simp] theorem runSteps_zero (s : State) : runSteps 0 s = .next s := rfl

theorem runSteps_next {k : Nat} {s t : State} (h : step s = .next t) : runSteps (k + 1) s = runSteps k t := by
  rw [runSteps, h]

theorem runSteps_fault {k : Nat} {s : State} {f : Fault} (h : step s = .fault f) :
    runSteps (k + 1) s = .fault f := by
  rw [runSteps, h]

/-- One step of the run of Host/Core.lean, for any machine. -/
theorem coreRun_succ (M : Host.Core) (k : Nat) (s : M.State) :
    M.run (k + 1) s =
      (match M.step s with
      | .next t => M.run k t
      | .fault f => .fault f
      | .refused r => .refused r) := rfl

/-- The run of Host/Core.lean over this machine. -/
theorem runSteps_eq_core (k : Nat) (s : State) : runSteps k s = Host.Core.run Sys2Proof.core k s := by
  induction k generalizing s with
  | zero => rfl
  | succ k ih =>
    refine Eq.trans ?_ (coreRun_succ Sys2Proof.core k s).symm
    rw [runSteps]
    cases h : step s with
    | next t =>
      have h' : Sys2Proof.core.step s = .next t := h
      simp only [h']
      exact ih t
    | fault f =>
      have h' : Sys2Proof.core.step s = .fault f := h
      simp only [h']
      rfl
    | refused r =>
      have h' : Sys2Proof.core.step s = .refused r := h
      simp only [h']
      rfl

/-- A run that goes on for j steps, then k more. -/
theorem runSteps_add {j k : Nat} {s t : State} (h : runSteps j s = .next t) : runSteps (j + k) s = runSteps k t := by
  induction j generalizing s with
  | zero =>
    cases h
    rw [Nat.zero_add]
  | succ j ih =>
    rw [Nat.add_right_comm]
    rw [runSteps] at h ⊢
    cases hs : step s with
    | next u =>
      rw [hs] at h
      exact ih h
    | fault f =>
      rw [hs] at h
      cases h
    | refused r =>
      rw [hs] at h
      cases h

/-- With no transaction pending and the engine idle a run changes nothing (log 5). -/
theorem runSteps_idle {s : State} (hp : s.phase = .idle) (hh : s.host = []) (k : Nat) : runSteps k s = .next s := by
  induction k with
  | zero => rfl
  | succ k ih => rw [runSteps_next ((step_engine hh).trans (engineStep_idle hp)), ih]

end Sys2Proof.Machine
end

