-- ==== Sys2Proof/Tests/Slice0.lean ====
section
/-!
SUPPORT. Tests on fixed values, each expected value taken from the spec (95_test_vectors.md unless a comment names
another place), and one witness for the hypotheses of every statement that has some.
-/

namespace Sys2Proof.Tests

open Sys2Proof.Machine

/-! ## Helpers -/

/-- The state an outcome goes on with. -/
def nextOf : Host.Outcome State Fault Refusal → Option State
  | .next s => some s
  | .fault _ => none
  | .refused _ => none

/-- The fault an outcome stops with. -/
def faultOf : Host.Outcome State Fault Refusal → Option Fault
  | .next _ => none
  | .fault f => some f
  | .refused _ => none

/-- One field of the state an outcome goes on with. -/
def field {α : Type} (f : State → α) (o : Host.Outcome State Fault Refusal) : Option α := (nextOf o).map f

/-- A default block with data memory, operand registers and a command just started. -/
def started (mem : Memory) (word src n dst m : Word) : State :=
  startCommand { State.reset with mem := mem, srcAddr := src, srcLen := n, dstAddr := dst, dstLen := m } word

/-- The same after its CHECK step, in RUN with the given schedule and index. -/
def running (mem : Memory) (word src n dst m : Word) (sched : List Item) (idx : Nat) : State :=
  { started mem word src n dst m with phase := .run, sched := sched, idx := idx }

/-- Bytes of data memory from an address on. -/
def bytesAt (addr : Nat) (bs : List Byte) : Memory := Memory.writeBytes [] addr bs

/-- A SCALAR block: no widths. -/
def scalarParams : Params := { Params.default with family := .scalar, widths := [] }

/-- A PORTABLE block with one width. -/
def portableParams : Params := { Params.default with family := .portable, widths := [16] }

/-- An ACCEL_BIAS block with AW = 16 and two widths (L2.9). -/
def biasParams : Params := { Params.default with aw := 16, family := .accelBias, widths := [32, 16] }

/-! ## WellFormed and the parameter ranges: each check refuses an ill-formed term -/

theorem test_wf_enc_chunk : Instr.wf Params.default (.encChunk 3) = false ∧
    Instr.wf Params.default (.encChunk 4) = true := by decide

theorem test_wf_dec_chunk : Instr.wf Params.default (.decChunk 15) = false ∧
    Instr.wf scalarParams (.decChunk 4) = false ∧ Instr.wf Params.default (.decChunk 6) = true := by decide

theorem test_params_aw : Params.awOk { Params.default with aw := 0 } = false ∧
    Params.awOk { Params.default with aw := 33 } = false ∧ Params.awOk { Params.default with aw := 1 } = true := by
  decide

theorem test_params_widths : Params.widthsOk { Params.default with widths := [24] } = false ∧
    Params.widthsOk { Params.default with widths := [1] } = false ∧
    Params.widthsOk { Params.default with widths := [65536] } = false ∧
    Params.widthsOk { Params.default with widths := [16, 16] } = false ∧
    Params.widthsOk { Params.default with widths := [16, 32] } = false ∧
    Params.widthsOk { Params.default with widths := [32768, 2] } = true := by decide

theorem test_params_family : Params.familyOk { Params.default with widths := [] } = false ∧
    Params.familyOk { Params.default with family := .scalar } = false ∧
    Params.wf scalarParams = true ∧ Params.wf Params.default = true := by decide

/-! ## Decoding: a word written out from the fields of R100 for every constructor (words of R107) -/

theorem test_decode_plain :
    -- RSV = 0, WSEL = 0, OP = 0x00 .. 0x04
    decodeWord 0b00000000000000000000_0000_00000000#32 = .ok .nop ∧
    decodeWord 0b00000000000000000000_0000_00000001#32 = .ok .encode ∧
    decodeWord 0b00000000000000000000_0000_00000010#32 = .ok .encodeToBuf ∧
    decodeWord 0b00000000000000000000_0000_00000011#32 = .ok .decode ∧
    decodeWord 0b00000000000000000000_0000_00000100#32 = .ok .decodeToBuf := by decide

theorem test_decode_chunks :
    -- RSV = 0, WSEL = 4, 5, 6, OP = 0x11, 0x12
    decodeWord 0b00000000000000000000_0100_00010001#32 = .ok (.encChunk 4) ∧
    decodeWord 0b00000000000000000000_0110_00010001#32 = .ok (.encChunk 6) ∧
    decodeWord 0b00000000000000000000_0101_00010010#32 = .ok (.decChunk 5) := by decide

theorem test_decode_scalars_and_tables :
    -- RSV = 0, WSEL = 0, OP = 0x21, 0x22, 0x31, 0x32
    decodeWord 0b00000000000000000000_0000_00100001#32 = .ok .encScalar ∧
    decodeWord 0b00000000000000000000_0000_00100010#32 = .ok .decScalar ∧
    decodeWord 0b00000000000000000000_0000_00110001#32 = .ok .lutHex ∧
    decodeWord 0b00000000000000000000_0000_00110010#32 = .ok .lutNib := by decide

/-- L2.8: the illegal words. -/
theorem test_illegal_words :
    ([0x00000005#32, 0x00000010#32, 0x00000013#32, 0x000000FF#32, 0x00000100#32, 0x00000101#32, 0x00000131#32,
      0x00001001#32, 0x80000000#32, 0x00000311#32, 0x00000711#32, 0x00000F12#32] : List Word).all
        (illegalWord Params.default) = true ∧
    illegalWord scalarParams 0x00000411#32 = true ∧ illegalWord Params.default 0x00000411#32 = false := by decide

theorem test_decode_table_word : decodeTableWord 32 0x612 = some (.decChunk 6) ∧ decodeTableWord 32 0x1001 = none := by
  decide

/-! ## Tables and kernels -/

/-- L2.2: bytes 0x9A, 0xA9, 0x0F, 0xF0. -/
theorem test_enc_byte : encByte 0x9A#8 = [0x39#8, 0x61#8] ∧ encByte 0xA9#8 = [0x61#8, 0x39#8] ∧
    encByte 0x0F#8 = [0x30#8, 0x66#8] ∧ encByte 0xF0#8 = [0x66#8, 0x30#8] := by decide

/-- L2.4: the rows at the edges of the ranges; '9', ':', '@', 'A', 'F', 'G', 'W', 'Z', '`', 'a', 'f', 'g' and 0xB0. -/
theorem test_classify_edges :
    ([0x39#8, 0x3A#8, 0x40#8, 0x41#8, 0x46#8, 0x47#8, 0x57#8, 0x5A#8, 0x60#8, 0x61#8, 0x66#8, 0x67#8, 0xB0#8] :
      List Byte).map nibLutAt =
    [0x09#8, 0xFF#8, 0xFF#8, 0x0A#8, 0x0F#8, 0xFF#8, 0xFF#8, 0xFF#8, 0xFF#8, 0x0A#8, 0x0F#8, 0xFF#8, 0xFF#8] := by
  decide

/-- L2.5: "9a" packs to 0x9A in both ways; the multiply-add sum of (0, SENTINEL) is 0x00FF, yet the lane is rejected. -/
theorem test_pack : packShiftOr 9#8 10#8 = 0x9A#8 ∧ packMulAdd 9#8 10#8 = 0x9A#8 ∧
    packMulAdd 0#8 sentinel = 0xFF#8 ∧ decVec .accelPermute [0x30#8, 0x3A#8] = none := by decide

/-- L1, the boundary lengths: schedules as the table lists them. -/
theorem test_schedules :
    schedule 15 [64, 32, 16] 1 = (List.range 15).map Item.unit ∧
    schedule 17 [64, 32, 16] 1 = [.vec 0 16, .vec 1 16] ∧
    schedule 63 [64, 32, 16] 1 = [.vec 0 32, .vec 32 16, .vec 47 16] ∧
    schedule 126 [64, 32, 16] 2 = [.vec 0 64, .vec 64 32, .vec 96 16, .vec 110 16] ∧
    schedule 6 [64, 32, 16] 2 = [.unit 0, .unit 2, .unit 4] ∧
    schedule 129 [64, 32, 16] 1 = [.vec 0 64, .vec 64 64, .vec 113 16] ∧ schedule 0 [64, 32, 16] 1 = [] := by decide

/-- L2.9: CAPS of four blocks. -/
theorem test_caps : capsWord Params.default = 0x00702003#32 ∧ capsWord scalarParams = 0x00002000#32 ∧
    capsWord portableParams = 0x00102001#32 ∧ capsWord biasParams = 0x00301002#32 := by decide

/-! ## Commands, one step each -/

/-- R208: NOP clears an error code. -/
theorem test_nop : field (fun t => t.status) (exec .nop (started [] 0x0#32 0 0 0 0)) = some 0x02#32 := by decide

/-- P9: the word 0x0000_0101 completes with ILLEGAL_COMMAND. -/
theorem test_illegal_completes :
    field (fun t => t.status) (engineStep (started [] 0x101#32 0 0 0 0)) = some 0x42#32 := by decide

/-- E11: the length limit, DST_LEN not written. -/
theorem test_encode_limit : field (fun t => (t.status, t.dstLen))
    (exec .encode (started [] 0x1#32 0x1000#32 0x80000000#32 0x2000#32 0x55#32)) = some (0x52#32, 0x55#32) := by decide

/-- E13: the destination passes 2^32 - 1, DST_LEN written before. -/
theorem test_encode_dest : field (fun t => (t.status, t.dstLen))
    (exec .encode (started [] 0x1#32 0x1000#32 4#32 0xFFFFFFFC#32 0#32)) = some (0x52#32, 8#32) := by decide

/-- S6: expected 4, got 3. -/
theorem test_encode_to_buf_mismatch : field (fun t => (t.status, t.errExpected, t.errActual))
    (exec .encodeToBuf (started [] 0x2#32 0x1000#32 2#32 0x2000#32 3#32)) = some (0x12#32, 4#32, 3#32) := by decide

/-- E8: a source byte at the top of memory. -/
theorem test_encode_to_buf_top : field (fun t => (t.status, t.mem.read 0x2000, t.mem.read 0x2001))
    (exec .encodeToBuf (running (bytesAt 0xFFFFFFFF [0xAB#8]) 0x2#32 0xFFFFFFFF#32 1#32 0x2000#32 2#32 [.unit 0] 0)) =
      some (0x02#32, some 0x61#8, some 0x62#8) := by decide

/-- E4: regions that share 0x100F. -/
theorem test_enc_chunk_overlap : field (fun t => t.status)
    (exec (.encChunk 4) (started [] 0x411#32 0x1000#32 0#32 0x100F#32 0#32)) = some 0x52#32 := by decide

/-- L2.8: ENC_CHUNK.8 is not supported by the default block. -/
theorem test_enc_chunk_width : field (fun t => t.status)
    (exec (.encChunk 3) (started [] 0x311#32 0x1000#32 0#32 0x2000#32 0#32)) = some 0x42#32 := by decide

/-- E6: the second unit writes "02" behind the first. -/
theorem test_enc_scalar : field (fun t => (t.status, t.mem.readBytes 0x2002 2))
    (exec .encScalar (running (bytesAt 0x1000 [0x01#8, 0x02#8]) 0x21#32 0x1000#32 2#32 0x2000#32 4#32
      [.unit 0, .unit 1] 1)) = some (0x02#32, some [0x30#8, 0x32#8]) := by decide

/-- P6 and S3: the source region is checked before the odd length. -/
theorem test_decode_order : field (fun t => t.status)
    (exec .decode (started [] 0x3#32 0xFFFFFFFE#32 3#32 0x2000#32 0#32)) = some 0x52#32 ∧
    field (fun t => (t.status, t.dstLen)) (exec .decode (started [] 0x3#32 0x1000#32 1#32 0x2000#32 7#32)) =
      some (0x22#32, 7#32) := by decide

/-- S4: "0g" is INVALID_CHARACTER and the destination Undef, even where it was Def. -/
theorem test_decode_invalid : field (fun t => (t.status, t.mem.read 0x2000, t.mem.read 0x2001))
    (exec .decode (running (bytesAt 0x1000 [0x30#8, 0x67#8] ++ bytesAt 0x2000 [0xEE#8, 0xEE#8]) 0x3#32
      0x1000#32 2#32 0x2000#32 1#32 [.unit 0] 0)) = some (0x32#32, none, some 0xEE#8) := by decide

/-- P2: the length is checked before any character. -/
theorem test_decode_to_buf_mismatch : field (fun t => (t.status, t.errExpected, t.errActual))
    (exec .decodeToBuf (started [] 0x4#32 0x1000#32 4#32 0x2000#32 5#32)) = some (0x12#32, 2#32, 5#32) := by decide

/-- D7: the middle unit of "00FF0a". -/
theorem test_decode_to_buf_unit : field (fun t => (t.idx, t.mem.read 0x2001))
    (exec .decodeToBuf (running (bytesAt 0x1000 [0x30#8, 0x30#8, 0x46#8, 0x46#8, 0x30#8, 0x61#8]) 0x4#32
      0x1000#32 6#32 0x2000#32 3#32 [.unit 0, .unit 2, .unit 4] 1)) = some (2, some 0xFF#8) := by decide

/-- D4: the source region passes 2^32 - 1. -/
theorem test_dec_chunk_region : field (fun t => t.status)
    (exec (.decChunk 4) (started [] 0x412#32 0xFFFFFFF8#32 0#32 0x2000#32 0#32)) = some 0x52#32 := by decide

/-- D2: one bad character leaves the destination unchanged. -/
theorem test_dec_chunk_invalid : field (fun t => (t.status, t.mem.readBytes 0x2000 2))
    (exec (.decChunk 4) (running (bytesAt 0x1000 [0x30#8, 0x31#8, 0x32#8, 0x33#8, 0x34#8, 0x35#8, 0x36#8, 0x37#8,
      0x38#8, 0x39#8, 0x61#8, 0x62#8, 0x63#8, 0x64#8, 0x65#8, 0x47#8] ++ bytesAt 0x2000 [0xEE#8, 0xEE#8]) 0x412#32
      0x1000#32 0#32 0x2000#32 0#32 [.vec 0 16] 0)) = some (0x32#32, some [0xEE#8, 0xEE#8]) := by decide

/-- D5: ":0". -/
theorem test_dec_scalar_invalid : field (fun t => (t.status, t.mem.read 0x2000))
    (exec .decScalar (running (bytesAt 0x1000 [0x3A#8, 0x30#8]) 0x22#32 0x1000#32 2#32 0x2000#32 1#32 [.unit 0] 0)) =
      some (0x32#32, none) := by decide

/-- R166, D6: units only, although 40 is not below Wmin. -/
theorem test_dec_scalar_schedule : field (fun t => t.sched.length)
    (exec .decScalar (started [] 0x22#32 0x1000#32 40#32 0x2000#32 20#32)) = some 20 := by decide

/-- E15: ARG = 0x1A reads entry 0xA. -/
theorem test_lut_hex : field (fun t => (t.status, t.result))
    (exec .lutHex { started [] 0x31#32 0 0 0 0 with arg := 0x1A#32 }) = some (0x02#32, 0x61#32) := by decide

/-- D10: ARG = 0x130 and 0x140. -/
theorem test_lut_nib : field (fun t => t.result)
    (exec .lutNib { started [] 0x32#32 0 0 0 0 with arg := 0x130#32 }) = some 0#32 ∧
    field (fun t => t.result)
      (exec .lutNib { started [] 0x32#32 0 0 0 0 with arg := 0x140#32 }) = some 0xFF#32 := by decide

/-! ## The host and reset -/

/-- R2 of L2.10, in small: reset during a command undefines the destination. -/
theorem test_reset_during_command : field (fun t => (t.status, t.mem.read 0x2000, t.mem.read 0x1000))
    (step { running (bytesAt 0x1000 [0x01#8] ++ bytesAt 0x2000 [0x30#8, 0x31#8]) 0x2#32 0x1000#32 1#32 0x2000#32
      2#32 [.unit 0] 0 with host := [.reset] }) = some (0#32, none, some 0x01#8) := by decide

/-- 10_state.md R31: a half-word access, and R53: a CMD write while BUSY = 1. -/
theorem test_register_faults :
    faultOf (step { State.reset with host := [.regRead 0x0C#8 2] }) = some .regAccess ∧
    faultOf (step { started [] 0#32 0 0 0 0 with host := [cmdWrite 0#32] }) = some .hostProtocol := by decide

/-- 20_memory.md R72: a host read of a byte nobody wrote; R75: an engine read of one. -/
theorem test_undefined_reads :
    faultOf (step { State.reset with host := [.memRead 0x2000#32] }) = some .hostUndefRead ∧
    faultOf (exec .encode (running [] 0x1#32 0x1000#32 1#32 0x2000#32 2#32 [.unit 0] 0)) = some .undefRead := by decide

/-- The fetch word starts exactly its command (42_dispatch.md R190). -/
theorem test_with_fetch_word :
    field (fun t => t.status) (step (State.reset.withFetchWord 32 0x31)) = some 0x02#32 ∧
    (State.reset.withFetchWord 32 0x31).cmd = 0x31#32 := by decide

/-! ## Witnesses: for every statement with hypotheses, a state and operands that meet all of them together -/

/-- An ENCODE of two bytes about to make its checks. -/
def encChecking : State := started (bytesAt 0x1000 [0x01#8, 0xFF#8]) 0x1#32 0x1000#32 2#32 0x2000#32 0#32

/-- An ENCODE_TO_BUF of one byte at the top of memory, its one unit to come. -/
def encRunning : State := running (bytesAt 0xFFFFFFFF [0xAB#8]) 0x2#32 0xFFFFFFFF#32 1#32 0x2000#32 2#32 [.unit 0] 0

/-- A DECODE of "0g" with a Def destination byte, its one unit to come. -/
def decFailing : State :=
  running (bytesAt 0x1000 [0x30#8, 0x67#8] ++ bytesAt 0x2000 [0xEE#8]) 0x3#32 0x1000#32 2#32 0x2000#32 1#32 [.unit 0] 0

/-- A DECODE_TO_BUF of "9A", its one unit to come. -/
def decRunning : State := running (bytesAt 0x1000 [0x39#8, 0x41#8]) 0x4#32 0x1000#32 2#32 0x2000#32 1#32 [.unit 0] 0

/-- A DECODE of a text about to make its checks. -/
def decChecking (text : List Byte) : State :=
  started (bytesAt 0x1000 text) 0x3#32 0x1000#32 (BitVec.ofNat 32 text.length) 0x2000#32 0#32

/-- The host about to start a command in the state after reset, the engine to move next. -/
def commanding (word : Word) : State := { State.reset with host := [cmdWrite word, .pass] }

/-- O4 (IllegalWords). -/
theorem witness_illegal_words :
    (scalarParams.wf = true ∧ scalarParams.family = .scalar ∧ opField 0x411#32 = 0x11#8 ∧ opField 0xF12#32 = 0x12#8) ∧
    ((commanding 0x711#32).phase = .idle ∧ (commanding 0x711#32).busy = false ∧
      (commanding 0x711#32).host = cmdWrite 0x711#32 :: .pass :: [] ∧
      illegalWord (commanding 0x711#32).params 0x711#32 = true) := by decide

/-- O5 (StepRunsTheDecodedCommand), clause by clause. -/
theorem witness_step_runs :
    (encRunning.host = [] ∧ encRunning.phase ≠ .idle ∧ decodeWord encRunning.latch.cmd = .ok .encodeToBuf) ∧
    ({ encRunning with host := [.pass] }.host = .pass :: []) ∧
    ((started [] 0x101#32 0 0 0 0).host = [] ∧ (started [] 0x101#32 0 0 0 0).phase ≠ .idle ∧
      decodeWord (started [] 0x101#32 0 0 0 0).latch.cmd = .error .wselNotZero) ∧
    (State.reset.host = [] ∧ State.reset.phase = .idle) ∧
    ((commanding 0#32).host = cmdWrite 0#32 :: [.pass] ∧ cmdWrite 0#32 ≠ .pass) := by decide

/-- O6 (CommandStart): both clauses, the second with a step that ends the command. -/
theorem witness_command_start :
    ((commanding 0x1#32).phase = .idle ∧ (commanding 0x1#32).busy = false ∧
      (commanding 0x1#32).host = cmdWrite 0x1#32 :: [.pass]) ∧
    (encRunning.phase ≠ .idle ∧ encRunning.status = 0x00000001#32 ∧ ∃ t, step encRunning = .next t) :=
  ⟨by decide, by decide, by decide, _, rfl⟩

/-- O7 (CompletionWritesStatus): a step that ends the command, and one that does not. -/
theorem witness_completion :
    (encRunning.phase ≠ .idle ∧ ∃ t, exec .encodeToBuf encRunning = .next t ∧ t.phase = .idle) ∧
    (encChecking.phase ≠ .idle ∧ ∃ t, exec .encode encChecking = .next t ∧ t.phase = .run) :=
  ⟨⟨by decide, _, rfl, by decide⟩, by decide, _, rfl, by decide⟩

/-- O8 to O10 (NopCompletes, LutHexReadsHexLut, LutNibReadsNibLut). -/
theorem witness_one_step_commands :
    (started [] 0x31#32 0 0 0 0).phase = .check ∧
    (opField 0x100#32 = 0x00#8 ∧ (0x100#32 : Word) ≠ 0) ∧
    (opField 0x131#32 = 0x31#8 ∧ (0x131#32 : Word) ≠ 0x31#32) ∧
    (opField 0x1032#32 = 0x32#8 ∧ (0x1032#32 : Word) ≠ 0x32#32) ∧
    ((commanding 0x32#32).phase = .idle ∧ (commanding 0x32#32).busy = false ∧
      (commanding 0x32#32).host = cmdWrite 0x32#32 :: .pass :: []) := by decide

/-- O11 to O14 (the CHECK steps of the eight commands with a length operand): their hypotheses only name operands. -/
theorem witness_check_steps :
    encChecking.phase = .check ∧ encChecking.latch.srcLen.toNat = 2 ∧ encChecking.latch.srcAddr.toNat = 0x1000 ∧
    encChecking.latch.dstAddr.toNat = 0x2000 ∧ encChecking.latch.dstLen.toNat = 0 ∧
    (Instr.encScalar, [Item.unit 0, Item.unit 1]) ∈ [(Instr.encodeToBuf, schedule 2 Params.default.widths 1),
      (Instr.encScalar, (List.range 2).map Item.unit)] ∧
    (Instr.decScalar, [Item.unit 0]) ∈ [(Instr.decodeToBuf, schedule 2 Params.default.widths 2),
      (Instr.decScalar, (List.range (2 / 2)).map (fun k => Item.unit (2 * k)))] := by decide

/-- O15 (ChunkCheckStep). -/
theorem witness_chunk_check :
    encChecking.phase = .check ∧ 2 ^ (4 : BitVec 4).toNat = 16 ∧ encChecking.latch.srcAddr.toNat = 0x1000 ∧
    encChecking.latch.dstAddr.toNat = 0x2000 ∧
    (Instr.decChunk 4, 8) ∈ [(Instr.encChunk 4, 2 * 16), (Instr.decChunk 4, 16 / 2)] := by decide

/-- O16 (EncodeRunStep), its item at the top of memory. -/
theorem witness_encode_run :
    Instr.encodes .encodeToBuf = true ∧ encRunning.phase = .run ∧ encRunning.sched[encRunning.idx]? = some (.unit 0) ∧
    holdsBytes encRunning (encRunning.latch.srcAddr.toNat + (Item.unit 0).offset) ((Item.unit 0).count 1) [0xAB#8] ∧
    encRunning.latch.dstAddr.toNat + 2 * (Item.unit 0).offset + 2 * (Item.unit 0).count 1 ≤ encRunning.memTop :=
  ⟨by decide, by decide, by decide, ⟨by decide, by decide⟩, by decide⟩

/-- O17 (DecodeRunStepValid). -/
theorem witness_decode_run_valid :
    Instr.decodes .decodeToBuf = true ∧ decRunning.phase = .run ∧ decRunning.sched[decRunning.idx]? = some (.unit 0) ∧
    holdsBytes decRunning (decRunning.latch.srcAddr.toNat + (Item.unit 0).offset) ((Item.unit 0).count 2)
      [0x39#8, 0x41#8] ∧
    decChars [0x39#8, 0x41#8] = some [0x9A#8] ∧
    decRunning.latch.dstAddr.toNat + (Item.unit 0).offset / 2 + [0x9A#8].length ≤ decRunning.memTop :=
  ⟨by decide, by decide, by decide, ⟨by decide, by decide⟩, by decide, by decide⟩

/-- O18 (DecodeRunStepInvalid), for a command of several items and for DEC_CHUNK. -/
theorem witness_decode_run_invalid :
    Instr.decodes .decode = true ∧ Instr.isChunk .decode = false ∧ Instr.decodes (.decChunk 4) = true ∧
    Instr.isChunk (.decChunk 4) = true ∧ decFailing.phase = .run ∧
    decFailing.sched[decFailing.idx]? = some (.unit 0) ∧ (Item.unit 0).count 2 % 2 = 0 ∧
    holdsBytes decFailing (decFailing.latch.srcAddr.toNat + (Item.unit 0).offset) ((Item.unit 0).count 2)
      [0x30#8, 0x67#8] ∧ ∃ c ∈ [0x30#8, 0x67#8], validChar c = false :=
  ⟨by decide, by decide, by decide, by decide, by decide, by decide, by decide, ⟨by decide, by decide⟩, by decide⟩

/-- O19 (UndefinedSourceFaults), for an encode and a decode command; the last byte of the item is Undef. -/
theorem witness_undefined_source :
    (let s := running [] 0x1#32 0x1000#32 1#32 0x2000#32 2#32 [.unit 0] 0
     Instr.encodes .encode = true ∧ s.phase = .run ∧ s.sched[s.idx]? = some (.unit 0) ∧
     s.latch.srcAddr.toNat + (Item.unit 0).offset + (Item.unit 0).count 1 ≤ s.memTop ∧
     inRegion 0x1000 (s.latch.srcAddr.toNat + (Item.unit 0).offset) ((Item.unit 0).count 1) = true ∧
     s.mem.read 0x1000 = none) ∧
    (let s := running (bytesAt 0x1000 [0x30#8]) 0x3#32 0x1000#32 2#32 0x2000#32 1#32 [.unit 0] 0
     Instr.decodes .decode = true ∧ s.phase = .run ∧ s.sched[s.idx]? = some (.unit 0) ∧
     s.latch.srcAddr.toNat + (Item.unit 0).offset + (Item.unit 0).count 2 ≤ s.memTop ∧
     inRegion 0x1001 (s.latch.srcAddr.toNat + (Item.unit 0).offset) ((Item.unit 0).count 2) = true ∧
     s.mem.read 0x1001 = none) := by decide

/-- O20 (EncodeCommandResult). -/
theorem witness_encode_command :
    encChecking.params.wf = true ∧ encChecking.host = [] ∧ encChecking.phase = .check ∧
    decodeWord encChecking.latch.cmd = .ok .encode ∧ Instr.wf encChecking.params .encode = true ∧
    Instr.encodes .encode = true ∧
    quantitiesOf encChecking.params encChecking.latch .encode = some (quantEncode encChecking.params encChecking.latch) ∧
    checksPass (quantEncode encChecking.params encChecking.latch) encChecking = true ∧
    encChecking.mem.readBytes encChecking.latch.srcAddr.toNat
      (quantEncode encChecking.params encChecking.latch).srcLen = some [0x01#8, 0xFF#8] := by decide

/-- O21 (DecodeCommandAccepts): "0aF9". -/
theorem witness_decode_accepts :
    let text : List Byte := [0x30#8, 0x61#8, 0x46#8, 0x39#8]
    let s := decChecking text
    s.params.wf = true ∧ s.host = [] ∧ s.phase = .check ∧ decodeWord s.latch.cmd = .ok .decode ∧
    Instr.wf s.params .decode = true ∧ Instr.decodes .decode = true ∧
    quantitiesOf s.params s.latch .decode = some (quantDecode s.params s.latch) ∧
    checksPass (quantDecode s.params s.latch) s = true ∧
    s.mem.readBytes s.latch.srcAddr.toNat (quantDecode s.params s.latch).srcLen = some text ∧
    ∀ c ∈ text, validChar c = true := by decide

/-- O22 (DecodeCommandRejects): ':' in the last place. -/
theorem witness_decode_rejects :
    let text : List Byte := [0x30#8, 0x61#8, 0x46#8, 0x3A#8]
    let s := decChecking text
    s.params.wf = true ∧ s.host = [] ∧ s.phase = .check ∧ decodeWord s.latch.cmd = .ok .decode ∧
    Instr.wf s.params .decode = true ∧ Instr.decodes .decode = true ∧
    quantitiesOf s.params s.latch .decode = some (quantDecode s.params s.latch) ∧
    checksPass (quantDecode s.params s.latch) s = true ∧
    s.mem.readBytes s.latch.srcAddr.toNat (quantDecode s.params s.latch).srcLen = some text ∧
    ∃ c ∈ text, validChar c = false := by decide

/-- O23 (FamilyInvariance): the default block and the SCALAR block. -/
theorem witness_family_invariance :
    encChecking.params.wf = true ∧ scalarParams.wf = true ∧ scalarParams.aw = encChecking.params.aw ∧
    encChecking.host = [] ∧ encChecking.phase = .check ∧ decodeWord encChecking.latch.cmd = .ok .encode ∧
    Instr.isChunk .encode = false ∧
    ∀ q, quantitiesOf encChecking.params encChecking.latch .encode = some q → checksPass q encChecking = true →
      sourceDefined q encChecking = true := by
  refine ⟨by decide, by decide, by decide, by decide, by decide, by decide, by decide, ?_⟩
  intro q hq _
  cases hq
  decide

/-- O24 (EncodeThenDecode): the decoded bytes go to 0x3000. -/
theorem witness_encode_then_decode :
    encChecking.params.wf = true ∧ encChecking.host = [] ∧ encChecking.phase = .check ∧
    decodeWord encChecking.latch.cmd = .ok .encode ∧
    quantitiesOf encChecking.params encChecking.latch .encode = some (quantEncode encChecking.params encChecking.latch) ∧
    checksPass (quantEncode encChecking.params encChecking.latch) encChecking = true ∧
    encChecking.mem.readBytes encChecking.latch.srcAddr.toNat
      (quantEncode encChecking.params encChecking.latch).srcLen = some [0x01#8, 0xFF#8] ∧
    (0x3000#32 : Word).toNat + 2 ≤ encChecking.memTop ∧
    overlap encChecking.latch.dstAddr.toNat (2 * 2) (0x3000#32 : Word).toNat 2 = false := by decide

/-- The invariant holds of a state in each phase. -/
theorem witness_inv_check : Inv encChecking :=
  ⟨by decide, by decide, by decide, by decide, by decide, by decide, by decide, by decide, by decide⟩

theorem witness_inv_run : Inv encRunning :=
  ⟨by decide, by decide, by decide, by decide, by decide, by decide, by decide, by decide, by decide⟩

theorem witness_inv_idle : Inv (commanding 0x1#32) :=
  ⟨by decide, by decide, by decide, by decide, by decide, by decide, by decide, by decide, by decide⟩

/-- An ENCODE_TO_BUF whose source byte is Undef, its one unit to come. -/
theorem witness_inv_undefined : Inv (running [] 0x2#32 0x1000#32 1#32 0x2000#32 2#32 [.unit 0] 0) :=
  ⟨by decide, by decide, by decide, by decide, by decide, by decide, by decide, by decide, by decide⟩

/-- O25 (CommandsTerminate). -/
theorem witness_commands_terminate : Inv encRunning ∧ encRunning.host = [] := ⟨witness_inv_run, by decide⟩

/-- O26 (WaitEnds). -/
theorem witness_wait_ends :
    Inv { encRunning with host := hexWait ++ [HostEvent.regRead 0x0C#8 4] } ∧
    { encRunning with host := hexWait ++ [HostEvent.regRead 0x0C#8 4] }.host =
      hexWait ++ [HostEvent.regRead 0x0C#8 4] :=
  ⟨⟨by decide, by decide, by decide, by decide, by decide, by decide, by decide, by decide, by decide⟩, rfl⟩

/-- O27 (RegisterReads), for the last register of the map and while a command is in progress. -/
theorem witness_register_reads :
    let s := { encRunning with host := [.regRead 0x2C#8 4] }
    ((0x2C#8, s.result) ∈ [(0x00#8, s.params.idValue), (0x04#8, capsWord s.params), (0x08#8, s.cmd), (0x0C#8, s.status),
      (0x10#8, s.srcAddr), (0x14#8, s.srcLen), (0x18#8, s.dstAddr), (0x1C#8, s.dstLen), (0x20#8, s.errExpected),
      (0x24#8, s.errActual), (0x28#8, s.arg), (0x2C#8, s.result)]) ∧ s.host = .regRead 0x2C#8 4 :: [] := by decide

/-- O28 (ReservedAndReadOnly): the first and the last reserved offset, and the last read-only register. -/
theorem witness_reserved :
    (0x30 ≤ (0x30#8 : BitVec 8).toNat ∧ (0x30#8 : BitVec 8).toNat % 4 = 0) ∧
    (0x30 ≤ (0xFC#8 : BitVec 8).toNat ∧ (0xFC#8 : BitVec 8).toNat % 4 = 0) ∧
    { encRunning with host := [.regRead 0xFC#8 4] }.host = .regRead 0xFC#8 4 :: [] ∧
    { encRunning with host := [.regWrite 0x30#8 4 1#32] }.host = .regWrite 0x30#8 4 1#32 :: [] ∧
    (let s := { State.reset with host := [.regWrite 0x2C#8 4 1#32] }
     0x2C#8 ∈ [0x00#8, 0x04#8, 0x0C#8, 0x20#8, 0x24#8, 0x2C#8] ∧ s.busy = false ∧
     s.host = .regWrite 0x2C#8 4 1#32 :: []) := by decide

/-- O29 (OperandWrites): a word with bits above AW - 1 in a block with AW = 16, at each of the five registers. -/
theorem witness_operand_writes :
    let s : Nat → State := fun o =>
      { State.resetWith biasParams with host := [.regWrite (BitVec.ofNat 8 o) 4 0xABCD1234#32] }
    ∀ o ∈ [0x10, 0x14, 0x18, 0x1C, 0x28], (s o).params.wf = true ∧ (s o).busy = false ∧
      (s o).host = .regWrite (BitVec.ofNat 8 o) 4 0xABCD1234#32 :: [] := by decide

/-- O30 (BusyRegisterWrites): each clause at its boundary offset. -/
theorem witness_busy_writes :
    (let s := { encRunning with host := [.regWrite 0x2C#8 4 0#32] }
     (0x2C#8 : BitVec 8).toNat % 4 = 0 ∧ s.host = .regWrite 0x2C#8 4 0#32 :: [] ∧ (0x2C#8 : BitVec 8).toNat ≤ 0x2C ∧
     s.busy = true) ∧
    (let s := { encRunning with host := [.regWrite 0x30#8 4 0#32] }
     (0x30#8 : BitVec 8).toNat % 4 = 0 ∧ s.host = .regWrite 0x30#8 4 0#32 :: [] ∧ 0x30 ≤ (0x30#8 : BitVec 8).toNat) := by
  decide

/-- O31 (UnalignedRegisterAccess): a half-word access, and a word access at an unaligned offset. -/
theorem witness_unaligned :
    ((2 : Nat) ≠ 4 ∧ { encRunning with host := [.regRead 0x0C#8 2] }.host = .regRead 0x0C#8 2 :: []) ∧
    ((0x0E#8 : BitVec 8).toNat % 4 ≠ 0 ∧
      { encRunning with host := [.regWrite 0x0E#8 4 0#32] }.host = .regWrite 0x0E#8 4 0#32 :: []) := by decide

/-- O32 (CapsFields): the smallest and the largest admissible width, and AW at both ends of its range. -/
theorem witness_caps_fields :
    Params.wf { Params.default with aw := 1, widths := [32768, 2] } = true ∧ Params.wf Params.default = true ∧
    1 ≤ 1 ∧ 1 ≤ 15 ∧ 15 ≤ 15 := by decide

/-- O33 (HostMemoryAccess): while idle, and at an address outside both regions while a command is in progress. -/
theorem witness_host_memory :
    (let s := { State.reset with mem := bytesAt 0xFFFFFFFF [0x55#8], host := [.memRead 0xFFFFFFFF#32] }
     (0xFFFFFFFF#32 : Word).toNat < s.memTop ∧ s.busy = false ∧ s.host = .memRead 0xFFFFFFFF#32 :: [] ∧
     s.mem.read (0xFFFFFFFF#32 : Word).toNat = some 0x55#8) ∧
    (let s := { encRunning with host := [.memWrite 0x2002#32 0x55#8] }
     (0x2002#32 : Word).toNat < s.memTop ∧ inActiveSource s (0x2002#32 : Word).toNat = false ∧
     inActiveDest s (0x2002#32 : Word).toNat = false ∧ s.host = .memWrite 0x2002#32 0x55#8 :: []) ∧
    (let s := { encRunning with host := [.memRead 0x2002#32] }
     inActiveDest s (0x2002#32 : Word).toNat = false ∧ s.host = .memRead 0x2002#32 :: [] ∧
     s.mem.read (0x2002#32 : Word).toNat = none) := by decide

/-- O34 (DutiesWhileBusy): the last byte of the destination, and the source byte. -/
theorem witness_duties :
    (let s := { encRunning with host := [.otherWrite 0x2001#32 0#8] }
     s.busy = true ∧ (0x2001#32 : Word).toNat < s.memTop ∧ inActiveDest s (0x2001#32 : Word).toNat = true ∧
     s.host = .otherWrite 0x2001#32 0#8 :: []) ∧
    (let s := { encRunning with host := [.memRead 0xFFFFFFFF#32] }
     s.busy = true ∧ (0xFFFFFFFF#32 : Word).toNat < s.memTop ∧ inActiveSource s (0xFFFFFFFF#32 : Word).toNat = true ∧
     inActiveDest s (0xFFFFFFFF#32 : Word).toNat = false ∧
     s.mem.read (0xFFFFFFFF#32 : Word).toNat = some 0xAB#8 ∧ s.host = .memRead 0xFFFFFFFF#32 :: []) ∧
    { encRunning with host := [.memWrite 0xFFFFFFFF#32 0#8] }.host = .memWrite 0xFFFFFFFF#32 0#8 :: [] ∧
    { encRunning with host := [.memRead 0x2000#32] }.host = .memRead 0x2000#32 :: [] := by decide

/-- O35 (OutsideWritesCommute): the byte behind the destination region. -/
theorem witness_outside_writes :
    Inv encRunning ∧ encRunning.host = [] ∧ encRunning.phase ≠ .idle ∧ (0x2002#32 : Word).toNat < encRunning.memTop ∧
    inActiveSource encRunning (0x2002#32 : Word).toNat = false ∧
    inActiveDest encRunning (0x2002#32 : Word).toNat = false ∧
    ∃ t, step encRunning = .next t ∧ ∃ u, step { t with host := [.memWrite 0x2002#32 7#8] } = .next u :=
  ⟨witness_inv_run, by decide, by decide, by decide, by decide, by decide, _, rfl, _, rfl⟩

/-- O37 (ResetAbandonsTheCommand), with and without a command in progress. -/
theorem witness_reset :
    ({ State.reset with host := [.reset] }.host = .reset :: [] ∧ { State.reset with host := [.reset] }.busy = false) ∧
    ({ encRunning with host := [.reset] }.host = .reset :: [] ∧ { encRunning with host := [.reset] }.busy = true) := by
  decide

/-- O38 (ResetMeetsInv). -/
theorem witness_reset_params : scalarParams.wf = true ∧ Params.wf { Params.default with aw := 1 } = true := by decide

/-- O39 (StepKeepsInv) and O43 (EngineWritesOnlyDestination): a RUN step and the start of a command. -/
theorem witness_step_keeps_inv :
    (Inv encRunning ∧ ∃ t, step encRunning = .next t) ∧ (Inv (commanding 0x1#32) ∧ ∃ t, step (commanding 0x1#32) = .next t) ∧
    ∃ t, engineStep encRunning = .next t ∧ inActiveDest encRunning 0x1FFF = false :=
  ⟨⟨witness_inv_run, _, rfl⟩, ⟨witness_inv_idle, _, rfl⟩, _, rfl, by decide⟩

/-- O40 (StatusFields): in progress, and after a completion. -/
theorem witness_status_fields :
    Inv encRunning ∧ busyBit encRunning.status = true ∧ Inv (commanding 0x1#32) ∧ (commanding 0x1#32).phase = .idle :=
  ⟨witness_inv_run, by decide, witness_inv_idle, by decide⟩

/-- O41 (BuildParametersNeverChange). -/
theorem witness_build_parameters : ∃ t, step { encRunning with host := [.reset] } = .next t := ⟨_, rfl⟩

/-- O42 (EngineStopsOnlyAtUndefinedSource). -/
theorem witness_engine_stops :
    Inv (running [] 0x2#32 0x1000#32 1#32 0x2000#32 2#32 [.unit 0] 0) ∧
    engineStep (running [] 0x2#32 0x1000#32 1#32 0x2000#32 2#32 [.unit 0] 0) = .fault .undefRead :=
  ⟨witness_inv_undefined, rfl⟩

/-- O44 (EngineReadsOnlySource): a memory that differs in the destination, for each outcome. -/
theorem witness_engine_reads :
    (Inv encRunning ∧ (∀ x, inActiveSource encRunning x = true →
      (encRunning.mem.write 0x2000 0x77#8).read x = encRunning.mem.read x) ∧ ∃ t, engineStep encRunning = .next t) ∧
    (let s := running [] 0x2#32 0x1000#32 1#32 0x2000#32 2#32 [.unit 0] 0
     Inv s ∧ (∀ x, inActiveSource s x = true → (s.mem.write 0x2000 0x77#8).read x = s.mem.read x) ∧
     engineStep s = .fault .undefRead) := by
  refine ⟨⟨witness_inv_run, fun x hx => ?_, _, rfl⟩, witness_inv_undefined, fun x hx => ?_, rfl⟩
  · refine Memory.read_write_other _ _ ?_
    rintro rfl
    revert hx
    decide
  · refine Memory.read_write_other _ _ ?_
    rintro rfl
    revert hx
    decide

/-- O45 (RegisterFrame): a command that may write none of the registers named, with a next state. -/
theorem witness_register_frame :
    ∃ t, exec (.encChunk 4) (started [] 0x411#32 0x1000#32 0#32 0x2000#32 0#32) = .next t ∧
      Instr.encChunk 4 ≠ .encode ∧ Instr.encChunk 4 ≠ .decode ∧ Instr.encChunk 4 ≠ .lutHex ∧
      Instr.encChunk 4 ≠ .lutNib ∧ Instr.encChunk 4 ≠ .encodeToBuf ∧ Instr.encChunk 4 ≠ .encScalar ∧
      Instr.encChunk 4 ≠ .decodeToBuf ∧ Instr.encChunk 4 ≠ .decScalar :=
  ⟨_, rfl, by decide, by decide, by decide, by decide, by decide, by decide, by decide, by decide⟩

/-- O46 (CheckStepLeavesMemory): a CHECK step, and NOP in the phase RUN. -/
theorem witness_check_leaves_memory :
    (∃ t, exec .encode encChecking = .next t ∧ encChecking.phase ≠ .run) ∧
    ∃ t, exec .nop { encRunning with sched := [] } = .next t :=
  ⟨⟨_, rfl, by decide⟩, _, rfl⟩

/-- O47 (EncodeRunStepFrame). -/
theorem witness_encode_frame :
    Instr.encodes .encodeToBuf = true ∧ encRunning.phase = .run ∧ encRunning.sched[encRunning.idx]? = some (.unit 0) ∧
    ∃ t, exec .encodeToBuf encRunning = .next t ∧
      inRegion 0x2002 (encRunning.latch.dstAddr.toNat + 2 * (Item.unit 0).offset) (2 * (Item.unit 0).count 1) = false :=
  ⟨by decide, by decide, by decide, _, rfl, by decide⟩

/-- O48 (DecodeRunStepFrame): an item that succeeds, and one that fails. -/
theorem witness_decode_frame :
    (Instr.decodes .decodeToBuf = true ∧ decRunning.phase = .run ∧ decRunning.status = 0x00000001#32 ∧
      decRunning.sched[decRunning.idx]? = some (.unit 0) ∧
      ∃ t, exec .decodeToBuf decRunning = .next t ∧ t.status ≠ 0x00000032#32) ∧
    (Instr.decodes .decode = true ∧ decFailing.phase = .run ∧ decFailing.status = 0x00000001#32 ∧
      decFailing.sched[decFailing.idx]? = some (.unit 0) ∧
      ∃ t, exec .decode decFailing = .next t ∧ t.status = 0x00000032#32) :=
  ⟨⟨by decide, by decide, by decide, by decide, _, rfl, by decide⟩,
    by decide, by decide, by decide, by decide, _, rfl, by decide⟩

/-- O49 (ScheduleFollowsTheCascade): each clause where its condition begins to hold. -/
theorem witness_schedule :
    (([] : List Nat) = [] ∧ 15 < leastWidth [64, 32, 16]) ∧ ([64, 32, 16] ≠ [] ∧ leastWidth [64, 32, 16] ≤ 16) ∧
    0 < 16 := by decide

/-- O50, O51 (ScheduleCoversTheSource, ScheduleShape). -/
theorem witness_schedule_sets :
    Params.default.wf = true ∧ scalarParams.wf = true ∧ scalarParams.widths = [] ∧ 126 % 2 = 0 ∧ 17 % 1 = 0 := by decide

/-- O54 (ClassifiersAgree): the last digit, the byte behind it, and the first byte from 0x80 on. -/
theorem witness_classifiers :
    validChar 0x39#8 = true ∧ validChar 0x3A#8 = false ∧ 0x80 ≤ (0x80#8 : Byte).toNat := by decide

/-- O56 (DecodeKernelsAgree), O57, O58 (EncodeRendering, DecodeValue). -/
theorem witness_kernels :
    [0x39#8, 0x41#8].length % 2 = 0 ∧ ([0xAB#8] : List Byte)[0]? = some 0xAB#8 ∧
    decChars [0x39#8, 0x41#8] = some [0x9A#8] ∧ ([0x39#8, 0x41#8] : List Byte)[2 * 0]? = some 0x39#8 ∧
    ([0x39#8, 0x41#8] : List Byte)[2 * 0 + 1]? = some 0x41#8 := by decide

/-- O59 (ItemsWriteSlices): the last byte of two, the last pair of two. -/
theorem witness_slices :
    (Item.unit 1).offset + (Item.unit 1).count 1 ≤ [0x01#8, 0x02#8].length ∧
    (let text : List Byte := [0x30#8, 0x31#8, 0x30#8, 0x32#8]
     (Item.unit 2).offset + (Item.unit 2).count 2 ≤ text.length ∧ (Item.unit 2).offset % 2 = 0 ∧
     (Item.unit 2).count 2 % 2 = 0 ∧ decChars text = some [0x01#8, 0x02#8]) := by decide

end Sys2Proof.Tests
end

section
/-!
The register port (10_state.md R31, R44, R51 to R53): what an aligned 32-bit access does, and the obligations O27, O28
and O30 about it.
-/

namespace Sys2Proof.Machine

/-! ## Rules of the register window -/

theorem alignedAccess_word {offset : BitVec 8} (h : offset.toNat % 4 = 0) : alignedAccess offset 4 = true := by
  simp [alignedAccess, h]

/-- R44: the offsets behind the last register of the map hold no register. -/
theorem regValue_reserved (s : State) {offset : BitVec 8} (h : 0x30 ≤ offset.toNat) : regValue s offset = 0 := by
  have behind {r : BitVec 8} (hr : r.toNat < 0x30) : offset ≠ r := by
    rintro rfl
    omega
  simp [regValue, behind]

/-- R44: the six registers of the map that no write changes. -/
theorem writeReg_readOnly (s : State) (w : Word) {offset : BitVec 8}
    (h : offset ∈ [0x00#8, 0x04#8, 0x0C#8, 0x20#8, 0x24#8, 0x2C#8]) : writeReg s offset w = s := by
  simp only [List.mem_cons, List.not_mem_nil, or_false] at h
  obtain rfl | rfl | rfl | rfl | rfl | rfl := h <;> rfl

/-! ## Aligned 32-bit accesses -/

theorem hostRegRead_aligned (s : State) {offset : BitVec 8} (hal : offset.toNat % 4 = 0) :
    hostRegRead s offset 4 = .next { s with hostData := regValue s offset } :=
  if_pos (alignedAccess_word hal)

section
variable {s : State} {offset : BitVec 8}

theorem hostRegWrite_reserved (hal : offset.toNat % 4 = 0) (hres : 0x30 ≤ offset.toNat) (w : Word) :
    hostRegWrite s offset 4 w = .next s := by
  rw [hostRegWrite, if_pos (alignedAccess_word hal), if_pos hres]

theorem hostRegWrite_busy (hal : offset.toNat % 4 = 0) (hmap : offset.toNat < 0x30) (hbusy : s.busy = true)
    (w : Word) : hostRegWrite s offset 4 w = .fault .hostProtocol := by
  rw [hostRegWrite, if_pos (alignedAccess_word hal), if_neg (Nat.not_le.mpr hmap), if_pos hbusy]

theorem hostRegWrite_idle (hal : offset.toNat % 4 = 0) (hmap : offset.toNat < 0x30) (hidle : s.busy = false)
    (w : Word) : hostRegWrite s offset 4 w = .next (writeReg s offset w) := by
  rw [hostRegWrite, if_pos (alignedAccess_word hal), if_neg (Nat.not_le.mpr hmap), if_neg (by simp [hidle])]

end

/-! ## Pending register accesses, as steps of the machine -/

section
variable {s : State} {rest : List HostEvent} {offset : BitVec 8} {size : Nat}

theorem step_regRead (h : s.host = .regRead offset size :: rest) :
    step s = hostRegRead { s with host := rest } offset size :=
  step_host h (by simp)

theorem step_regWrite {w : Word} (h : s.host = .regWrite offset size w :: rest) :
    step s = hostRegWrite { s with host := rest } offset size w :=
  step_host h (by simp)

/-- R51, busy or not. -/
theorem step_regRead_aligned (hal : offset.toNat % 4 = 0) (h : s.host = .regRead offset 4 :: rest) :
    step s = .next { s with host := rest, hostData := regValue s offset } :=
  (step_regRead h).trans (hostRegRead_aligned _ hal)

/-- R44, R53: at a reserved offset a write is ignored, busy or not. -/
theorem step_regWrite_reserved {w : Word} (hal : offset.toNat % 4 = 0) (hres : 0x30 ≤ offset.toNat)
    (h : s.host = .regWrite offset 4 w :: rest) : step s = .next { s with host := rest } :=
  (step_regWrite h).trans (hostRegWrite_reserved hal hres w)

/-- R53: no register of the map may be written while BUSY = 1. -/
theorem step_regWrite_busy {w : Word} (hal : offset.toNat % 4 = 0) (hmap : offset.toNat < 0x30)
    (hbusy : s.busy = true) (h : s.host = .regWrite offset 4 w :: rest) : step s = .fault .hostProtocol :=
  (step_regWrite h).trans (hostRegWrite_busy (s := { s with host := rest }) hal hmap hbusy w)

/-- R52, R44: while BUSY = 0 a write to the map does what `writeReg` says. -/
theorem step_regWrite_idle {w : Word} (hal : offset.toNat % 4 = 0) (hmap : offset.toNat < 0x30)
    (hidle : s.busy = false) (h : s.host = .regWrite offset 4 w :: rest) :
    step s = .next (writeReg { s with host := rest } offset w) :=
  (step_regWrite h).trans (hostRegWrite_idle (s := { s with host := rest }) hal hmap hidle w)

end

/-! ## The obligations -/

/-- Settles O27: the twelve offsets are aligned, and `regValue` gives each its register. -/
theorem registerReads : Obligations.RegisterReads := by
  intro s rest offset value hmem hhost
  have hreg : offset.toNat % 4 = 0 ∧ regValue s offset = value := by
    simp only [List.mem_cons, Prod.mk.injEq, List.not_mem_nil, or_false] at hmem
    rcases hmem with ⟨rfl, rfl⟩ | ⟨rfl, rfl⟩ | ⟨rfl, rfl⟩ | ⟨rfl, rfl⟩ | ⟨rfl, rfl⟩ | ⟨rfl, rfl⟩ | ⟨rfl, rfl⟩ |
      ⟨rfl, rfl⟩ | ⟨rfl, rfl⟩ | ⟨rfl, rfl⟩ | ⟨rfl, rfl⟩ | ⟨rfl, rfl⟩ <;> exact ⟨rfl, rfl⟩
  obtain ⟨hal, rfl⟩ := hreg
  exact step_regRead_aligned hal hhost

/-- Settles O28: reserved offsets lie behind the map, and an accepted write to a read-only register changes nothing. -/
theorem reservedAndReadOnly : Obligations.ReservedAndReadOnly := by
  refine ⟨fun s rest offset hres hal => ⟨fun hhost => ?_, fun w hhost => ?_⟩,
    fun s rest offset w hro hidle hhost => ?_⟩
  · rw [step_regRead_aligned hal hhost, regValue_reserved s hres]
  · exact step_regWrite_reserved hal hres hhost
  · have hoffsets : ∀ o ∈ [0x00#8, 0x04#8, 0x0C#8, 0x20#8, 0x24#8, 0x2C#8], o.toNat % 4 = 0 ∧ o.toNat < 0x30 := by
      decide
    obtain ⟨hal, hmap⟩ := hoffsets offset hro
    rw [step_regWrite_idle hal hmap hidle hhost, writeReg_readOnly _ w hro]

/-- Settles O30: offset 0x30 parts the registers, which a busy block defends, from the reserved offsets. -/
theorem busyRegisterWrites : Obligations.BusyRegisterWrites := by
  intro s rest offset w hal hhost
  refine ⟨fun hle hbusy => ?_, fun hres => ?_⟩
  · have hmap : offset.toNat < 0x30 := by omega
    exact step_regWrite_busy hal hmap hbusy hhost
  · exact step_regWrite_reserved hal hres hhost

end Sys2Proof.Machine
end

section
/-!
Accesses to the data memory (20_memory.md R70 to R76): an engine read that meets an Undef source byte, what a host
read and a host write of one byte do, and the obligations O19 and O33 about them.
-/

namespace Sys2Proof.Machine

/-! ## Reads that meet an Undef byte -/

/-- One Undef byte leaves a read of several bytes without a value. -/
theorem Memory.readBytes_eq_none {m : Memory} {addr n x : Nat} (hx : inRegion x addr n = true)
    (hundef : m.read x = none) : m.readBytes addr n = none := by
  simp only [inRegion, Bool.and_eq_true, decide_eq_true_eq] at hx
  obtain ⟨hlo, hhi⟩ := hx
  cases hbs : m.readBytes addr n with
  | none => rfl
  | some bs =>
    obtain ⟨hlen, hread⟩ := (Memory.readBytes_eq_some m addr n bs).mp hbs
    have hbyte := hread (x - addr) (by omega)
    rw [Nat.add_sub_cancel' hlo, hundef] at hbyte
    have hend : bs.length ≤ x - addr := List.getElem?_eq_none_iff.mp hbyte.symm
    omega

/-- R75, inside the data memory. -/
theorem memRead_undef {s : State} {addr n x : Nat} (hfit : addr + n ≤ s.memTop) (hx : inRegion x addr n = true)
    (hundef : s.mem.read x = none) : memRead s addr n = .error .undefRead :=
  memRead_eq_error.mpr (.inr ⟨hfit, Memory.readBytes_eq_none hx hundef, rfl⟩)

section
variable {s : State} {item : Item} {f : Fault}

theorem encodeRun_of_memRead_error (hitem : s.sched[s.idx]? = some item)
    (hread : memRead s (s.latch.srcAddr.toNat + item.offset) (item.count 1) = .error f) :
    encodeRun s = .fault f := by
  simp only [encodeRun, hitem, hread]

theorem decodeRun_of_memRead_error (onFail : State → State) (hitem : s.sched[s.idx]? = some item)
    (hread : memRead s (s.latch.srcAddr.toNat + item.offset) (item.count 2) = .error f) :
    decodeRun onFail s = .fault f := by
  simp only [decodeRun, hitem, hread]

end

/-! ## Host accesses to one byte -/

section
variable {s : State} {a : Nat}

/-- R271, R273: while BUSY = 0, and at a byte outside both active regions, the host is under no duty. -/
theorem busy_and_active_eq_false
    (hfree : s.busy = false ∨ (inActiveSource s a = false ∧ inActiveDest s a = false)) :
    (s.busy && inActiveDest s a) = false ∧ (s.busy && (inActiveSource s a || inActiveDest s a)) = false := by
  rcases hfree with hidle | ⟨hsrc, hdst⟩
  · simp [hidle]
  · simp [hsrc, hdst]

theorem hostMemRead_def {b : Byte} (ha : a < s.memTop) (hduty : (s.busy && inActiveDest s a) = false)
    (hb : s.mem.read a = some b) : hostMemRead s a = .next { s with hostData := b.setWidth 32 } := by
  simp [hostMemRead, Nat.not_le.mpr ha, hduty, hb]

theorem hostMemRead_undef (ha : a < s.memTop) (hduty : (s.busy && inActiveDest s a) = false)
    (hundef : s.mem.read a = none) : hostMemRead s a = .fault .hostUndefRead := by
  simp [hostMemRead, Nat.not_le.mpr ha, hduty, hundef]

theorem busMemWrite_free (ha : a < s.memTop)
    (hduty : (s.busy && (inActiveSource s a || inActiveDest s a)) = false) (b : Byte) :
    busMemWrite s a b = .next { s with mem := s.mem.write a b } := by
  rw [busMemWrite, if_neg (Nat.not_le.mpr ha), if_neg (by simp [hduty])]

end

section
variable {s : State} {rest : List HostEvent} {a : Word}

theorem step_memRead (h : s.host = .memRead a :: rest) : step s = hostMemRead { s with host := rest } a.toNat :=
  step_host h (by simp)

theorem step_memWrite {b : Byte} (h : s.host = .memWrite a b :: rest) :
    step s = busMemWrite { s with host := rest } a.toNat b :=
  step_host h (by simp)

end

/-! ## The obligations -/

/-- Settles O19: the read of the item's source bytes has no value, and it is the first thing either kind of RUN step
does with the item. -/
theorem undefinedSourceFaults : Obligations.UndefinedSourceFaults := by
  intro i s item u x hkind hrun hitem hfit hx hundef
  have hread : memRead s (s.latch.srcAddr.toNat + item.offset) (item.count u) = .error .undefRead :=
    memRead_undef hfit hx hundef
  rcases hkind with ⟨henc, rfl⟩ | ⟨hdec, rfl⟩
  · exact (exec_run_encodes hrun henc).trans (encodeRun_of_memRead_error hitem hread)
  · exact (exec_run_decodes hrun hdec).trans (decodeRun_of_memRead_error _ hitem hread)

/-- Settles O33: no duty of the host covers the byte, so each access does what R72 says; taking the transaction off the
pending list changes neither the regions nor the memory. -/
theorem hostMemoryAccess : Obligations.HostMemoryAccess := by
  intro s rest a ha hfree
  obtain ⟨hread, hwrite⟩ := busy_and_active_eq_false (s := { s with host := rest }) hfree
  refine ⟨fun b hhost => ?_, fun b hhost hb => ?_, fun hhost hundef => ?_⟩
  · have hstep : step s = .next { s with host := rest, mem := s.mem.write a.toNat b } :=
      (step_memWrite hhost).trans (busMemWrite_free (s := { s with host := rest }) ha hwrite b)
    exact ⟨_, hstep, rfl, Memory.read_write_same _ _ _, fun _ hx => Memory.read_write_other _ _ hx⟩
  · exact (step_memRead hhost).trans (hostMemRead_def (s := { s with host := rest }) ha hread hb)
  · exact (step_memRead hhost).trans (hostMemRead_undef (s := { s with host := rest }) ha hread hundef)

end Sys2Proof.Machine
end

section
/-!
Dispatch (42_dispatch.md): the schedule (R200) and the obligation O49, the overlap predicate (R198) and O52, and the
start of a command up to its completion (R190, R195, R196) with O6.
-/

namespace Sys2Proof.Machine

/-! ## The schedule -/

section
variable {n w pos : Nat}

/-- R200, the while loop where one more chunk fits. -/
theorem chunksOf_of_fits (hw : 0 < w) (hfit : w ≤ n - pos) :
    chunksOf pos n w = Item.vec pos w :: chunksOf (pos + w) n w := by
  have hnext : (fun k => Item.vec (pos + k * w) w) ∘ Nat.succ = fun k => Item.vec (pos + w + k * w) w := by
    funext k
    simp only [Function.comp_apply, Nat.succ_mul]
    congr 1
    omega
  simp only [chunksOf, Nat.div_eq_sub_div hw hfit, List.range_succ_eq_map, List.map_cons, List.map_map, Nat.zero_mul,
    Nat.add_zero, Nat.sub_add_eq, hnext]

theorem posAfter_of_fits (hw : 0 < w) (hfit : w ≤ n - pos) : posAfter pos n w = posAfter (pos + w) n w := by
  rw [posAfter, posAfter, Nat.div_eq_sub_div hw hfit, Nat.succ_mul, Nat.sub_add_eq]
  omega

/-- R200, the while loop at its end. -/
theorem chunksOf_of_not_fits (hfit : ¬ w ≤ n - pos) : chunksOf pos n w = [] := by
  simp [chunksOf, Nat.div_eq_of_lt (Nat.lt_of_not_le hfit)]

theorem posAfter_of_not_fits (hfit : ¬ w ≤ n - pos) : posAfter pos n w = pos := by
  simp [posAfter, Nat.div_eq_of_lt (Nat.lt_of_not_le hfit)]

theorem cascade_of_fits (ws : List Nat) (hw : 0 < w) (hfit : w ≤ n - pos) :
    cascade n (w :: ws) pos =
      (Item.vec pos w :: (cascade n (w :: ws) (pos + w)).1, (cascade n (w :: ws) (pos + w)).2) := by
  simp only [cascade, chunksOf_of_fits hw hfit, posAfter_of_fits hw hfit, List.cons_append]

theorem cascade_of_not_fits (ws : List Nat) (hfit : ¬ w ≤ n - pos) : cascade n (w :: ws) pos = cascade n ws pos := by
  simp only [cascade, chunksOf_of_not_fits hfit, posAfter_of_not_fits hfit, List.nil_append]

end

section
variable {n : Nat} {ws : List Nat}

/-- R200: no width is supported, or the source is shorter than the least one. -/
theorem schedule_of_short (h : ws = [] ∨ n < leastWidth ws) (u : Nat) : schedule n ws u = scalarUnits n u := by
  rw [schedule, if_pos (by simpa using h)]

theorem schedule_of_fits (hne : ws ≠ []) (hfit : leastWidth ws ≤ n) (u : Nat) :
    schedule n ws u = vectorItems n ws := by
  rw [schedule, if_neg (by simp [hne, hfit])]

theorem vectorItems_eq_append (n : Nat) (ws : List Nat) :
    vectorItems n ws = (cascade n ws 0).1 ++
      (if (cascade n ws 0).2 < n then [Item.vec (n - leastWidth ws) (leastWidth ws)] else []) := by
  simp only [vectorItems]
  split
  · rfl
  · rw [List.append_nil]

end

/-- Settles O49: the chunk count of a width is a division, and one more chunk that fits is one more in the quotient. -/
theorem scheduleFollowsTheCascade : Obligations.ScheduleFollowsTheCascade := by
  refine ⟨fun n u ws hshort => schedule_of_short hshort u, fun n u ws hne hfit => ?_, fun n pos => rfl,
    fun n w pos ws hw => ?_, fun o w u => ⟨rfl, rfl, rfl, rfl⟩⟩
  · rw [schedule_of_fits hne hfit, vectorItems_eq_append]
  · split
    · next hfit => exact cascade_of_fits ws hw hfit
    · next hfit => exact cascade_of_not_fits ws hfit

/-! ## The overlap predicate -/

theorem overlap_iff {a la b lb : Nat} : overlap a la b lb = true ↔ 0 < la ∧ 0 < lb ∧ a < b + lb ∧ b < a + la := by
  simp only [overlap, Bool.and_eq_true, decide_eq_true_eq, and_assoc]

theorem inRegion_iff {x base len : Nat} : inRegion x base len = true ↔ base ≤ x ∧ x < base + len := by
  simp only [inRegion, Bool.and_eq_true, decide_eq_true_eq]

/-- Settles O52: of two overlapping regions the greater base lies in both. -/
theorem overlapIsASharedAddress : Obligations.OverlapIsASharedAddress := by
  intro a la b lb
  refine ⟨overlap_iff, ?_⟩
  simp only [overlap_iff, inRegion_iff]
  constructor
  · rintro ⟨hla, hlb, hab, hba⟩
    exact ⟨hla, hlb, max a b, by omega, by omega⟩
  · rintro ⟨hla, hlb, x, hxa, hxb⟩
    exact ⟨hla, hlb, by omega, by omega⟩

/-! ## STATUS from the start of a command to its completion -/

@[simp] theorem busyBit_statusDone (c : StatusCode) : busyBit (statusDone c) = false := by
  cases c <;> decide

@[simp] theorem doneBit_statusDone (c : StatusCode) : doneBit (statusDone c) = true := by
  cases c <;> decide

/-- A step of a command in progress leaves STATUS alone and goes on in RUN, or it completes the command (R195, R196). -/
def RunsOnOrCompletes (s t : State) : Prop :=
  (t.phase = .run ∧ t.status = s.status) ∨ ∃ r c, t = complete r c

theorem runsOnOrCompletes_complete (s r : State) (c : StatusCode) : RunsOnOrCompletes s (complete r c) :=
  .inr ⟨r, c, rfl⟩

theorem advance_runsOnOrCompletes {s : State} (hrun : s.phase = .run) : RunsOnOrCompletes s (advance s) := by
  obtain ⟨-, e⟩ | ⟨-, e⟩ := advance_cases s <;> rw [e]
  · exact .inl ⟨hrun, rfl⟩
  · exact runsOnOrCompletes_complete _ _ _

theorem checkStep_runsOnOrCompletes (q : Quantities) (s : State) : RunsOnOrCompletes s (checkStep q s) := by
  obtain ⟨c, e⟩ | ⟨c, -, e⟩ | ⟨-, e⟩ | ⟨-, -, e⟩ | ⟨-, -, e⟩ := checkStep_cases q s <;> rw [e]
  · exact runsOnOrCompletes_complete _ _ _
  · exact runsOnOrCompletes_complete _ _ _
  · exact runsOnOrCompletes_complete _ _ _
  · exact .inl ⟨rfl, rfl⟩
  · exact .inl ⟨rfl, rfl⟩

section
variable {s t : State}

theorem encodeRun_runsOnOrCompletes (hrun : s.phase = .run) (h : encodeRun s = .next t) : RunsOnOrCompletes s t := by
  obtain ⟨-, rfl⟩ | ⟨item, v, -, -, -, -, rfl⟩ := encodeRun_next h
  · exact runsOnOrCompletes_complete _ _ _
  · exact advance_runsOnOrCompletes hrun

theorem decodeRun_runsOnOrCompletes {onFail : State → State} (hfail : ∃ r c, onFail s = complete r c)
    (hrun : s.phase = .run) (h : decodeRun onFail s = .next t) : RunsOnOrCompletes s t := by
  obtain ⟨-, rfl⟩ | ⟨item, v, -, -, -, ⟨-, rfl⟩ | ⟨bs, -, -, rfl⟩⟩ := decodeRun_next h
  · exact runsOnOrCompletes_complete _ _ _
  · exact .inr hfail
  · exact advance_runsOnOrCompletes hrun

theorem exec_runsOnOrCompletes {i : Instr} (hp : s.phase ≠ .idle) (h : exec i s = .next t) :
    RunsOnOrCompletes s t := by
  obtain ⟨-, rfl⟩ | ⟨-, rfl⟩ | ⟨-, rfl⟩ | ⟨-, -, rfl⟩ | ⟨q, -, -, -, rfl⟩ | ⟨hrun, -, henc⟩ | ⟨hrun, -, hdec⟩ :=
    exec_next_cases hp h
  · exact runsOnOrCompletes_complete _ _ _
  · exact runsOnOrCompletes_complete _ _ _
  · exact runsOnOrCompletes_complete _ _ _
  · exact runsOnOrCompletes_complete _ _ _
  · exact checkStep_runsOnOrCompletes q s
  · exact encodeRun_runsOnOrCompletes hrun henc
  · refine decodeRun_runsOnOrCompletes ?_ hrun hdec
    split
    · exact ⟨_, _, rfl⟩
    · exact ⟨_, _, rfl⟩

theorem engineStep_runsOnOrCompletes (hp : s.phase ≠ .idle) (h : engineStep s = .next t) : RunsOnOrCompletes s t := by
  obtain ⟨hidle, -⟩ | ⟨-, -, rfl⟩ | ⟨i, -, -, hexec⟩ := engineStep_next_cases h
  · exact absurd hidle hp
  · exact runsOnOrCompletes_complete _ _ _
  · exact exec_runsOnOrCompletes hp hexec

/-- R53: while BUSY = 1 no transaction but the reset input changes STATUS. -/
theorem hostAct_status_of_busy {e : HostEvent} (hbusy : s.busy = true) (h : hostAct e s = .next t) :
    t.status = s.status ∨ e = .reset := by
  obtain rfl | ⟨v, events, rfl⟩ | ⟨offset, w, hidle, -⟩ | ⟨a, b, -, -, rfl⟩ | ⟨hreset, -⟩ := hostAct_next h
  · exact .inl rfl
  · exact .inl rfl
  · exact absurd hidle (by simp [hbusy])
  · exact .inl rfl
  · exact .inr hreset

/-- Every way a step can go on: the engine's, no transaction pending or the host giving it the turn, or one
transaction. -/
theorem step_next_cases (h : step s = .next t) :
    (∃ events, (s.host = [] ∧ events = [] ∨ s.host = .pass :: events) ∧
      engineStep { s with host := events } = .next t) ∨
    (∃ e rest, s.host = e :: rest ∧ e ≠ .pass ∧ hostAct e { s with host := rest } = .next t) := by
  cases hhost : s.host with
  | nil => exact .inl ⟨[], .inl ⟨rfl, rfl⟩, hhost ▸ step_engine hhost ▸ h⟩
  | cons e rest =>
    by_cases hpass : e = .pass
    · subst hpass
      exact .inl ⟨rest, .inr rfl, step_pass hhost ▸ h⟩
    · exact .inr ⟨e, rest, rfl, hpass, step_host hhost hpass ▸ h⟩

end

/-- R190: a CMD write to an idle block. -/
theorem step_cmdWrite_idle {s : State} {w : Word} {rest : List HostEvent} (hidle : s.busy = false)
    (h : s.host = cmdWrite w :: rest) : step s = .next (startCommand { s with host := rest } w) :=
  step_regWrite_idle (by decide) (by decide) hidle h

/-- Settles O6: the write is `startCommand`; then a step of the engine runs on or completes the command, and the host
may not write a register of a busy block. -/
theorem commandStart : Obligations.CommandStart := by
  refine ⟨fun s w rest _ hidle hhost => step_cmdWrite_idle hidle hhost, fun s t hp hstatus h => ?_⟩
  obtain ⟨events, -, hengine⟩ | ⟨e, rest, hhost, -, hact⟩ := step_next_cases h
  · obtain ⟨-, hkept⟩ | ⟨r, c, rfl⟩ := engineStep_runsOnOrCompletes (s := { s with host := events }) hp hengine
    · exact .inl (hkept.trans hstatus)
    · exact .inr (.inl ⟨rfl, busyBit_statusDone c, doneBit_statusDone c⟩)
  · have hbusy : State.busy { s with host := rest } = true := by
      rw [State.busy, hstatus]
      rfl
    obtain hkept | rfl := hostAct_status_of_busy hbusy hact
    · exact .inl (hkept.trans hstatus)
    · exact .inr (.inr ⟨rest, hhost⟩)

end Sys2Proof.Machine
end

section
/-!
Command words (30_encoding.md R100 to R107): the fields of a word make the word, a word decodes to the command its
fields name, and which words are legal; the obligations O1, O2 and O3.
-/

namespace Sys2Proof

/-! ## Fields and words -/

/-- R100: the three fields of a word are all of it. -/
theorem word_eq_of_fields {v w : Word} (hop : opField v = opField w) (hwsel : wselField v = wselField w)
    (hrsv : rsvField v = rsvField w) : v = w := by
  have hop' := congrArg BitVec.toNat hop
  have hwsel' := congrArg BitVec.toNat hwsel
  have hrsv' := congrArg BitVec.toNat hrsv
  simp only [opField, wselField, rsvField, BitVec.extractLsb'_toNat, Nat.shiftRight_eq_div_pow] at hop' hwsel' hrsv'
  apply BitVec.eq_of_toNat_eq
  omega

theorem encodeInstr_fields (i : Instr) : Laws.WordFields.Statement i := by
  cases i with
  | nop => exact Laws.WordFields.nop
  | encode => exact Laws.WordFields.encode
  | encodeToBuf => exact Laws.WordFields.encodeToBuf
  | decode => exact Laws.WordFields.decode
  | decodeToBuf => exact Laws.WordFields.decodeToBuf
  | encChunk wsel => exact Laws.WordFields.encChunk wsel
  | decChunk wsel => exact Laws.WordFields.decChunk wsel
  | encScalar => exact Laws.WordFields.encScalar
  | decScalar => exact Laws.WordFields.decScalar
  | lutHex => exact Laws.WordFields.lutHex
  | lutNib => exact Laws.WordFields.lutNib

/-- A command's word is the one word with its OP, its WSEL and RSV = 0. -/
theorem eq_encodeInstr_iff {w : Word} {i : Instr} :
    w = encodeInstr i ↔ opField w = opcode i ∧ wselField w = wselOf i ∧ rsvField w = 0 := by
  obtain ⟨hop, hwsel, hrsv⟩ := encodeInstr_fields i
  constructor
  · rintro rfl
    exact ⟨hop, hwsel, hrsv⟩
  · rintro ⟨hop', hwsel', hrsv'⟩
    exact word_eq_of_fields (hop'.trans hop.symm) (hwsel'.trans hwsel.symm) (hrsv'.trans hrsv.symm)

/-! ## Decoding -/

theorem plainCommand_eq_ok {wsel : BitVec 4} {i j : Instr} : plainCommand wsel j = .ok i ↔ wsel = 0 ∧ j = i := by
  unfold plainCommand
  split
  · next h => simp [h]
  · next h => simp [show ¬wsel = 0#4 from h]

/-- R102, R103: the map of OP values, each row with the WSEL values it admits. -/
theorem decodeOp_eq_ok {op : BitVec 8} {wsel : BitVec 4} {i : Instr} :
    decodeOp op wsel = .ok i ↔ op = opcode i ∧ wsel = wselOf i := by
  constructor
  · intro h
    unfold decodeOp at h
    split at h
    case h_6 => cases h; exact ⟨rfl, rfl⟩
    case h_7 => cases h; exact ⟨rfl, rfl⟩
    case h_12 => cases h
    all_goals
      obtain ⟨rfl, rfl⟩ := plainCommand_eq_ok.mp h
      exact ⟨rfl, rfl⟩
  · rintro ⟨rfl, rfl⟩
    cases i <;> rfl

/-- R103: the OP value of a command that takes no WSEL. -/
theorem decodeOp_plain {i : Instr} (hi : i.isChunk = false) (wsel : BitVec 4) :
    decodeOp (opcode i) wsel = plainCommand wsel i := by
  cases i with
  | encChunk v => cases hi
  | decChunk v => cases hi
  | _ => rfl

theorem decodeWord_eq_ok {w : Word} {i : Instr} : decodeWord w = .ok i ↔ w = encodeInstr i := by
  rw [eq_encodeInstr_iff, decodeWord]
  split
  · next h => simp [decodeOp_eq_ok, h]
  · next h => simp [show ¬rsvField w = 0#20 from h]

@[simp] theorem decodeWord_encodeInstr (i : Instr) : decodeWord (encodeInstr i) = .ok i :=
  decodeWord_eq_ok.mpr rfl

/-- Settles O1: both sides say that the fields of the word are the command's. -/
theorem wordDecodesIffEncoded : Obligations.WordDecodesIffEncoded :=
  fun _ _ => decodeWord_eq_ok

/-- Settles O2. -/
theorem sampleWordsDecode : Obligations.SampleWordsDecode := by
  unfold Obligations.SampleWordsDecode
  decide

/-! ## Legal words -/

theorem illegalWord_eq_false {p : Params} {w : Word} :
    illegalWord p w = false ↔ ∃ i : Instr, w = encodeInstr i ∧ i.wf p = true := by
  unfold illegalWord
  cases hd : decodeWord w with
  | ok i =>
    have hw : w = encodeInstr i := decodeWord_eq_ok.mp hd
    subst hw
    constructor
    · intro h
      exact ⟨i, rfl, by simpa using h⟩
    · rintro ⟨j, hj, hwf⟩
      obtain rfl : i = j := by simpa [hd] using congrArg decodeWord hj
      simpa using hwf
  | error e =>
    simp only [Bool.true_eq_false, false_iff, not_exists, not_and]
    rintro i rfl
    simp at hd

/-- A word with the OP of a command that takes no WSEL has a meaning only where it is that command's word (R103). -/
theorem illegalWord_of_opField {i : Instr} (hi : i.isChunk = false) (p : Params) {w : Word} (hop : opField w = opcode i)
    (hw : w ≠ encodeInstr i) : illegalWord p w = true := by
  by_contra hlegal
  obtain ⟨j, rfl, -⟩ := illegalWord_eq_false.mp (Bool.eq_false_iff.mpr hlegal)
  have hcode : opcode j = opcode i := (encodeInstr_fields j).1.symm.trans hop
  have hj : decodeOp (opcode j) (wselOf j) = .ok j := decodeOp_eq_ok.mpr ⟨rfl, rfl⟩
  rw [hcode, decodeOp_plain hi] at hj
  obtain ⟨-, rfl⟩ := plainCommand_eq_ok.mp hj
  exact hw rfl

/-- R103 in the default block: WSEL = 4, 5 and 6. -/
theorem supports_default (wsel : BitVec 4) :
    Params.default.supports wsel = true → wsel = 4 ∨ wsel = 5 ∨ wsel = 6 := by
  revert wsel
  decide

/-- Settles O3: a legal word is the word of one of the nine plain commands or of a chunk command with WSEL = 4, 5, 6. -/
theorem defaultLegalWords : Obligations.DefaultLegalWords := by
  intro w
  constructor
  · intro h
    obtain ⟨i, rfl, hwf⟩ := illegalWord_eq_false.mp h
    cases i with
    | encChunk wsel => obtain rfl | rfl | rfl := supports_default wsel hwf <;> decide
    | decChunk wsel => obtain rfl | rfl | rfl := supports_default wsel hwf <;> decide
    | _ => decide
  · intro h
    simp only [List.mem_cons, List.not_mem_nil, or_false] at h
    rcases h with rfl | rfl | rfl | rfl | rfl | rfl | rfl | rfl | rfl | rfl | rfl | rfl | rfl | rfl | rfl <;> decide

end Sys2Proof
end

section
/-!
Tables and kernels (40_encoder.md R120 to R129, 41_decoder.md R150 to R161): every method of every family gives the one
rendering ENC and the one value of a text, and the items of a schedule give slices of it; the obligations O53 to O59.
-/

namespace Sys2Proof.Machine

/-! ## The tables -/

theorem biasedAscii_eq_hexLutAt (n : BitVec 4) : biasedAscii n = hexLutAt n := by
  revert n
  decide

/-- R120. -/
theorem hexLutAt_eq (n : BitVec 4) :
    hexLutAt n = if n.toNat ≤ 9 then BitVec.ofNat 8 (0x30 + n.toNat) else BitVec.ofNat 8 (0x57 + n.toNat) := by
  revert n
  decide

/-- R150. -/
theorem nibLutAt_eq (c : Byte) :
    nibLutAt c =
      if 0x30 ≤ c.toNat ∧ c.toNat ≤ 0x39 then BitVec.ofNat 8 (c.toNat - 0x30)
      else if 0x41 ≤ c.toNat ∧ c.toNat ≤ 0x46 then BitVec.ofNat 8 (c.toNat - 0x37)
      else if 0x61 ≤ c.toNat ∧ c.toNat ≤ 0x66 then BitVec.ofNat 8 (c.toNat - 0x57)
      else 0xFF#8 := by
  revert c
  decide

theorem nibLut_length : nibLut.length = 256 := by
  have hrow : (List.replicate 9 nibRowNone).flatten.length = 144 := by
    rw [List.length_flatten, List.map_replicate, List.sum_replicate]
    rfl
  simp only [nibLut, List.length_append, hrow]
  rfl

/-- Settles O53. -/
theorem constantTables : Obligations.ConstantTables := by
  refine ⟨rfl, nibLut_length, by simp [permLo, nibLut_length], by simp [permHi, nibLut_length],
    fun n => ⟨biasedAscii_eq_hexLutAt n, hexLutAt_eq n⟩, nibLutAt_eq, fun i hi => ⟨?_, ?_⟩⟩
  · rw [permLo, List.getElem?_take_of_lt hi]
  · rw [permHi, List.getElem?_take_of_lt hi, List.getElem?_drop]

/-! ## Classification -/

/-- R151, R152. -/
theorem laneBias_of_valid (c : Byte) : validChar c = true → laneBias c = (true, nibLutAt c) := by
  revert c
  decide

theorem classify_nibble_of_valid (c : Byte) : validChar c = true → (classify c).nibble = some (nibLutAt c) := by
  revert c
  decide

theorem laneBias_of_invalid (c : Byte) : validChar c = false → (laneBias c).1 = false := by
  revert c
  decide

theorem nibLutAt_eq_sentinel_iff (c : Byte) : nibLutAt c = sentinel ↔ validChar c = false := by
  revert c
  decide

theorem nibLutAt_lt_of_valid (c : Byte) : validChar c = true → (nibLutAt c).toNat < 16 := by
  revert c
  decide

/-- R158. -/
theorem permLookup_eq_nibLutAt (c : Byte) : permLookup c = nibLutAt c := by
  revert c
  decide

/-- R151. -/
theorem validChar_iff (c : Byte) :
    validChar c = true ↔ (0x30 ≤ c.toNat ∧ c.toNat ≤ 0x39) ∨ (0x41 ≤ c.toNat ∧ c.toNat ≤ 0x46) ∨
      (0x61 ≤ c.toNat ∧ c.toNat ≤ 0x66) := by
  revert c
  decide

/-- Settles O54. -/
theorem classifiersAgree : Obligations.ClassifiersAgree := by
  intro c
  refine ⟨fun h => ⟨laneBias_of_valid c h, classify_nibble_of_valid c h⟩,
    fun h => ⟨laneBias_of_invalid c h, (nibLutAt_eq_sentinel_iff c).mpr h⟩, permLookup_eq_nibLutAt c, fun h => ?_,
    validChar_iff c⟩
  by_contra hvalid
  have := (validChar_iff c).mp (by simpa using hvalid)
  omega

/-! ## Encoding -/

theorem encLane_eq_hexLutAt (f : Family) (n : BitVec 4) : encLane f n = hexLutAt n := by
  cases f with
  | portable => exact biasedAscii_eq_hexLutAt n
  | _ => rfl

/-- R126. -/
theorem encVec_eq_encBytes (f : Family) (s : List Byte) : encVec f s = encBytes s := by
  induction s with
  | nil => rfl
  | cons b s ih =>
    simp only [encVec, List.map_cons, interleave, encLane_eq_hexLutAt, encBytes, encByte, List.cons_append,
      List.nil_append] at ih ⊢
    rw [ih]

/-- R127. -/
theorem flatMap_encUnit (s : List Byte) : s.flatMap encUnit = encBytes s := by
  induction s with
  | nil => rfl
  | cons b s ih => rw [List.flatMap_cons, ih, encBytes, encUnit]

/-- Settles O55. -/
theorem encodeKernelsAgree : Obligations.EncodeKernelsAgree :=
  fun f s => ⟨encVec_eq_encBytes f s, flatMap_encUnit s⟩

/-- R128: an item of either kind writes ENC of what it reads. -/
theorem encItem_eq_encBytes (f : Family) (item : Item) (v : List Byte) : encItem f item v = encBytes v := by
  cases item with
  | vec o w => exact encVec_eq_encBytes f v
  | unit o => exact flatMap_encUnit v

@[simp] theorem encBytes_length (s : List Byte) : (encBytes s).length = 2 * s.length := by
  induction s with
  | nil => rfl
  | cons b s ih =>
    simp only [encBytes, encByte, List.length_append, List.length_cons, List.length_nil, ih]
    omega

theorem encBytes_getElem? {s : List Byte} {i : Nat} {b : Byte} (h : s[i]? = some b) :
    (encBytes s)[2 * i]? = some (hexLutAt (hiNibble b)) ∧ (encBytes s)[2 * i + 1]? = some (hexLutAt (loNibble b)) := by
  induction s generalizing i with
  | nil => simp at h
  | cons c s ih =>
    cases i with
    | zero =>
      obtain rfl : c = b := by simpa using h
      exact ⟨rfl, rfl⟩
    | succ i => exact ih (by simpa using h)

/-- R129, for one digit. -/
theorem hexLutAt_alphabet (n : BitVec 4) :
    (0x30 ≤ (hexLutAt n).toNat ∧ (hexLutAt n).toNat ≤ 0x39) ∨
      (0x61 ≤ (hexLutAt n).toNat ∧ (hexLutAt n).toNat ≤ 0x66) := by
  revert n
  decide

theorem encBytes_alphabet {s : List Byte} {c : Byte} (h : c ∈ encBytes s) : ∃ n, c = hexLutAt n := by
  induction s with
  | nil => simp [encBytes] at h
  | cons b s ih =>
    simp only [encBytes, encByte, List.cons_append, List.nil_append, List.mem_cons] at h
    rcases h with rfl | rfl | h
    · exact ⟨_, rfl⟩
    · exact ⟨_, rfl⟩
    · exact ih h

/-- Settles O57. -/
theorem encodeRendering : Obligations.EncodeRendering := by
  refine fun s => ⟨encBytes_length s, fun i b h => encBytes_getElem? h, fun c hc => ?_⟩
  obtain ⟨n, rfl⟩ := encBytes_alphabet hc
  exact hexLutAt_alphabet n

theorem encBytes_drop (s : List Byte) (k : Nat) : encBytes (s.drop k) = (encBytes s).drop (2 * k) := by
  induction s generalizing k with
  | nil => simp [encBytes]
  | cons b s ih =>
    cases k with
    | zero => rfl
    | succ k => exact ih k

theorem encBytes_take (s : List Byte) (k : Nat) : encBytes (s.take k) = (encBytes s).take (2 * k) := by
  induction s generalizing k with
  | nil => simp [encBytes]
  | cons b s ih =>
    cases k with
    | zero => rfl
    | succ k => exact congrArg (encByte b ++ ·) (ih k)

/-! ## Decoding -/

/-- R156, R159: of two nibbles both pack methods give 16 h + l. -/
theorem packShiftOr_eq {h l : Byte} (hh : h.toNat < 16) (hl : l.toNat < 16) :
    packShiftOr h l = BitVec.ofNat 8 (16 * h.toNat + l.toNat) := by
  have hor : h.toNat <<< 4 ||| l.toNat = 16 * h.toNat + l.toNat := by
    rw [← Nat.shiftLeft_add_eq_or_of_lt (by simpa using hl), Nat.shiftLeft_eq]
    omega
  apply BitVec.eq_of_toNat_eq
  rw [packShiftOr, BitVec.toNat_or, BitVec.toNat_shiftLeft, BitVec.toNat_ofNat, ← hor,
    Nat.mod_eq_of_lt (show h.toNat <<< 4 < 2 ^ 8 by rw [Nat.shiftLeft_eq]; omega), hor, Nat.mod_eq_of_lt (by omega)]

theorem packMulAdd_eq (h l : Byte) : packMulAdd h l = BitVec.ofNat 8 (16 * h.toNat + l.toNat) := by
  apply BitVec.eq_of_toNat_eq
  simp only [packMulAdd, BitVec.toNat_setWidth, BitVec.toNat_add, BitVec.toNat_mul, BitVec.toNat_ofNat]
  omega

theorem packLane_eq (f : Family) {h l : Byte} (hh : h.toNat < 16) (hl : l.toNat < 16) :
    packLane f h l = packShiftOr h l := by
  cases f with
  | accelPermute => exact (packMulAdd_eq h l).trans (packShiftOr_eq hh hl).symm
  | _ => rfl

theorem decLane_of_valid (f : Family) {c : Byte} (h : validChar c = true) : decLane f c = (true, nibLutAt c) := by
  have htable : laneOfValue (nibLutAt c) = (true, nibLutAt c) := by
    have := nibLutAt_lt_of_valid c h
    have hne : nibLutAt c ≠ sentinel := by
      intro e
      rw [e] at this
      exact absurd this (by decide)
    simp [laneOfValue, hne]
  cases f with
  | scalar => exact htable
  | accelPermute => exact (congrArg laneOfValue (permLookup_eq_nibLutAt c)).trans htable
  | portable => exact laneBias_of_valid c h
  | accelBias => exact laneBias_of_valid c h

theorem decLane_of_invalid (f : Family) {c : Byte} (h : validChar c = false) : (decLane f c).1 = false := by
  have htable : (laneOfValue (nibLutAt c)).1 = false := by simp [laneOfValue, (nibLutAt_eq_sentinel_iff c).mpr h]
  cases f with
  | scalar => exact htable
  | accelPermute => exact (congrArg (fun v => (laneOfValue v).1) (permLookup_eq_nibLutAt c)).trans htable
  | portable => exact laneBias_of_invalid c h
  | accelBias => exact laneBias_of_invalid c h

@[simp] theorem decLane_fst (f : Family) (c : Byte) : (decLane f c).1 = validChar c := by
  cases h : validChar c with
  | true => rw [decLane_of_valid f h]
  | false => exact decLane_of_invalid f h

/-- The value of one pair of characters (R155, R156). -/
def pairValue (h l : Byte) : Byte := packShiftOr (nibLutAt h) (nibLutAt l)

theorem decChars_pair (h l : Byte) (rest : List Byte) :
    decChars (h :: l :: rest) =
      if validChar h && validChar l then (decChars rest).map (pairValue h l :: ·) else none := by
  have hinvalid {c : Byte} (hc : validChar c = false) : (classify c).nibble = none := by
    simpa [validChar] using hc
  rw [decChars]
  cases hh : validChar h with
  | false => simp [hinvalid hh]
  | true =>
    cases hl : validChar l with
    | false => simp [hinvalid hl]
    | true =>
      rw [classify_nibble_of_valid h hh, classify_nibble_of_valid l hl]
      cases decChars rest <;> rfl

theorem decVec_pair (f : Family) (h l : Byte) (rest : List Byte) :
    decVec f (h :: l :: rest) =
      if validChar h && validChar l then (decVec f rest).map (pairValue h l :: ·) else none := by
  simp only [decVec, evenChars, oddChars, List.map_cons, List.all_cons, decLane_fst, List.zipWith_cons_cons]
  cases hh : validChar h with
  | false => simp
  | true =>
    cases hl : validChar l with
    | false => simp
    | true =>
      have hpack : packLane f (decLane f h).2 (decLane f l).2 = pairValue h l := by
        rw [decLane_of_valid f hh, decLane_of_valid f hl]
        exact packLane_eq f (nibLutAt_lt_of_valid h hh) (nibLutAt_lt_of_valid l hl)
      rw [hpack]
      simp only [Bool.true_and, Bool.and_self, if_true]
      split <;> rfl

/-- R160. -/
theorem decVec_eq_decChars (f : Family) (s : List Byte) (h : s.length % 2 = 0) : decVec f s = decChars s := by
  induction s using List.twoStepInduction with
  | nil => rfl
  | singleton c => simp at h
  | cons_cons ch cl rest ih _ =>
    rw [decVec_pair, decChars_pair, ih (by simpa [Nat.add_assoc] using h)]

/-- R161. -/
theorem decUnit_eq_decChars (ch cl : Byte) : (decUnit ch cl).map (fun b => [b]) = decChars [ch, cl] := by
  rw [decChars_pair]
  simp only [decUnit, nibLutAt_eq_sentinel_iff]
  cases validChar ch <;> cases validChar cl <;> rfl

/-- Settles O56. -/
theorem decodeKernelsAgree : Obligations.DecodeKernelsAgree :=
  ⟨decVec_eq_decChars, decUnit_eq_decChars⟩

/-- R162: an item of either kind gives the value of the characters it reads, where these are whole pairs. -/
theorem decItem_eq_decChars (f : Family) {item : Item} {v : List Byte} (hlen : v.length = item.count 2)
    (heven : item.count 2 % 2 = 0) : decItem f item v = decChars v := by
  cases item with
  | vec o w => exact decVec_eq_decChars f v (hlen ▸ heven)
  | unit o =>
    obtain ⟨ch, cl, rfl⟩ := List.length_eq_two.mp hlen
    exact decUnit_eq_decChars ch cl

/-- R168: what has a value. -/
theorem decChars_isSome_iff (t : List Byte) :
    (∃ out, decChars t = some out) ↔ t.length % 2 = 0 ∧ ∀ c ∈ t, validChar c = true := by
  induction t using List.twoStepInduction with
  | nil => simp [decChars]
  | singleton c => simp [decChars]
  | cons_cons h l rest ih _ =>
    rw [decChars_pair]
    have hlen : (h :: l :: rest).length % 2 = rest.length % 2 := by simp [Nat.add_assoc]
    rw [hlen]
    cases hh : validChar h with
    | false => simp [hh]
    | true =>
      cases hl : validChar l with
      | false => simp [hl]
      | true => simpa [hh, hl] using ih

theorem decChars_length {t out : List Byte} (h : decChars t = some out) : 2 * out.length = t.length := by
  induction t using List.twoStepInduction generalizing out with
  | nil => cases h; rfl
  | singleton c => cases h
  | cons_cons ch cl rest ih _ =>
    rw [decChars_pair] at h
    split at h
    · obtain ⟨bs, hbs, rfl⟩ := Option.map_eq_some_iff.mp h
      have := ih hbs
      simp only [List.length_cons]
      omega
    · cases h

theorem decChars_getElem? {t out : List Byte} (hout : decChars t = some out) {i : Nat} {h l : Byte}
    (hh : t[2 * i]? = some h) (hl : t[2 * i + 1]? = some l) : out[i]? = some (pairValue h l) := by
  induction t using List.twoStepInduction generalizing out i with
  | nil => simp at hh
  | singleton c => cases hout
  | cons_cons ch cl rest ih _ =>
    rw [decChars_pair] at hout
    split at hout
    · obtain ⟨bs, hbs, rfl⟩ := Option.map_eq_some_iff.mp hout
      cases i with
      | zero =>
        obtain rfl : ch = h := by simpa using hh
        obtain rfl : cl = l := by simpa using hl
        rfl
      | succ i => exact ih hbs hh hl
    · cases hout

/-- Settles O58. -/
theorem decodeValue : Obligations.DecodeValue := by
  refine fun t => ⟨decChars_isSome_iff t, fun out hout => ⟨decChars_length hout, fun i h l hh hl => ?_⟩⟩
  obtain ⟨-, hvalid⟩ := (decChars_isSome_iff t).mp ⟨out, hout⟩
  have hnib {j : Nat} {c : Byte} (hc : t[j]? = some c) : (nibLutAt c).toNat < 16 :=
    nibLutAt_lt_of_valid c (hvalid c (List.mem_of_getElem? hc))
  rw [decChars_getElem? hout hh hl, pairValue, packShiftOr_eq (hnib hh) (hnib hl)]

/-! ## Slices of one result -/

theorem decChars_drop {t out : List Byte} (h : decChars t = some out) (k : Nat) :
    decChars (t.drop (2 * k)) = some (out.drop k) := by
  induction t using List.twoStepInduction generalizing out k with
  | nil => cases h; simp [decChars]
  | singleton c => cases h
  | cons_cons ch cl rest ih _ =>
    cases k with
    | zero => exact h
    | succ k =>
      rw [decChars_pair] at h
      split at h
      · obtain ⟨bs, hbs, rfl⟩ := Option.map_eq_some_iff.mp h
        exact ih hbs k
      · cases h

theorem decChars_take {t out : List Byte} (h : decChars t = some out) (k : Nat) :
    decChars (t.take (2 * k)) = some (out.take k) := by
  induction t using List.twoStepInduction generalizing out k with
  | nil => cases h; simp [decChars]
  | singleton c => cases h
  | cons_cons ch cl rest ih _ =>
    cases k with
    | zero => rfl
    | succ k =>
      rw [decChars_pair] at h
      split at h
      · next hvalid =>
        obtain ⟨bs, hbs, rfl⟩ := Option.map_eq_some_iff.mp h
        have hcut : (ch :: cl :: rest).take (2 * (k + 1)) = ch :: cl :: rest.take (2 * k) := rfl
        rw [hcut, decChars_pair, if_pos hvalid, ih hbs k]
        rfl
      · cases h

theorem decChars_slice {t out : List Byte} (h : decChars t = some out) {o c : Nat} (ho : o % 2 = 0) (hc : c % 2 = 0) :
    decChars ((t.drop o).take c) = some ((out.drop (o / 2)).take (c / 2)) := by
  obtain ⟨j, rfl⟩ : 2 ∣ o := Nat.dvd_of_mod_eq_zero ho
  obtain ⟨k, rfl⟩ : 2 ∣ c := Nat.dvd_of_mod_eq_zero hc
  rw [Nat.mul_div_cancel_left j (by decide), Nat.mul_div_cancel_left k (by decide)]
  exact decChars_take (decChars_drop h j) k

theorem encBytes_slice (s : List Byte) (o c : Nat) :
    encBytes ((s.drop o).take c) = ((encBytes s).drop (2 * o)).take (2 * c) := by
  rw [encBytes_take, encBytes_drop]

theorem slice_length {α : Type} {s : List α} {o c : Nat} (h : o + c ≤ s.length) : ((s.drop o).take c).length = c := by
  simp only [List.length_take, List.length_drop]
  omega

/-- Settles O59. -/
theorem itemsWriteSlices : Obligations.ItemsWriteSlices := by
  refine ⟨fun f item src _ => ?_, fun f item src out hfit hoff hcount hout => ?_⟩
  · rw [encItem_eq_encBytes, encBytes_slice]
  · rw [decItem_eq_decChars f (slice_length hfit) hcount, decChars_slice hout hoff hcount]

end Sys2Proof.Machine
end

section
/-!
Schedules (42_dispatch.md R200, R201). The cascade is the list of the widths of its chunks, laid out one behind the
other from a position on; the shape of a schedule and what it covers follow from that list. The obligations O50 and O51.
-/

namespace Sys2Proof.Machine

/-! ## The widths of an admissible block -/

theorem pairwise_of_fallsStrictly {ws : List Nat} (h : fallsStrictly ws = true) : ws.Pairwise (· > ·) := by
  have hchain : ws.IsChain (· > ·) := by
    induction ws with
    | nil => exact .nil
    | cons a ws ih =>
      cases ws with
      | nil => exact .singleton a
      | cons b ws =>
        simp only [fallsStrictly, Bool.and_eq_true, decide_eq_true_eq] at h
        exact .cons_cons h.1 (ih h.2)
  exact List.isChain_iff_pairwise.mp hchain

/-- R13: a width is even and not 0. -/
theorem width_even_pos {p : Params} (h : p.wf = true) {w : Nat} (hw : w ∈ p.widths) : 2 ∣ w ∧ 0 < w := by
  simp only [Params.wf, Params.widthsOk, Bool.and_eq_true, List.all_eq_true, List.contains_iff_mem] at h
  obtain ⟨⟨-, hall, -⟩, -⟩ := h
  obtain ⟨k, -, rfl⟩ := List.mem_map.mp (hall w hw)
  exact ⟨⟨2 ^ k, by rw [Nat.pow_succ, Nat.mul_comm]⟩, Nat.two_pow_pos _⟩

theorem widths_pairwise {p : Params} (h : p.wf = true) : p.widths.Pairwise (· > ·) := by
  simp only [Params.wf, Params.widthsOk, Bool.and_eq_true] at h
  obtain ⟨⟨-, -, hfalls⟩, -⟩ := h
  exact pairwise_of_fallsStrictly hfalls

theorem leastWidth_mem {ws : List Nat} (h : ws ≠ []) : leastWidth ws ∈ ws := by
  rw [leastWidth, List.getLastD_eq_getLast?, List.getLast?_eq_some_getLast h]
  exact List.getLast_mem h

/-! ## Chunks one behind the other -/

/-- The chunks of the given widths, the first at `pos`, each starting where the one before ends. -/
def chunksFrom : Nat → List Nat → List Item
  | _, [] => []
  | pos, w :: body => .vec pos w :: chunksFrom (pos + w) body

theorem chunksFrom_append (pos : Nat) (a b : List Nat) :
    chunksFrom pos (a ++ b) = chunksFrom pos a ++ chunksFrom (pos + a.sum) b := by
  induction a generalizing pos with
  | nil => rfl
  | cons w a ih => simp only [List.cons_append, chunksFrom, ih, List.sum_cons, Nat.add_assoc]

@[simp] theorem chunksFrom_length (pos : Nat) (body : List Nat) : (chunksFrom pos body).length = body.length := by
  induction body generalizing pos with
  | nil => rfl
  | cons w body ih => simp [chunksFrom, ih]

theorem chunksFrom_getElem? (pos : Nat) (body : List Nat) (k : Nat) :
    (chunksFrom pos body)[k]? = (body[k]?).map (fun w => Item.vec (pos + (body.take k).sum) w) := by
  induction body generalizing pos k with
  | nil => rfl
  | cons w body ih =>
    cases k with
    | zero => rfl
    | succ k => simp [chunksFrom, ih, Nat.add_assoc]

/-- Where an item of such a row of chunks lies. -/
theorem mem_chunksFrom {d pos : Nat} {body : List Nat} {item : Item} (u : Nat) (hpos : d ∣ pos)
    (hbody : ∀ w ∈ body, d ∣ w) (h : item ∈ chunksFrom pos body) :
    item.offset + item.count u ≤ pos + body.sum ∧ d ∣ item.offset ∧ d ∣ item.count u := by
  induction body generalizing pos with
  | nil => simp [chunksFrom] at h
  | cons w body ih =>
    rw [List.sum_cons]
    obtain rfl | h := List.mem_cons.mp h
    · exact ⟨by simp only [Item.offset, Item.count]; omega, hpos, hbody w (List.mem_cons_self ..)⟩
    · obtain ⟨hend, hoff, hcount⟩ := ih (Nat.dvd_add hpos (hbody w (List.mem_cons_self ..)))
        (fun v hv => hbody v (List.mem_cons_of_mem _ hv)) h
      exact ⟨by omega, hoff, hcount⟩

theorem chunksFrom_covers (u : Nat) {pos : Nat} {body : List Nat} {x : Nat} (hlo : pos ≤ x)
    (hhi : x < pos + body.sum) :
    ∃ item ∈ chunksFrom pos body, item.offset ≤ x ∧ x < item.offset + item.count u := by
  induction body generalizing pos with
  | nil =>
    rw [List.sum_nil] at hhi
    omega
  | cons w body ih =>
    rw [List.sum_cons] at hhi
    by_cases hx : x < pos + w
    · exact ⟨.vec pos w, List.mem_cons_self .., hlo, hx⟩
    · obtain ⟨item, hmem, hin⟩ := ih (Nat.le_of_not_lt hx) (by omega)
      exact ⟨item, List.mem_cons_of_mem _ hmem, hin⟩

/-! ## The cascade as a list of widths -/

/-- The widths of the chunks the cascade makes, in their order. -/
def chunkWidths (n : Nat) : List Nat → Nat → List Nat
  | [], _ => []
  | w :: ws, pos => List.replicate ((n - pos) / w) w ++ chunkWidths n ws (posAfter pos n w)

theorem chunksFrom_replicate (pos k w : Nat) :
    chunksFrom pos (List.replicate k w) = (List.range k).map (fun j => Item.vec (pos + j * w) w) := by
  induction k generalizing pos with
  | zero => rfl
  | succ k ih =>
    have hnext : (fun j => Item.vec (pos + j * w) w) ∘ Nat.succ = fun j => Item.vec (pos + w + j * w) w := by
      funext j
      simp only [Function.comp_apply, Nat.succ_mul]
      congr 1
      omega
    rw [List.replicate_succ, chunksFrom, ih, List.range_succ_eq_map, List.map_cons, List.map_map, hnext, Nat.zero_mul,
      Nat.add_zero]

/-- R200: the cascade lays its chunks out from `pos` on. -/
theorem cascade_eq (n : Nat) (ws : List Nat) (pos : Nat) :
    cascade n ws pos = (chunksFrom pos (chunkWidths n ws pos), pos + (chunkWidths n ws pos).sum) := by
  induction ws generalizing pos with
  | nil => rfl
  | cons w ws ih =>
    simp only [cascade, chunkWidths, ih, chunksFrom_append, chunksFrom_replicate, List.sum_append, List.sum_replicate,
      smul_eq_mul, chunksOf, posAfter, Nat.add_assoc]

section
variable {n pos : Nat} {ws : List Nat}

theorem mem_chunkWidths {v : Nat} (h : v ∈ chunkWidths n ws pos) : v ∈ ws := by
  induction ws generalizing pos with
  | nil => exact h
  | cons w ws ih =>
    obtain h | h := List.mem_append.mp h
    · exact List.mem_cons.mpr (.inl (List.eq_of_mem_replicate h))
    · exact List.mem_cons_of_mem _ (ih h)

/-- R201: the widths never increase. -/
theorem chunkWidths_pairwise (h : ws.Pairwise (· > ·)) : (chunkWidths n ws pos).Pairwise (fun v w => w ≤ v) := by
  induction ws generalizing pos with
  | nil => exact .nil
  | cons w ws ih =>
    obtain ⟨hw, hws⟩ := List.pairwise_cons.mp h
    refine List.pairwise_append.mpr ⟨List.pairwise_replicate.mpr (.inr (Nat.le_refl w)), ih hws, fun a ha b hb => ?_⟩
    rw [List.eq_of_mem_replicate ha]
    exact Nat.le_of_lt (hw b (mem_chunkWidths hb))

theorem posAfter_le (h : pos ≤ n) (w : Nat) : posAfter pos n w ≤ n := by
  have := Nat.div_mul_le_self (n - pos) w
  rw [posAfter]
  omega

theorem chunkWidths_sum_le (h : pos ≤ n) : pos + (chunkWidths n ws pos).sum ≤ n := by
  induction ws generalizing pos with
  | nil => exact h
  | cons w ws ih =>
    have := ih (posAfter_le h w)
    simp only [chunkWidths, List.sum_append, List.sum_replicate, smul_eq_mul]
    rw [posAfter] at this ⊢
    omega

/-- R201: what the cascade leaves is less than the least width. -/
theorem chunkWidths_remainder (hne : ws ≠ []) (hpos : ∀ w ∈ ws, 0 < w) :
    n - (pos + (chunkWidths n ws pos).sum) < leastWidth ws := by
  induction ws generalizing pos with
  | nil => exact absurd rfl hne
  | cons w ws ih =>
    simp only [chunkWidths, List.sum_append, List.sum_replicate, smul_eq_mul]
    cases ws with
    | nil =>
      have hdiv := Nat.div_add_mod' (n - pos) w
      have hmod := Nat.mod_lt (n - pos) (hpos w (List.mem_cons_self ..))
      have hleast : leastWidth [w] = w := rfl
      simp only [chunkWidths, List.sum_nil, hleast]
      omega
    | cons v ws =>
      have hleast : leastWidth (w :: v :: ws) = leastWidth (v :: ws) := rfl
      have := ih (pos := posAfter pos n w) (by simp) (fun x hx => hpos x (List.mem_cons_of_mem _ hx))
      rw [posAfter] at this ⊢
      rw [hleast]
      omega

theorem chunkWidths_of_le (h : n ≤ pos) : chunkWidths n ws pos = [] := by
  induction ws with
  | nil => rfl
  | cons w ws ih =>
    have hzero : n - pos = 0 := by omega
    simp only [chunkWidths, posAfter, hzero, Nat.zero_div, List.replicate_zero, Nat.zero_mul, Nat.add_zero, ih,
      List.append_nil]

/-- R200: the chunks of the cascade and, where they leave a remainder, the overlap tail. -/
theorem vectorItems_eq (n : Nat) (ws : List Nat) :
    vectorItems n ws = chunksFrom 0 (chunkWidths n ws 0) ++
      (if (chunkWidths n ws 0).sum < n then [Item.vec (n - leastWidth ws) (leastWidth ws)] else []) := by
  rw [vectorItems_eq_append, cascade_eq]
  simp only [Nat.zero_add]

end

/-! ## Schedules -/

/-- A schedule of whole units is empty only where there is nothing to process. -/
theorem schedule_eq_nil_iff {n u : Nat} (hu : 0 < u) (hn : n % u = 0) (ws : List Nat) :
    schedule n ws u = [] ↔ n = 0 := by
  by_cases hshort : ws = [] ∨ n < leastWidth ws
  · rw [schedule_of_short hshort, scalarUnits, List.map_eq_nil_iff, List.range_eq_nil, Nat.div_eq_zero_iff_lt hu]
    constructor
    · intro h
      rwa [Nat.mod_eq_of_lt h] at hn
    · rintro rfl
      exact hu
  · simp only [not_or, Nat.not_lt] at hshort
    rw [schedule_of_fits hshort.1 hshort.2, vectorItems_eq]
    constructor
    · intro h
      obtain ⟨hbody, htail⟩ := List.append_eq_nil_iff.mp h
      have hlen := congrArg List.length hbody
      rw [chunksFrom_length, List.length_nil, List.length_eq_zero_iff] at hlen
      by_contra hpos
      rw [hlen, List.sum_nil, if_pos (Nat.pos_of_ne_zero hpos)] at htail
      cases htail
    · rintro rfl
      rw [chunkWidths_of_le (Nat.le_refl 0)]
      rfl

section
variable {n u : Nat}

theorem mem_scalarUnits {item : Item} (h : item ∈ scalarUnits n u) :
    item.offset + item.count u ≤ n ∧ item.offset % u = 0 ∧ item.count u % u = 0 := by
  obtain ⟨k, hk, rfl⟩ := List.mem_map.mp h
  have hle : (k + 1) * u ≤ n / u * u := Nat.mul_le_mul_right u (List.mem_range.mp hk)
  refine ⟨?_, Nat.mul_mod_left k u, Nat.mod_self u⟩
  calc k * u + u = (k + 1) * u := (Nat.succ_mul k u).symm
    _ ≤ n / u * u := hle
    _ ≤ n := Nat.div_mul_le_self n u

theorem scalarUnits_covers (hu : 0 < u) (hn : n % u = 0) {x : Nat} (hx : x < n) :
    ∃ item ∈ scalarUnits n u, item.offset ≤ x ∧ x < item.offset + item.count u := by
  refine ⟨.unit (x / u * u), List.mem_map.mpr ⟨x / u, List.mem_range.mpr ?_, rfl⟩, Nat.div_mul_le_self x u,
    Nat.lt_div_mul_add hu⟩
  exact Nat.div_lt_div_of_lt_of_dvd (Nat.dvd_of_mod_eq_zero hn) hx

/-- R201 items 1 and 5, for a list of widths that are multiples of the unit size. -/
theorem schedule_items {ws : List Nat} (hws : ∀ w ∈ ws, u ∣ w) (hn : n % u = 0) {item : Item}
    (h : item ∈ schedule n ws u) : item.offset + item.count u ≤ n ∧ item.offset % u = 0 ∧ item.count u % u = 0 := by
  by_cases hshort : ws = [] ∨ n < leastWidth ws
  · rw [schedule_of_short hshort] at h
    exact mem_scalarUnits h
  · simp only [not_or, Nat.not_lt] at hshort
    obtain ⟨hne, hfit⟩ := hshort
    rw [schedule_of_fits hne hfit, vectorItems_eq] at h
    obtain h | h := List.mem_append.mp h
    · obtain ⟨hend, hoff, hcount⟩ := mem_chunksFrom u (Nat.dvd_zero u) (fun w hw => hws w (mem_chunkWidths hw)) h
      have := chunkWidths_sum_le (ws := ws) (Nat.zero_le n)
      exact ⟨by omega, Nat.mod_eq_zero_of_dvd hoff, Nat.mod_eq_zero_of_dvd hcount⟩
    · obtain ⟨-, rfl⟩ : (chunkWidths n ws 0).sum < n ∧ item = .vec (n - leastWidth ws) (leastWidth ws) := by
        simpa using h
      have hleast := hws _ (leastWidth_mem hne)
      exact ⟨(Nat.sub_add_cancel hfit).le,
        Nat.mod_eq_zero_of_dvd (Nat.dvd_sub (Nat.dvd_of_mod_eq_zero hn) hleast), Nat.mod_eq_zero_of_dvd hleast⟩

theorem schedule_covers {ws : List Nat} (hws : ∀ w ∈ ws, 0 < w) (hu : 0 < u) (hn : n % u = 0) {x : Nat} (hx : x < n) :
    ∃ item ∈ schedule n ws u, item.offset ≤ x ∧ x < item.offset + item.count u := by
  by_cases hshort : ws = [] ∨ n < leastWidth ws
  · rw [schedule_of_short hshort]
    exact scalarUnits_covers hu hn hx
  · simp only [not_or, Nat.not_lt] at hshort
    obtain ⟨hne, hfit⟩ := hshort
    rw [schedule_of_fits hne hfit, vectorItems_eq]
    by_cases hbody : x < (chunkWidths n ws 0).sum
    · obtain ⟨item, hmem, hin⟩ := chunksFrom_covers u (pos := 0) (Nat.zero_le x) (by simpa using hbody)
      exact ⟨item, List.mem_append_left _ hmem, hin⟩
    · have hleft := chunkWidths_remainder (n := n) (pos := 0) hne hws
      refine ⟨.vec (n - leastWidth ws) (leastWidth ws), List.mem_append_right _ ?_, ?_, ?_⟩
      · rw [if_pos (by omega)]
        exact List.mem_cons_self ..
      · simp only [Item.offset]
        omega
      · simp only [Item.offset, Item.count]
        omega

end

/-- The widths of an admissible block, or no width: each is a multiple of the unit size. -/
theorem widths_of_wf {p : Params} {ws : List Nat} {u : Nat} (hwf : p.wf = true) (hws : ws = p.widths ∨ ws = [])
    (hu : u = 1 ∨ u = 2) : ∀ w ∈ ws, u ∣ w ∧ 0 < w := by
  intro w hw
  obtain rfl | rfl := hws
  · obtain ⟨heven, hpos⟩ := width_even_pos hwf hw
    obtain rfl | rfl := hu
    · exact ⟨Nat.one_dvd w, hpos⟩
    · exact ⟨heven, hpos⟩
  · simp at hw

/-- Settles O50. -/
theorem scheduleCoversTheSource : Obligations.ScheduleCoversTheSource := by
  intro p ws n u hwf hws hu hn
  have hwidths := widths_of_wf hwf hws hu
  have hpos : 0 < u := by omega
  exact ⟨fun item hitem => schedule_items (fun w hw => (hwidths w hw).1) hn hitem,
    fun x hx => schedule_covers (fun w hw => (hwidths w hw).2) hpos hn hx⟩

theorem scalarUnits_getElem? {n u : Nat} (hu : 0 < u) (hn : n % u = 0) (k : Nat) :
    (scalarUnits n u)[k]? = if k * u < n then some (Item.unit (k * u)) else none := by
  have hlt : k < n / u ↔ k * u < n := Nat.lt_div_iff_mul_lt_of_dvd hu.ne' (Nat.dvd_of_mod_eq_zero hn)
  rw [scalarUnits, List.getElem?_map]
  split
  · next h => rw [List.getElem?_range (hlt.mpr h)]; rfl
  · next h => rw [List.getElem?_eq_none (by simpa using mt hlt.mp h)]; rfl

/-- Settles O51: a schedule that is not all units is the row of the cascade's widths and the tail. -/
theorem scheduleShape : Obligations.ScheduleShape := by
  intro p n u hwf hu hn
  have hpos : 0 < u := by omega
  by_cases hshort : p.widths = [] ∨ n < leastWidth p.widths
  · refine .inl ⟨hshort, fun k => ?_⟩
    rw [schedule_of_short hshort]
    exact scalarUnits_getElem? hpos hn k
  · simp only [not_or, Nat.not_lt] at hshort
    obtain ⟨hne, hfit⟩ := hshort
    have hleft := chunkWidths_remainder (n := n) (pos := 0) hne (fun w hw => (width_even_pos hwf hw).2)
    have hsum := chunkWidths_sum_le (ws := p.widths) (Nat.zero_le n)
    rw [Nat.zero_add] at hleft hsum
    refine .inr ⟨hne, hfit, chunkWidths n p.widths 0, _, fun w hw => mem_chunkWidths hw,
      chunkWidths_pairwise (widths_pairwise hwf), rfl, hsum, hleft, fun k => ?_⟩
    rw [schedule_of_fits hne hfit, vectorItems_eq]
    by_cases hk : k < (chunkWidths n p.widths 0).length
    · rw [List.getElem?_append_left (by simpa using hk), if_pos hk, chunksFrom_getElem?]
      simp only [Nat.zero_add]
    · rw [List.getElem?_append_right (by simpa using hk), if_neg hk, chunksFrom_length]
      by_cases htail : (chunkWidths n p.widths 0).sum < n
      · simp only [htail, if_true, and_true, List.getElem?_singleton]
        congr 1
        exact propext (by omega)
      · simp [htail]

end Sys2Proof.Machine
end

section
/-!
Steps of the commands (42_dispatch.md R190 to R197): what the step runs, completion, the CHECK step of each command and
the commands that touch no memory; the obligations O4, O5 and O7 to O15.
-/

namespace Sys2Proof.Machine

/-! ## The step and the latched word -/

/-- Settles O5. -/
theorem stepRunsTheDecodedCommand : Obligations.StepRunsTheDecodedCommand := by
  refine ⟨fun s i hhost hp hd => ?_, fun s i rest hhost hp hd => ?_, fun s e hhost hp hd => ?_, fun s hhost hp => ?_,
    fun s e rest hhost he => step_host hhost he⟩
  · exact (step_engine hhost).trans (engineStep_busy hp hd)
  · exact (step_pass hhost).trans (engineStep_busy (s := { s with host := rest }) hp hd)
  · rw [step_engine hhost, engineStep_undecodable hp hd, complete_eq_ended]
    rfl
  · exact (step_engine hhost).trans (engineStep_idle hp)

/-- R192 item 1: a latched word that is illegal in this block. -/
theorem engineStep_check_illegal {s : State} (hp : s.phase = .check) (h : illegalWord s.params s.latch.cmd = true) :
    engineStep s = .next (ended s 4) := by
  have hbusy : s.phase ≠ .idle := by simp [hp]
  cases hd : decodeWord s.latch.cmd with
  | error e => rw [engineStep_undecodable hbusy hd, complete_eq_ended]; rfl
  | ok i =>
    have hwf : i.wf s.params = false := by simpa [illegalWord, hd] using h
    rw [engineStep_busy hbusy hd, exec_check_unsupported hp hwf, complete_eq_ended]
    rfl

/-- A CMD write to an idle block and the engine's next step (R190, R191). -/
theorem runSteps_cmdWrite {s t : State} {w : Word} {rest : List HostEvent} (hidle : s.busy = false)
    (hhost : s.host = cmdWrite w :: .pass :: rest) (h : engineStep (startCommand { s with host := rest } w) = .next t) :
    runSteps 2 s = .next t := by
  rw [runSteps_next (step_cmdWrite_idle hidle hhost), runSteps_next ((step_pass rfl).trans h), runSteps_zero]

theorem engineStep_started (i : Instr) {s : State} :
    engineStep (startCommand s (encodeInstr i)) = exec i (startCommand s (encodeInstr i)) :=
  engineStep_busy (by simp) (decodeWord_encodeInstr i)

/-! ## Legal words by their fields -/

/-- R105, the converse reading: what a legal word's fields are. -/
theorem illegalWord_eq_false_iff_fields {p : Params} {w : Word} :
    illegalWord p w = false ↔
      rsvField w = 0 ∧ ∃ i : Instr, opField w = opcode i ∧ wselField w = wselOf i ∧ i.wf p = true := by
  rw [illegalWord_eq_false]
  constructor
  · rintro ⟨i, hw, hwf⟩
    obtain ⟨hop, hwsel, hrsv⟩ := eq_encodeInstr_iff.mp hw
    exact ⟨hrsv, i, hop, hwsel, hwf⟩
  · rintro ⟨hrsv, i, hop, hwsel, hwf⟩
    exact ⟨i, eq_encodeInstr_iff.mpr ⟨hop, hwsel, hrsv⟩, hwf⟩

theorem supports_iff {p : Params} {wsel : BitVec 4} : p.supports wsel = true ↔ 2 ^ wsel.toNat ∈ p.widths := by
  rw [Params.supports, List.contains_iff_mem, chunkWidth]

/-- R102, R103, R105: the OP and WSEL values of a command that is legal in a block. -/
theorem exists_command_iff (p : Params) (op : BitVec 8) (wsel : BitVec 4) :
    (∃ i : Instr, op = opcode i ∧ wsel = wselOf i ∧ i.wf p = true) ↔
      op ∈ [0x00#8, 0x01#8, 0x02#8, 0x03#8, 0x04#8, 0x11#8, 0x12#8, 0x21#8, 0x22#8, 0x31#8, 0x32#8] ∧
      (op ≠ 0x11#8 → op ≠ 0x12#8 → wsel = 0) ∧
      (op = 0x11#8 ∨ op = 0x12#8 → 2 ^ wsel.toNat ∈ p.widths) := by
  constructor
  · rintro ⟨i, rfl, rfl, hwf⟩
    cases i with
    | encChunk wsel => exact ⟨by simp [opcode], by simp [opcode], fun _ => supports_iff.mp hwf⟩
    | decChunk wsel => exact ⟨by simp [opcode], by simp [opcode], fun _ => supports_iff.mp hwf⟩
    | _ => simp [opcode, wselOf]
  · rintro ⟨hop, hplain, hchunk⟩
    simp only [List.mem_cons, List.not_mem_nil, or_false] at hop
    rcases hop with rfl | rfl | rfl | rfl | rfl | rfl | rfl | rfl | rfl | rfl | rfl
    · exact ⟨.nop, rfl, hplain (by decide) (by decide), rfl⟩
    · exact ⟨.encode, rfl, hplain (by decide) (by decide), rfl⟩
    · exact ⟨.encodeToBuf, rfl, hplain (by decide) (by decide), rfl⟩
    · exact ⟨.decode, rfl, hplain (by decide) (by decide), rfl⟩
    · exact ⟨.decodeToBuf, rfl, hplain (by decide) (by decide), rfl⟩
    · exact ⟨.encChunk wsel, rfl, rfl, supports_iff.mpr (hchunk (.inl rfl))⟩
    · exact ⟨.decChunk wsel, rfl, rfl, supports_iff.mpr (hchunk (.inr rfl))⟩
    · exact ⟨.encScalar, rfl, hplain (by decide) (by decide), rfl⟩
    · exact ⟨.decScalar, rfl, hplain (by decide) (by decide), rfl⟩
    · exact ⟨.lutHex, rfl, hplain (by decide) (by decide), rfl⟩
    · exact ⟨.lutNib, rfl, hplain (by decide) (by decide), rfl⟩

/-- R105, one disjunct for each of its clauses. -/
theorem illegalWord_iff (p : Params) (w : Word) : illegalWord p w = true ↔
    (opField w ∉ [0x00#8, 0x01#8, 0x02#8, 0x03#8, 0x04#8, 0x11#8, 0x12#8, 0x21#8, 0x22#8, 0x31#8, 0x32#8] ∨
      rsvField w ≠ 0 ∨
      (opField w ≠ 0x11#8 ∧ opField w ≠ 0x12#8 ∧ wselField w ≠ 0) ∨
      ((opField w = 0x11#8 ∨ opField w = 0x12#8) ∧ 2 ^ (wselField w).toNat ∉ p.widths)) := by
  rw [← Bool.not_eq_false, illegalWord_eq_false_iff_fields, exists_command_iff]
  tauto

/-- R13: a SCALAR block supports no width. -/
theorem widths_of_scalar {p : Params} (hwf : p.wf = true) (hf : p.family = .scalar) : p.widths = [] := by
  simpa [Params.wf, Params.familyOk, hf] using (Bool.and_eq_true_iff.mp hwf).2

/-- Settles O4. -/
theorem illegalWords : Obligations.IllegalWords := by
  refine ⟨illegalWord_iff, fun p w hwf hf hop => ?_, fun s w rest _ hidle hhost hill => ?_⟩
  · refine (illegalWord_iff p w).mpr (.inr (.inr (.inr ⟨hop, ?_⟩)))
    simp [widths_of_scalar hwf hf]
  · exact runSteps_cmdWrite hidle hhost
      (engineStep_check_illegal (s := startCommand { s with host := rest } w) rfl hill)

/-! ## Completion -/

theorem code_le (c : StatusCode) : c.code.toNat ≤ 5 := by
  cases c <;> decide

/-- Settles O7. -/
theorem completionWritesStatus : Obligations.CompletionWritesStatus := by
  intro i s t hp h
  obtain ⟨hrun, hkept⟩ | ⟨r, c, rfl⟩ := exec_runsOnOrCompletes hp h
  · exact .inr ⟨hrun, hkept⟩
  · exact .inl ⟨rfl, rfl, rfl, c.code.toNat, code_le c, statusDone_eq c⟩

/-! ## NOP and the table reads -/

theorem exec_nop_check {s : State} (h : s.phase = .check) : exec .nop s = .next (ended s 0) := by
  rw [exec_nop (by simp [h]), complete_eq_ended]
  rfl

/-- Settles O8. -/
theorem nopCompletes : Obligations.NopCompletes := by
  refine ⟨fun s => exec_nop_check, decodeWord_encodeInstr .nop,
    fun p w hop hw => illegalWord_of_opField (i := .nop) rfl p hop hw, fun s rest _ hidle hhost => ?_⟩
  refine runSteps_cmdWrite hidle hhost ((engineStep_started .nop).trans ?_)
  rw [exec_nop_check rfl]
  rfl

/-- R135: the entry of ARG[3:0], zero-extended. -/
theorem hexLutAt_arg (arg : Word) :
    (hexLutAt (arg.extractLsb' 0 4)).setWidth 32 =
      if arg.toNat % 16 ≤ 9 then BitVec.ofNat 32 (0x30 + arg.toNat % 16)
      else BitVec.ofNat 32 (0x57 + arg.toNat % 16) := by
  have hentry (n : BitVec 4) : (hexLutAt n).setWidth 32 =
      if n.toNat ≤ 9 then BitVec.ofNat 32 (0x30 + n.toNat) else BitVec.ofNat 32 (0x57 + n.toNat) := by
    revert n
    decide
  have hnibble : (arg.extractLsb' 0 4).toNat = arg.toNat % 16 := by simp [BitVec.extractLsb'_toNat]
  rw [hentry, hnibble]

theorem exec_lutHex_check {s : State} (h : s.phase = .check) :
    exec .lutHex s = .next { ended s 0 with
      result :=
        if s.arg.toNat % 16 ≤ 9 then BitVec.ofNat 32 (0x30 + s.arg.toNat % 16)
        else BitVec.ofNat 32 (0x57 + s.arg.toNat % 16) } := by
  rw [exec_lutHex (by simp [h]), complete_eq_ended, readHexLut, hexLutAt_arg]
  rfl

/-- Settles O9. -/
theorem lutHexReadsHexLut : Obligations.LutHexReadsHexLut := by
  refine ⟨fun s => exec_lutHex_check, decodeWord_encodeInstr .lutHex,
    fun p w hop hw => illegalWord_of_opField (i := .lutHex) rfl p hop hw, fun s rest _ hidle hhost => ?_⟩
  refine runSteps_cmdWrite hidle hhost ((engineStep_started .lutHex).trans ?_)
  rw [exec_lutHex_check rfl]
  rfl

/-- R167: the entry of ARG[7:0], zero-extended. -/
theorem nibLutAt_arg (arg : Word) :
    (nibLutAt (arg.extractLsb' 0 8)).setWidth 32 =
      if 0x30 ≤ arg.toNat % 256 ∧ arg.toNat % 256 ≤ 0x39 then BitVec.ofNat 32 (arg.toNat % 256 - 0x30)
      else if 0x41 ≤ arg.toNat % 256 ∧ arg.toNat % 256 ≤ 0x46 then BitVec.ofNat 32 (arg.toNat % 256 - 0x37)
      else if 0x61 ≤ arg.toNat % 256 ∧ arg.toNat % 256 ≤ 0x66 then BitVec.ofNat 32 (arg.toNat % 256 - 0x57)
      else 0x000000FF#32 := by
  have hentry (c : Byte) : (nibLutAt c).setWidth 32 =
      if 0x30 ≤ c.toNat ∧ c.toNat ≤ 0x39 then BitVec.ofNat 32 (c.toNat - 0x30)
      else if 0x41 ≤ c.toNat ∧ c.toNat ≤ 0x46 then BitVec.ofNat 32 (c.toNat - 0x37)
      else if 0x61 ≤ c.toNat ∧ c.toNat ≤ 0x66 then BitVec.ofNat 32 (c.toNat - 0x57)
      else 0x000000FF#32 := by
    revert c
    decide
  have hchar : (arg.extractLsb' 0 8).toNat = arg.toNat % 256 := by simp [BitVec.extractLsb'_toNat]
  rw [hentry, hchar]

theorem exec_lutNib_check {s : State} (h : s.phase = .check) :
    exec .lutNib s = .next { ended s 0 with
      result :=
        if 0x30 ≤ s.arg.toNat % 256 ∧ s.arg.toNat % 256 ≤ 0x39 then BitVec.ofNat 32 (s.arg.toNat % 256 - 0x30)
        else if 0x41 ≤ s.arg.toNat % 256 ∧ s.arg.toNat % 256 ≤ 0x46 then BitVec.ofNat 32 (s.arg.toNat % 256 - 0x37)
        else if 0x61 ≤ s.arg.toNat % 256 ∧ s.arg.toNat % 256 ≤ 0x66 then BitVec.ofNat 32 (s.arg.toNat % 256 - 0x57)
        else 0x000000FF#32 } := by
  rw [exec_lutNib (by simp [h]), complete_eq_ended, readNibLut, nibLutAt_arg]
  rfl

/-- Settles O10. -/
theorem lutNibReadsNibLut : Obligations.LutNibReadsNibLut := by
  refine ⟨fun s => exec_lutNib_check, decodeWord_encodeInstr .lutNib,
    fun p w hop hw => illegalWord_of_opField (i := .lutNib) rfl p hop hw, fun s rest _ hidle hhost => ?_⟩
  refine runSteps_cmdWrite hidle hhost ((engineStep_started .lutNib).trans ?_)
  rw [exec_lutNib_check rfl]
  rfl

/-! ## The CHECK step -/

/-- R192 item 5: DST_LEN as the commands with OWN write it. -/
def ownDstLen (q : Quantities) (s : State) : State :=
  if q.own then { s with dstLen := BitVec.ofNat 32 q.dstLen } else s

/-- R192 items 2 to 6 with the completions spelled out; the two checks of the source, and the two of the destination,
end alike. -/
theorem checkStep_eq (q : Quantities) (s : State) :
    checkStep q s =
      if (q.encodeType = true ∧ 2 ^ 31 - 1 < s.latch.srcLen.toNat) ∨ s.memTop < s.latch.srcAddr.toNat + q.srcLen then
        ended s 5
      else if q.par = true ∧ q.srcLen % 2 = 1 then ended s 2
      else if q.len = true ∧ s.latch.dstLen.toNat ≠ q.dstLen then
        ended { s with errExpected := BitVec.ofNat 32 q.dstLen, errActual := s.latch.dstLen } 1
      else if s.memTop < s.latch.dstAddr.toNat + q.dstLen ∨
          overlap s.latch.srcAddr.toNat q.srcLen s.latch.dstAddr.toNat q.dstLen = true then
        ended (ownDstLen q s) 5
      else if q.sched = [] then ended (ownDstLen q s) 0
      else { ownDstLen q s with sched := q.sched, idx := 0, phase := .run } := by
  simp only [checkStep, completeMismatch, complete_eq_ended, Bool.and_eq_true, decide_eq_true_eq,
    List.isEmpty_iff, ite_or, ownDstLen]
  rfl

/-- Settles O11. -/
theorem encodeCheckStep : Obligations.EncodeCheckStep := by
  rintro s n a d hp rfl rfl rfl
  have hnil (n : Nat) : schedule n s.params.widths 1 = [] ↔ n = 0 := schedule_eq_nil_iff Nat.one_pos (Nat.mod_one n) _
  rw [exec_check (q := quantEncode s.params s.latch) hp rfl rfl, checkStep_eq]
  by_cases hn : s.latch.srcLen.toNat = 0 <;>
    simp [quantEncode, overlap_iff, ownDstLen, State.memTop, hnil, hn]

/-- Settles O12: ENC_SCALAR's row of R193 is that of ENCODE_TO_BUF but for the schedule. -/
theorem encodeToBufCheckStep : Obligations.EncodeToBufCheckStep := by
  rintro s n a d m hp rfl rfl rfl rfl i sched hi
  have hnil (ws : List Nat) : schedule s.latch.srcLen.toNat ws 1 = [] ↔ s.latch.srcLen.toNat = 0 :=
    schedule_eq_nil_iff Nat.one_pos (Nat.mod_one _) ws
  have hunits : schedule s.latch.srcLen.toNat [] 1 = (List.range s.latch.srcLen.toNat).map Item.unit := by
    simp [schedule_of_short, scalarUnits]
  obtain ⟨hexec, hsched⟩ :
      exec i s = .next (checkStep { quantEncodeToBuf s.params s.latch with sched := sched } s) ∧
        (sched = [] ↔ s.latch.srcLen.toNat = 0) := by
    simp only [List.mem_cons, Prod.mk.injEq, List.not_mem_nil, or_false] at hi
    obtain ⟨rfl, rfl⟩ | ⟨rfl, rfl⟩ := hi
    · exact ⟨exec_check hp rfl rfl, hnil _⟩
    · rw [← hunits]
      exact ⟨exec_check hp rfl rfl, hnil _⟩
  rw [hexec, checkStep_eq]
  simp [quantEncodeToBuf, overlap_iff, ownDstLen, State.memTop, hsched]

/-- R192 item 6 for pairs: of an even number of characters, none is left where no byte is written. -/
theorem overlap_half_iff {a n d : Nat} (heven : n % 2 = 0) :
    overlap a n d (n / 2) = true ↔ 0 < n ∧ a < d + n / 2 ∧ d < a + n := by
  rw [overlap_iff]
  omega

/-- Settles O13. -/
theorem decodeCheckStep : Obligations.DecodeCheckStep := by
  rintro s n a d hp rfl rfl rfl
  rw [exec_check (q := quantDecode s.params s.latch) hp rfl rfl, checkStep_eq]
  by_cases hodd : s.latch.srcLen.toNat % 2 = 1
  · simp [quantDecode, State.memTop, hodd]
  · have heven : s.latch.srcLen.toNat % 2 = 0 := by omega
    by_cases hn : s.latch.srcLen.toNat = 0
    · have hzero : schedule 0 s.params.widths 2 = [] := (schedule_eq_nil_iff Nat.two_pos rfl _).mpr rfl
      simp [quantDecode, overlap_iff, ownDstLen, State.memTop, hzero, hn]
    · simp [quantDecode, overlap_half_iff heven, ownDstLen, State.memTop, heven,
        schedule_eq_nil_iff Nat.two_pos heven, hn]

/-- Settles O14: DEC_SCALAR's row of R193 is that of DECODE_TO_BUF but for the schedule. -/
theorem decodeToBufCheckStep : Obligations.DecodeToBufCheckStep := by
  rintro s n a d m hp rfl rfl rfl rfl i sched hi
  have hunits : schedule s.latch.srcLen.toNat [] 2 =
      (List.range (s.latch.srcLen.toNat / 2)).map (fun k => Item.unit (2 * k)) := by
    simp [schedule_of_short, scalarUnits, Nat.mul_comm]
  obtain ⟨hexec, ws, rfl⟩ :
      exec i s = .next (checkStep { quantDecodeToBuf s.params s.latch with sched := sched } s) ∧
        ∃ ws, sched = schedule s.latch.srcLen.toNat ws 2 := by
    simp only [List.mem_cons, Prod.mk.injEq, List.not_mem_nil, or_false] at hi
    obtain ⟨rfl, rfl⟩ | ⟨rfl, rfl⟩ := hi
    · exact ⟨exec_check hp rfl rfl, _, rfl⟩
    · rw [← hunits]
      exact ⟨exec_check hp rfl rfl, _, rfl⟩
  rw [hexec, checkStep_eq]
  by_cases hodd : s.latch.srcLen.toNat % 2 = 1
  · simp [quantDecodeToBuf, State.memTop, hodd]
  · have heven : s.latch.srcLen.toNat % 2 = 0 := by omega
    simp [quantDecodeToBuf, overlap_half_iff heven, ownDstLen, State.memTop, heven,
      schedule_eq_nil_iff Nat.two_pos heven]

/-- R133, R165: the CHECK step of either chunk command, by its row of R193. -/
theorem exec_chunk_check {i : Instr} {s : State} {wsel : BitVec 4} {q : Quantities} (hp : s.phase = .check)
    (hwf : i.wf s.params = s.params.supports wsel) (hq : quantitiesOf s.params s.latch i = some q) :
    exec i s = .next (if 2 ^ wsel.toNat ∉ s.params.widths then ended s 4 else checkStep q s) := by
  cases hsup : s.params.supports wsel with
  | true =>
    rw [if_neg (not_not.mpr (supports_iff.mp hsup)), exec_check hp (hwf.trans hsup) hq]
  | false =>
    rw [if_pos (fun hmem => by simp [supports_iff.mpr hmem] at hsup), exec_check_unsupported hp (hwf.trans hsup),
      complete_eq_ended]
    rfl

/-- Settles O15. -/
theorem chunkCheckStep : Obligations.ChunkCheckStep := by
  rintro s wsel w a d hp rfl rfl rfl i dstlen hi
  have hpos : 0 < 2 ^ wsel.toNat := Nat.two_pow_pos _
  simp only [List.mem_cons, Prod.mk.injEq, List.not_mem_nil, or_false] at hi
  obtain ⟨rfl, rfl⟩ | ⟨rfl, rfl⟩ := hi
  · rw [exec_chunk_check (q := quantEncChunk wsel) hp rfl rfl, checkStep_eq]
    simp [quantEncChunk, chunkWidth, overlap_iff, ownDstLen, State.memTop, hpos]
  · rw [exec_chunk_check (q := quantDecChunk wsel) hp rfl rfl, checkStep_eq]
    simp [quantDecChunk, chunkWidth, overlap_iff, ownDstLen, State.memTop, hpos]

end Sys2Proof.Machine
end

section
/-!
RUN steps and frames (42_dispatch.md R194, R195, 10_state.md R45): what a RUN step of an encode or a decode command
answers, which bytes it writes, and which registers a step of each command leaves alone; the obligations O16, O17, O18,
O45, O46, O47 and O48.
-/

namespace Sys2Proof.Machine

/-! ## What a RUN step answers -/

section
variable {s : State} {item : Item} {v : List Byte}

theorem encodeRun_eq (hitem : s.sched[s.idx]? = some item)
    (hread : holdsBytes s (s.latch.srcAddr.toNat + item.offset) (item.count 1) v)
    (hfit : s.latch.dstAddr.toNat + 2 * item.offset + 2 * item.count 1 ≤ s.memTop) :
    encodeRun s = .next (advance
      { s with mem := s.mem.writeBytes (s.latch.dstAddr.toNat + 2 * item.offset) (encBytes v) }) := by
  have hlen : (encBytes v).length = 2 * item.count 1 := by rw [encBytes_length, Memory.readBytes_length hread.2]
  have hwrite := memWrite_eq_ok.mpr ⟨hlen ▸ hfit, rfl⟩
  simp only [encodeRun, hitem, memRead_eq_ok.mpr hread, encItem_eq_encBytes, hwrite]

theorem decodeRun_eq_of_value {bs : List Byte} (onFail : State → State) (hitem : s.sched[s.idx]? = some item)
    (hread : holdsBytes s (s.latch.srcAddr.toNat + item.offset) (item.count 2) v)
    (hbs : decItem s.params.family item v = some bs)
    (hfit : s.latch.dstAddr.toNat + item.offset / 2 + bs.length ≤ s.memTop) :
    decodeRun onFail s = .next (advance
      { s with mem := s.mem.writeBytes (s.latch.dstAddr.toNat + item.offset / 2) bs }) := by
  have hwrite := memWrite_eq_ok.mpr ⟨hfit, rfl⟩
  simp only [decodeRun, hitem, memRead_eq_ok.mpr hread, hbs, hwrite]

theorem decodeRun_eq_of_failure (onFail : State → State) (hitem : s.sched[s.idx]? = some item)
    (hread : holdsBytes s (s.latch.srcAddr.toNat + item.offset) (item.count 2) v)
    (hfail : decItem s.params.family item v = none) : decodeRun onFail s = .next (onFail s) := by
  simp only [decodeRun, hitem, memRead_eq_ok.mpr hread, hfail]

end

/-- Settles O16: every family's kernels give ENC. -/
theorem encodeRunStep : Obligations.EncodeRunStep := by
  intro i s item v henc hrun hitem hread hfit
  rw [exec_run_encodes hrun henc, encodeRun_eq hitem hread hfit]
  exact congrArg _ (advance_eq_itemDone hitem)

/-- Settles O17: every family's kernels give the text's value. -/
theorem decodeRunStepValid : Obligations.DecodeRunStepValid := by
  intro i s item v out hdec hrun hitem hread hout hfit
  have hlen : v.length = item.count 2 := Memory.readBytes_length hread.2
  have heven : item.count 2 % 2 = 0 := hlen ▸ ((decChars_isSome_iff v).mp ⟨out, hout⟩).1
  rw [exec_run_decodes hrun hdec,
    decodeRun_eq_of_value _ hitem hread ((decItem_eq_decChars _ hlen heven).trans hout) hfit]
  exact congrArg _ (advance_eq_itemDone hitem)

/-- R171: one invalid character leaves a text without a value. -/
theorem decChars_eq_none {v : List Byte} (h : ∃ c ∈ v, validChar c = false) : decChars v = none := by
  cases hv : decChars v with
  | none => rfl
  | some out =>
    obtain ⟨c, hc, hinvalid⟩ := h
    have hvalid := ((decChars_isSome_iff v).mp ⟨out, hv⟩).2 c hc
    rw [hinvalid] at hvalid
    cases hvalid

/-- R83: what a failing item of a command that has several leaves in memory. -/
theorem read_failUndefining (s : State) (x : Nat) :
    (failUndefining s).mem.read x =
      if s.latch.dstAddr.toNat ≤ x ∧ x < s.latch.dstAddr.toNat + s.latch.srcLen.toNat / 2 then none
      else s.mem.read x :=
  Memory.read_undefine _ _ _ _

/-- Settles O18. -/
theorem decodeRunStepInvalid : Obligations.DecodeRunStepInvalid := by
  intro i s item v hdec hrun hitem heven hread hinvalid
  have hlen : v.length = item.count 2 := Memory.readBytes_length hread.2
  have hfail := (decItem_eq_decChars s.params.family hlen heven).trans (decChars_eq_none hinvalid)
  refine ⟨_, (exec_run_decodes hrun hdec).trans (decodeRun_eq_of_failure _ hitem hread hfail), ?_⟩
  cases i.isChunk with
  | true => exact ⟨complete_eq_ended s .invalidCharacter, fun _ => rfl, fun h => Bool.noConfusion h⟩
  | false =>
    exact ⟨complete_eq_ended (undefineRegion _ _ _) .invalidCharacter, fun h => Bool.noConfusion h,
      fun _ x => read_failUndefining s x⟩

/-! ## The bytes a RUN step writes -/

@[simp] theorem advance_mem (s : State) : (advance s).mem = s.mem := by
  obtain ⟨-, e⟩ | ⟨-, e⟩ := advance_cases s <;> exact (congrArg State.mem e).trans rfl

theorem evenChars_length (s : List Byte) : (evenChars s).length = s.length / 2 := by
  induction s using List.twoStepInduction with
  | nil => rfl
  | singleton c => simp [evenChars]
  | cons_cons h l rest ih _ =>
    simp only [evenChars, List.length_cons, ih]
    omega

theorem oddChars_length (s : List Byte) : (oddChars s).length = s.length / 2 := by
  induction s using List.twoStepInduction with
  | nil => rfl
  | singleton c => simp [oddChars]
  | cons_cons h l rest ih _ =>
    simp only [oddChars, List.length_cons, ih]
    omega

/-- R162: one byte for each whole pair, whatever the item's count. -/
theorem decItem_length {f : Family} {item : Item} {v bs : List Byte} (hlen : v.length = item.count 2)
    (h : decItem f item v = some bs) : bs.length = item.count 2 / 2 := by
  cases item with
  | vec o w =>
    simp only [decItem, decVec] at h
    split at h
    · cases h
      simp only [List.length_zipWith, List.length_map, evenChars_length, oddChars_length, hlen, Nat.min_self]
    · cases h
  | unit o =>
    obtain ⟨ch, cl, rfl⟩ := List.length_eq_two.mp hlen
    obtain ⟨b, -, rfl⟩ := Option.map_eq_some_iff.mp h
    simp [Item.count]

theorem inRegion_eq_false_iff {x base len : Nat} : inRegion x base len = false ↔ ¬(base ≤ x ∧ x < base + len) := by
  rw [← inRegion_iff, Bool.not_eq_true]

/-- A write leaves every byte outside the bytes written alone. -/
theorem Memory.read_writeBytes_outside {m : Memory} {addr x n : Nat} {bs : List Byte} (hlen : bs.length ≤ n)
    (hx : inRegion x addr n = false) : (m.writeBytes addr bs).read x = m.read x := by
  have := inRegion_eq_false_iff.mp hx
  rw [Memory.read_writeBytes, if_neg (by omega)]

/-! ## The registers a step leaves alone -/

/-- `t` differs from `s` at most in the data memory, STATUS and the sequencing state. -/
def RunFieldsOnly (s t : State) : Prop :=
  ∃ (m : Memory) (status : Word) (phase : Phase) (sched : List Item) (idx : Nat),
    t = { s with mem := m, status := status, phase := phase, sched := sched, idx := idx }

theorem RunFieldsOnly.eq {s t : State} (h : RunFieldsOnly s t) :
    t = { s with mem := t.mem, status := t.status, phase := t.phase, sched := t.sched, idx := t.idx } := by
  obtain ⟨m, status, phase, sched, idx, rfl⟩ := h
  rfl

theorem runFieldsOnly_advance (s : State) (m : Memory) : RunFieldsOnly s (advance { s with mem := m }) := by
  obtain ⟨-, e⟩ | ⟨-, e⟩ := advance_cases { s with mem := m } <;> rw [e] <;> exact ⟨_, _, _, _, _, rfl⟩

section
variable {s t : State}

theorem encodeRun_runFieldsOnly (h : encodeRun s = .next t) : RunFieldsOnly s t := by
  obtain ⟨-, rfl⟩ | ⟨item, v, -, -, -, -, rfl⟩ := encodeRun_next h
  · exact ⟨_, _, _, _, _, rfl⟩
  · exact runFieldsOnly_advance s _

theorem decodeRun_runFieldsOnly {onFail : State → State} (hfail : RunFieldsOnly s (onFail s))
    (h : decodeRun onFail s = .next t) : RunFieldsOnly s t := by
  obtain ⟨-, rfl⟩ | ⟨item, v, -, -, -, ⟨-, rfl⟩ | ⟨bs, -, -, rfl⟩⟩ := decodeRun_next h
  · exact ⟨_, _, _, _, _, rfl⟩
  · exact hfail
  · exact runFieldsOnly_advance s _

/-- The two ways a failing item ends a command (R195). -/
theorem runFieldsOnly_onFail (s : State) (chunk : Bool) :
    RunFieldsOnly s ((if chunk then failKeeping else failUndefining) s) := by
  cases chunk <;> exact ⟨_, _, _, _, _, rfl⟩

/-- Settles O47. -/
theorem encodeRunStepFrame : Obligations.EncodeRunStepFrame := by
  intro i s t item henc hrun hitem h
  rw [exec_run_encodes hrun henc] at h
  refine ⟨fun x hx => ?_, (encodeRun_runFieldsOnly h).eq⟩
  obtain ⟨hnone, -⟩ | ⟨item', v, hitem', -, hread, -, rfl⟩ := encodeRun_next h
  · simp [hitem] at hnone
  · obtain rfl : item = item' := Option.some.inj (hitem.symm.trans hitem')
    rw [advance_mem, encItem_eq_encBytes]
    exact Memory.read_writeBytes_outside (by rw [encBytes_length, Memory.readBytes_length hread]) hx

theorem advance_status {s : State} : (advance s).status = s.status ∨ (advance s).status = statusDone .none := by
  obtain ⟨-, e⟩ | ⟨-, e⟩ := advance_cases s <;> rw [e]
  · exact .inl rfl
  · exact .inr rfl

/-- Settles O48: only a failing item ends with INVALID_CHARACTER. -/
theorem decodeRunStepFrame : Obligations.DecodeRunStepFrame := by
  intro i s t item hdec hrun hstatus hitem h
  rw [exec_run_decodes hrun hdec] at h
  have hfields := decodeRun_runFieldsOnly (runFieldsOnly_onFail s _) h
  obtain ⟨hnone, -⟩ | ⟨item', v, hitem', -, hread, ⟨-, rfl⟩ | ⟨bs, hbs, -, rfl⟩⟩ := decodeRun_next h
  · simp [hitem] at hnone
  · refine ⟨fun hne => absurd ?_ hne, fun _ x hx => ?_, hfields.eq⟩
    · cases i.isChunk <;> rfl
    · cases hchunk : i.isChunk with
      | true => rfl
      | false =>
        obtain hx | hx := hx
        · exact (read_failUndefining s x).trans (if_neg (inRegion_eq_false_iff.mp hx))
        · rw [hchunk] at hx
          cases hx
  · obtain rfl : item = item' := Option.some.inj (hitem.symm.trans hitem')
    refine ⟨fun _ x hx => ?_, fun hbad => ?_, hfields.eq⟩
    · rw [advance_mem]
      exact Memory.read_writeBytes_outside (decItem_length (Memory.readBytes_length hread) hbs).le hx
    · obtain e | e := advance_status (s := { s with mem := _ }) <;> rw [e] at hbad
      · exact absurd (hstatus.symm.trans hbad) (by decide)
      · exact absurd hbad (by decide)

end

/-! ## The frame of every command -/

/-- R193, the column OWN. -/
theorem quantitiesOf_own {p : Params} {l : Latch} {i : Instr} {q : Quantities} (h : quantitiesOf p l i = some q) :
    q.own = decide (i = .encode ∨ i = .decode) := by
  cases i <;> cases h <;> rfl

/-- R193, the column LEN. -/
theorem quantitiesOf_len {p : Params} {l : Latch} {i : Instr} {q : Quantities} (h : quantitiesOf p l i = some q) :
    q.len = decide (i = .encodeToBuf ∨ i = .encScalar ∨ i = .decodeToBuf ∨ i = .decScalar) := by
  cases i <;> cases h <;> rfl

/-- What `exec i` may do to the registers of the table of 10_state.md R45. -/
structure RegistersKept (i : Instr) (s t : State) : Prop where
  operands : sameOperands s t
  dstLen : i ≠ .encode → i ≠ .decode → t.dstLen = s.dstLen
  result : i ≠ .lutHex → i ≠ .lutNib → t.result = s.result
  errors : i ≠ .encodeToBuf → i ≠ .encScalar → i ≠ .decodeToBuf → i ≠ .decScalar →
    t.errExpected = s.errExpected ∧ t.errActual = s.errActual

theorem RunFieldsOnly.registersKept {s t : State} (h : RunFieldsOnly s t) (i : Instr) : RegistersKept i s t := by
  obtain ⟨m, status, phase, sched, idx, rfl⟩ := h
  exact ⟨⟨rfl, rfl, rfl, rfl, rfl, rfl, rfl, rfl, rfl⟩, fun _ _ => rfl, fun _ _ => rfl, fun _ _ _ _ => ⟨rfl, rfl⟩⟩

theorem checkStep_registersKept {i : Instr} {s : State} {q : Quantities}
    (hq : quantitiesOf s.params s.latch i = some q) : RegistersKept i s (checkStep q s) := by
  have hoperands : sameOperands s (checkStep q s) := by
    obtain ⟨c, e⟩ | ⟨c, -, e⟩ | ⟨-, e⟩ | ⟨-, -, e⟩ | ⟨-, -, e⟩ := checkStep_cases q s <;> rw [e] <;>
      exact ⟨rfl, rfl, rfl, rfl, rfl, rfl, rfl, rfl, rfl⟩
  have howns (hown : q.own = true) (he : i ≠ .encode) (hd : i ≠ .decode) : False :=
    (of_decide_eq_true (quantitiesOf_own hq ▸ hown)).elim he hd
  obtain ⟨c, e⟩ | ⟨c, hown, e⟩ | ⟨hlen, e⟩ | ⟨-, -, e⟩ | ⟨hown, -, e⟩ := checkStep_cases q s <;> rw [e] at hoperands ⊢
  · exact ⟨hoperands, fun _ _ => rfl, fun _ _ => rfl, fun _ _ _ _ => ⟨rfl, rfl⟩⟩
  · exact ⟨hoperands, fun he hd => (howns hown he hd).elim, fun _ _ => rfl, fun _ _ _ _ => ⟨rfl, rfl⟩⟩
  · refine ⟨hoperands, fun _ _ => rfl, fun _ _ => rfl, fun h1 h2 h3 h4 => ?_⟩
    obtain h | h | h | h := of_decide_eq_true (quantitiesOf_len hq ▸ hlen)
    · exact absurd h h1
    · exact absurd h h2
    · exact absurd h h3
    · exact absurd h h4
  · exact ⟨hoperands, fun _ _ => rfl, fun _ _ => rfl, fun _ _ _ _ => ⟨rfl, rfl⟩⟩
  · exact ⟨hoperands, fun he hd => (howns hown he hd).elim, fun _ _ => rfl, fun _ _ _ _ => ⟨rfl, rfl⟩⟩

theorem runFieldsOnly_complete (s : State) (c : StatusCode) : RunFieldsOnly s (complete s c) :=
  ⟨_, _, _, _, _, rfl⟩

theorem exec_registersKept {i : Instr} {s t : State} (h : exec i s = .next t) : RegistersKept i s t := by
  by_cases hp : s.phase = .idle
  · rw [exec_idle i hp] at h
    cases h
    exact RunFieldsOnly.registersKept ⟨_, _, _, _, _, rfl⟩ i
  have hresult (u : State) (hi : i = .lutHex ∨ i = .lutNib) :
      RegistersKept i s { complete s .none with result := u.result } :=
    ⟨⟨rfl, rfl, rfl, rfl, rfl, rfl, rfl, rfl, rfl⟩, fun _ _ => rfl, fun h1 h2 => (hi.elim h1 h2).elim,
      fun _ _ _ _ => ⟨rfl, rfl⟩⟩
  obtain ⟨-, rfl⟩ | ⟨hi, rfl⟩ | ⟨hi, rfl⟩ | ⟨-, -, rfl⟩ | ⟨q, -, -, hq, rfl⟩ | ⟨-, -, henc⟩ | ⟨-, -, hdec⟩ :=
    exec_next_cases hp h
  · exact (runFieldsOnly_complete s _).registersKept i
  · exact hresult (readHexLut s) (.inl hi)
  · exact hresult (readNibLut s) (.inr hi)
  · exact (runFieldsOnly_complete s _).registersKept i
  · exact checkStep_registersKept hq
  · exact (encodeRun_runFieldsOnly henc).registersKept i
  · exact (decodeRun_runFieldsOnly (runFieldsOnly_onFail s _) hdec).registersKept i

/-- Settles O45. -/
theorem registerFrame : Obligations.RegisterFrame := by
  intro i s t h
  obtain ⟨hoperands, hdst, hresult, herrors⟩ := exec_registersKept h
  exact ⟨hoperands, hdst, hresult, herrors⟩

@[simp] theorem checkStep_mem (q : Quantities) (s : State) : (checkStep q s).mem = s.mem := by
  obtain ⟨c, e⟩ | ⟨c, -, e⟩ | ⟨-, e⟩ | ⟨-, -, e⟩ | ⟨-, -, e⟩ := checkStep_cases q s <;>
    exact (congrArg State.mem e).trans rfl

/-- Settles O46: memory is written in the two RUN cases alone, which NOP and the table reads do not have. -/
theorem checkStepLeavesMemory : Obligations.CheckStepLeavesMemory := by
  intro i s t h hcase
  by_cases hp : s.phase = .idle
  · rw [exec_idle i hp] at h
    cases h
    rfl
  have hno (hrun : s.phase = .run) (hi : i.encodes = true ∨ i.decodes = true) : False := by
    obtain hne | rfl | rfl | rfl := hcase
    · exact hne hrun
    · exact absurd hi (by decide)
    · exact absurd hi (by decide)
    · exact absurd hi (by decide)
  obtain ⟨-, rfl⟩ | ⟨-, rfl⟩ | ⟨-, rfl⟩ | ⟨-, -, rfl⟩ | ⟨q, -, -, -, rfl⟩ | ⟨hrun, henc, -⟩ | ⟨hrun, hdec, -⟩ :=
    exec_next_cases hp h
  · rfl
  · rfl
  · rfl
  · rfl
  · exact checkStep_mem q s
  · exact (hno hrun (.inl henc)).elim
  · exact (hno hrun (.inr hdec)).elim

end Sys2Proof.Machine
end

section
/-!
The command in progress. Encode and decode commands are one pattern: an item reads whole units of the source, has a
value or fails, and writes the value at the place of the destination that belongs to it. What the passed checks and the
schedule give (42_dispatch.md R192, R193, R201) makes a RUN step one of three: stopped at an Undef source byte, failed,
or written. The obligations O42, O43 and O44.
-/

namespace Sys2Proof

/-- The unit size u of a command's schedule (R193). -/
def Instr.unitSize (i : Instr) : Nat := if i.encodes then 1 else 2

/-- How many destination bytes belong to n source bytes: 2n of an encode command, n/2 of a decode command (R193). -/
def Instr.outSize (i : Instr) (n : Nat) : Nat := if i.encodes then 2 * n else n / 2

theorem Instr.unitSize_of_encodes {i : Instr} (h : i.encodes = true) : i.unitSize = 1 := by simp [unitSize, h]

theorem Instr.unitSize_of_decodes {i : Instr} (h : i.encodes = false) : i.unitSize = 2 := by simp [unitSize, h]

theorem Instr.outSize_of_encodes {i : Instr} (h : i.encodes = true) (n : Nat) : i.outSize n = 2 * n := by
  simp [outSize, h]

theorem Instr.outSize_of_decodes {i : Instr} (h : i.encodes = false) (n : Nat) : i.outSize n = n / 2 := by
  simp [outSize, h]

theorem Instr.unitSize_cases (i : Instr) : i.unitSize = 1 ∨ i.unitSize = 2 := by
  cases h : i.encodes with
  | true => exact .inl (unitSize_of_encodes h)
  | false => exact .inr (unitSize_of_decodes h)

theorem Instr.outSize_add_le (i : Instr) {o c n : Nat} (h : o + c ≤ n) : i.outSize o + i.outSize c ≤ i.outSize n := by
  simp only [outSize]
  split <;> omega

/-- No command both encodes and decodes. -/
theorem Instr.encodes_eq_false {i : Instr} (h : i.decodes = true) : i.encodes = false := by
  cases i with
  | encode => cases h
  | encodeToBuf => cases h
  | encScalar => cases h
  | encChunk wsel => cases h
  | _ => rfl

namespace Machine

/-! ## The value of a part of the source -/

/-- What a command writes for source bytes it reads: ENC, or the value of the text where it has one. -/
def commandValue (i : Instr) (v : List Byte) : Option (List Byte) :=
  if i.encodes then some (encBytes v) else decChars v

theorem commandValue_of_encodes {i : Instr} (h : i.encodes = true) (v : List Byte) :
    commandValue i v = some (encBytes v) := by simp [commandValue, h]

theorem commandValue_of_decodes {i : Instr} (h : i.encodes = false) (v : List Byte) :
    commandValue i v = decChars v := by simp [commandValue, h]

section
variable {i : Instr} {v out : List Byte}

theorem commandValue_length (h : commandValue i v = some out) : out.length = i.outSize v.length := by
  cases he : i.encodes with
  | true =>
    rw [commandValue_of_encodes he] at h
    cases h
    rw [encBytes_length, Instr.outSize_of_encodes he]
  | false =>
    rw [commandValue_of_decodes he] at h
    have := decChars_length h
    rw [Instr.outSize_of_decodes he]
    omega

/-- R85: a part of whole units has the slice of the value that belongs to it. -/
theorem commandValue_slice (h : commandValue i v = some out) {o c : Nat} (ho : o % i.unitSize = 0)
    (hc : c % i.unitSize = 0) :
    commandValue i ((v.drop o).take c) = some ((out.drop (i.outSize o)).take (i.outSize c)) := by
  cases he : i.encodes with
  | true =>
    rw [commandValue_of_encodes he] at h ⊢
    cases h
    rw [encBytes_slice, Instr.outSize_of_encodes he, Instr.outSize_of_encodes he]
  | false =>
    rw [commandValue_of_decodes he] at h ⊢
    rw [Instr.unitSize_of_decodes he] at ho hc
    rw [decChars_slice h ho hc, Instr.outSize_of_decodes he, Instr.outSize_of_decodes he]

/-- Only a text can fail. -/
theorem encodes_of_commandValue_eq_none (h : commandValue i v = none) : i.encodes = false := by
  cases he : i.encodes with
  | true =>
    rw [commandValue_of_encodes he] at h
    cases h
  | false => rfl

end

/-! ## The RUN step, for encode and decode commands alike -/

/-- How a failing item ends its command (R195). -/
def failed (i : Instr) (s : State) : State := (if i.isChunk then failKeeping else failUndefining) s

section
variable {i : Instr} {s : State} {item : Item} {v : List Byte}

theorem exec_run_undef (hrun : s.phase = .run) (hi : i.encodes = true ∨ i.decodes = true)
    (hitem : s.sched[s.idx]? = some item)
    (hfit : s.latch.srcAddr.toNat + item.offset + item.count i.unitSize ≤ s.memTop)
    (hread : s.mem.readBytes (s.latch.srcAddr.toNat + item.offset) (item.count i.unitSize) = none) :
    exec i s = .fault .undefRead := by
  have herr := memRead_eq_error.mpr (.inr ⟨hfit, hread, rfl⟩)
  obtain he | hd := hi
  · rw [Instr.unitSize_of_encodes he] at herr
    rw [exec_run_encodes hrun he, encodeRun_of_memRead_error hitem herr]
  · rw [Instr.unitSize_of_decodes (Instr.encodes_eq_false hd)] at herr
    rw [exec_run_decodes hrun hd, decodeRun_of_memRead_error _ hitem herr]

theorem exec_run_value {bs : List Byte} (hrun : s.phase = .run) (hi : i.encodes = true ∨ i.decodes = true)
    (hitem : s.sched[s.idx]? = some item) (hunits : item.count i.unitSize % i.unitSize = 0)
    (hread : holdsBytes s (s.latch.srcAddr.toNat + item.offset) (item.count i.unitSize) v)
    (hv : commandValue i v = some bs)
    (hfit : s.latch.dstAddr.toNat + i.outSize item.offset + i.outSize (item.count i.unitSize) ≤ s.memTop) :
    exec i s = .next (advance
      { s with mem := s.mem.writeBytes (s.latch.dstAddr.toNat + i.outSize item.offset) bs }) := by
  have hlen := Memory.readBytes_length hread.2
  obtain he | hd := hi
  · rw [Instr.unitSize_of_encodes he, Instr.outSize_of_encodes he] at *
    rw [commandValue_of_encodes he] at hv
    cases hv
    rw [exec_run_encodes hrun he, encodeRun_eq hitem hread (by rwa [Instr.outSize_of_encodes he] at hfit)]
  · have he := Instr.encodes_eq_false hd
    have hbs := commandValue_length hv
    simp only [Instr.unitSize_of_decodes he, Instr.outSize_of_decodes he] at *
    rw [commandValue_of_decodes he] at hv
    rw [exec_run_decodes hrun hd]
    refine decodeRun_eq_of_value _ hitem hread ((decItem_eq_decChars _ hlen hunits).trans hv) ?_
    rwa [hbs, hlen]

theorem exec_run_failure (hrun : s.phase = .run) (hi : i.encodes = true ∨ i.decodes = true)
    (hitem : s.sched[s.idx]? = some item) (hunits : item.count i.unitSize % i.unitSize = 0)
    (hread : holdsBytes s (s.latch.srcAddr.toNat + item.offset) (item.count i.unitSize) v)
    (hv : commandValue i v = none) : exec i s = .next (failed i s) := by
  obtain he | hd := hi
  · rw [commandValue_of_encodes he] at hv
    cases hv
  · have he := Instr.encodes_eq_false hd
    have hlen := Memory.readBytes_length hread.2
    rw [Instr.unitSize_of_decodes he] at *
    rw [commandValue_of_decodes he] at hv
    rw [exec_run_decodes hrun hd]
    exact decodeRun_eq_of_failure _ hitem hread ((decItem_eq_decChars _ hlen hunits).trans hv)

end

/-! ## What the checks and the schedule give -/

theorem checksPass_iff {q : Quantities} {s : State} :
    checksPass q s = true ↔
      ¬(q.encodeType = true ∧ 2 ^ 31 - 1 < s.latch.srcLen.toNat) ∧ s.latch.srcAddr.toNat + q.srcLen ≤ s.memTop ∧
      ¬(q.par = true ∧ q.srcLen % 2 = 1) ∧ ¬(q.len = true ∧ s.latch.dstLen.toNat ≠ q.dstLen) ∧
      s.latch.dstAddr.toNat + q.dstLen ≤ s.memTop ∧
      overlap s.latch.srcAddr.toNat q.srcLen s.latch.dstAddr.toNat q.dstLen = false := by
  simp only [checksPass, Bool.and_eq_true, Bool.not_eq_true', decide_eq_true_eq, Bool.and_eq_false_iff,
    decide_eq_false_iff_not, not_and_or, Bool.not_eq_true, and_assoc]

/-- The rows of R193: the sizes of the two regions, the parity check, and the schedule. -/
structure Layout (i : Instr) (q : Quantities) : Prop where
  dstLen : q.dstLen = i.outSize q.srcLen
  units : q.srcLen % i.unitSize = 0
  items : ∀ item ∈ q.sched, item.offset + item.count i.unitSize ≤ q.srcLen ∧ item.offset % i.unitSize = 0 ∧
    item.count i.unitSize % i.unitSize = 0
  covers : ∀ x, x < q.srcLen → ∃ item ∈ q.sched, item.offset ≤ x ∧ x < item.offset + item.count i.unitSize

section
variable {i : Instr} {p : Params} {l : Latch} {q : Quantities}

theorem quantitiesOf_dstLen (hq : quantitiesOf p l i = some q) : q.dstLen = i.outSize q.srcLen := by
  cases i <;> cases hq <;> rfl

/-- R193: the chunk commands take their size from WSEL, the others from SRC_LEN; these schedule it whole. -/
theorem quantitiesOf_chunk_or_whole (hq : quantitiesOf p l i = some q) :
    (∃ wsel, i.isChunk = true ∧ i.wf p = p.supports wsel ∧ q.srcLen = 2 ^ wsel.toNat ∧
      q.sched = [.vec 0 q.srcLen]) ∨
    (i.isChunk = false ∧ q.srcLen = l.srcLen.toNat ∧ (i.encodes = false → q.par = true) ∧
      ∃ ws, (ws = p.widths ∨ ws = []) ∧ q.sched = schedule q.srcLen ws i.unitSize) := by
  cases i <;> cases hq
  case encChunk wsel => exact .inl ⟨wsel, rfl, rfl, rfl, rfl⟩
  case decChunk wsel => exact .inl ⟨wsel, rfl, rfl, rfl, rfl⟩
  case encScalar => exact .inr ⟨rfl, rfl, fun h => Bool.noConfusion h, _, .inr rfl, rfl⟩
  case decScalar => exact .inr ⟨rfl, rfl, fun _ => rfl, _, .inr rfl, rfl⟩
  all_goals exact .inr ⟨rfl, rfl, by simp [Instr.encodes, quantDecode, quantDecodeToBuf], _, .inl rfl, rfl⟩

theorem layout_of_quantities (hp : p.wf = true) (hw : i.wf p = true) (hq : quantitiesOf p l i = some q)
    (hpar : ¬(q.par = true ∧ q.srcLen % 2 = 1)) : Layout i q := by
  have hu := i.unitSize_cases
  have hdst := quantitiesOf_dstLen hq
  obtain ⟨wsel, -, hwf, hsrc, hsched⟩ | ⟨-, -, hodd, ws, hws, hsched⟩ := quantitiesOf_chunk_or_whole hq
  · have hwidth := widths_of_wf hp (.inl rfl) hu q.srcLen (hsrc ▸ supports_iff.mp (hwf ▸ hw))
    have hunits : q.srcLen % i.unitSize = 0 := Nat.mod_eq_zero_of_dvd hwidth.1
    refine ⟨hdst, hunits, fun item hitem => ?_,
      fun x hx => ⟨.vec 0 q.srcLen, hsched ▸ List.mem_cons_self .., Nat.zero_le x, ?_⟩⟩
    · obtain rfl : item = .vec 0 q.srcLen := by simpa [hsched] using hitem
      exact ⟨by simp [Item.offset, Item.count], Nat.zero_mod _, hunits⟩
    · simpa [Item.offset, Item.count] using hx
  · have hunits : q.srcLen % i.unitSize = 0 := by
      cases he : i.encodes with
      | true => rw [Instr.unitSize_of_encodes he, Nat.mod_one]
      | false =>
        rw [Instr.unitSize_of_decodes he]
        exact (Nat.mod_two_eq_zero_or_one _).resolve_right fun h => hpar ⟨hodd he, h⟩
    obtain ⟨hitems, hcovers⟩ := scheduleCoversTheSource p ws q.srcLen i.unitSize hp hws hu hunits
    rw [← hsched] at hitems hcovers
    exact ⟨hdst, hunits, hitems, hcovers⟩

end

/-! ## A command in RUN -/

/-- PHASE = RUN as the block reaches it: a legal command whose checks have passed follows its schedule. -/
structure Running (i : Instr) (q : Quantities) (s : State) : Prop where
  params : s.params.wf = true
  phase : s.phase = .run
  command : decodeWord s.latch.cmd = .ok i
  legal : i.wf s.params = true
  quantities : quantitiesOf s.params s.latch i = some q
  checks : checksPass q s = true
  sched : s.sched = q.sched
  idx : s.idx < s.sched.length

theorem activeQuantities_eq_some {s : State} {q : Quantities} :
    activeQuantities s = some q ↔
      ∃ i, decodeWord s.latch.cmd = .ok i ∧ i.wf s.params = true ∧ quantitiesOf s.params s.latch i = some q := by
  unfold activeQuantities
  cases decodeWord s.latch.cmd with
  | error e => simp
  | ok i => simp

theorem Inv.running {s : State} (h : Inv s) (hrun : s.phase = .run) : ∃ i q, Running i q s := by
  have hseq := h.sequencing
  rw [sequencingAgrees, hrun] at hseq
  cases hq : activeQuantities s with
  | none => simp [hq] at hseq
  | some q =>
    simp only [hq, Bool.and_eq_true, decide_eq_true_eq] at hseq
    obtain ⟨⟨hchecks, hsched⟩, hidx⟩ := hseq
    obtain ⟨i, hcmd, hlegal, hquant⟩ := activeQuantities_eq_some.mp hq
    exact ⟨i, q, h.params, hrun, hcmd, hlegal, hquant, hchecks, hsched, hidx⟩

namespace Running

variable {i : Instr} {q : Quantities} {s : State}

theorem layout (h : Running i q s) : Layout i q :=
  layout_of_quantities h.params h.legal h.quantities (checksPass_iff.mp h.checks).2.2.1

theorem active (h : Running i q s) : activeQuantities s = some q :=
  activeQuantities_eq_some.mpr ⟨i, h.command, h.legal, h.quantities⟩

theorem engineStep_eq (h : Running i q s) : engineStep s = exec i s :=
  engineStep_busy (by simp [h.phase]) h.command

/-- Another memory, and another place in the schedule. -/
theorem setMem (h : Running i q s) (m : Memory) {k : Nat} (hk : k < s.sched.length) :
    Running i q { s with mem := m, idx := k } :=
  ⟨h.params, h.phase, h.command, h.legal, h.quantities, h.checks, h.sched, hk⟩

/-- The item a RUN step processes. -/
theorem exists_item (h : Running i q s) : ∃ item, s.sched[s.idx]? = some item :=
  ⟨_, List.getElem?_eq_getElem h.idx⟩

section
variable {item : Item} {v bs : List Byte}

/-- Where the item's source and its destination lie. -/
theorem item_bounds (h : Running i q s) (hitem : s.sched[s.idx]? = some item) :
    item.offset + item.count i.unitSize ≤ q.srcLen ∧ item.offset % i.unitSize = 0 ∧
      item.count i.unitSize % i.unitSize = 0 ∧
      i.outSize item.offset + i.outSize (item.count i.unitSize) ≤ q.dstLen := by
  obtain ⟨hend, hoff, hcount⟩ := h.layout.items item (h.sched ▸ List.mem_of_getElem? hitem)
  exact ⟨hend, hoff, hcount, h.layout.dstLen ▸ i.outSize_add_le hend⟩

/-- The item's source exists. -/
theorem source_fits (h : Running i q s) (hitem : s.sched[s.idx]? = some item) :
    s.latch.srcAddr.toNat + item.offset + item.count i.unitSize ≤ s.memTop := by
  obtain ⟨-, hsrc, -⟩ := checksPass_iff.mp h.checks
  have := (h.item_bounds hitem).1
  omega

/-- The item's destination exists. -/
theorem dest_fits (h : Running i q s) (hitem : s.sched[s.idx]? = some item) :
    s.latch.dstAddr.toNat + i.outSize item.offset + i.outSize (item.count i.unitSize) ≤ s.memTop := by
  obtain ⟨-, -, -, -, hdst, -⟩ := checksPass_iff.mp h.checks
  obtain ⟨-, -, -, hout⟩ := h.item_bounds hitem
  omega

theorem exec_undef (h : Running i q s) (hitem : s.sched[s.idx]? = some item)
    (hread : s.mem.readBytes (s.latch.srcAddr.toNat + item.offset) (item.count i.unitSize) = none) :
    exec i s = .fault .undefRead :=
  exec_run_undef h.phase (encodes_or_decodes h.quantities) hitem (h.source_fits hitem) hread

theorem exec_failure (h : Running i q s) (hitem : s.sched[s.idx]? = some item)
    (hread : s.mem.readBytes (s.latch.srcAddr.toNat + item.offset) (item.count i.unitSize) = some v)
    (hv : commandValue i v = none) : exec i s = .next (failed i s) :=
  exec_run_failure h.phase (encodes_or_decodes h.quantities) hitem (h.item_bounds hitem).2.2.1
    ⟨h.source_fits hitem, hread⟩ hv

theorem exec_value (h : Running i q s) (hitem : s.sched[s.idx]? = some item)
    (hread : s.mem.readBytes (s.latch.srcAddr.toNat + item.offset) (item.count i.unitSize) = some v)
    (hv : commandValue i v = some bs) :
    exec i s = .next (advance
      { s with mem := s.mem.writeBytes (s.latch.dstAddr.toNat + i.outSize item.offset) bs }) :=
  exec_run_value h.phase (encodes_or_decodes h.quantities) hitem (h.item_bounds hitem).2.2.1
    ⟨h.source_fits hitem, hread⟩ hv (h.dest_fits hitem)

/-- Every RUN step: it stops at an Undef source byte, or its item fails, or its item's value is written. -/
theorem exec_cases (h : Running i q s) (hitem : s.sched[s.idx]? = some item) :
    (s.mem.readBytes (s.latch.srcAddr.toNat + item.offset) (item.count i.unitSize) = none ∧
      exec i s = .fault .undefRead) ∨
    ∃ v, s.mem.readBytes (s.latch.srcAddr.toNat + item.offset) (item.count i.unitSize) = some v ∧
      ((commandValue i v = none ∧ exec i s = .next (failed i s)) ∨
        ∃ bs, commandValue i v = some bs ∧
          exec i s = .next (advance
            { s with mem := s.mem.writeBytes (s.latch.dstAddr.toNat + i.outSize item.offset) bs })) := by
  cases hread : s.mem.readBytes (s.latch.srcAddr.toNat + item.offset) (item.count i.unitSize) with
  | none => exact .inl ⟨rfl, h.exec_undef hitem hread⟩
  | some v =>
    refine .inr ⟨v, rfl, ?_⟩
    cases hv : commandValue i v with
    | none => exact .inl ⟨rfl, h.exec_failure hitem hread hv⟩
    | some bs => exact .inr ⟨bs, rfl, h.exec_value hitem hread hv⟩

/-- The length of what a RUN step writes. -/
theorem value_length (_ : Running i q s)
    (hread : s.mem.readBytes (s.latch.srcAddr.toNat + item.offset) (item.count i.unitSize) = some v)
    (hv : commandValue i v = some bs) : bs.length = i.outSize (item.count i.unitSize) := by
  rw [commandValue_length hv, Memory.readBytes_length hread]

/-- R83: a failing item makes exactly the destination region Undef, DEC_CHUNK's leaves memory alone. -/
theorem read_failed (h : Running i q s) (hv : commandValue i v = none) (x : Nat) :
    (failed i s).mem.read x =
      if i.isChunk = false ∧ inRegion x s.latch.dstAddr.toNat q.dstLen = true then none else s.mem.read x := by
  obtain ⟨wsel, hchunk, -⟩ | ⟨hchunk, hsrc, -⟩ := quantitiesOf_chunk_or_whole h.quantities
  · simp [failed, hchunk, failKeeping]
  · have hlen : q.dstLen = s.latch.srcLen.toNat / 2 := by
      rw [h.layout.dstLen, hsrc, Instr.outSize_of_decodes (encodes_of_commandValue_eq_none hv)]
    simp only [failed, hchunk, Bool.false_eq_true, if_false, read_failUndefining, inRegion_iff, hlen, true_and]

/-- A written item's bytes lie in the destination region. -/
theorem inRegion_of_written (h : Running i q s) (hitem : s.sched[s.idx]? = some item) {x : Nat}
    (hx : inRegion x s.latch.dstAddr.toNat q.dstLen = false) :
    inRegion x (s.latch.dstAddr.toNat + i.outSize item.offset) (i.outSize (item.count i.unitSize)) = false := by
  obtain ⟨-, -, -, hout⟩ := h.item_bounds hitem
  rw [inRegion_eq_false_iff] at hx ⊢
  omega

end

end Running

/-! ## The active regions -/

theorem inActiveDest_of_active {s : State} {q : Quantities} (h : activeQuantities s = some q) (x : Nat) :
    inActiveDest s x = inRegion x s.latch.dstAddr.toNat q.dstLen := by
  rw [inActiveDest, h]

theorem inActiveSource_of_active {s : State} {q : Quantities} (h : activeQuantities s = some q) (x : Nat) :
    inActiveSource s x = inRegion x s.latch.srcAddr.toNat q.srcLen := by
  rw [inActiveSource, h]

/-- R201: the bytes an item reads lie in the source region. -/
theorem Running.inActiveSource_item {i : Instr} {q : Quantities} {s : State} (h : Running i q s) {item : Item}
    (hitem : s.sched[s.idx]? = some item) {x : Nat} (hlo : s.latch.srcAddr.toNat + item.offset ≤ x)
    (hhi : x < s.latch.srcAddr.toNat + item.offset + item.count i.unitSize) : inActiveSource s x = true := by
  have hend := (h.item_bounds hitem).1
  rw [inActiveSource_of_active h.active, inRegion_iff]
  omega

/-! ## Where a step stops -/

/-- Outside RUN, and for the commands that touch no memory, a step goes on. -/
theorem exec_next_of_not_run {i : Instr} {s : State}
    (h : s.phase ≠ .run ∨ quantitiesOf s.params s.latch i = none) : ∃ t, exec i s = .next t := by
  cases hp : s.phase with
  | idle => exact ⟨s, exec_idle i hp⟩
  | check =>
    cases hq : quantitiesOf s.params s.latch i with
    | none =>
      obtain ⟨-, e⟩ | ⟨-, e⟩ | ⟨-, e⟩ := exec_register (by simp [hp]) hq <;> exact ⟨_, e⟩
    | some q =>
      cases hw : i.wf s.params with
      | true => exact ⟨_, exec_check hp hw hq⟩
      | false => exact ⟨_, exec_check_unsupported hp hw⟩
  | run =>
    obtain ⟨-, e⟩ | ⟨-, e⟩ | ⟨-, e⟩ := exec_register (by simp [hp]) (h.resolve_left (by simp [hp])) <;> exact ⟨_, e⟩

theorem encodeRun_ne_refused (s : State) (r : Refusal) : encodeRun s ≠ .refused r := by
  unfold encodeRun
  repeat' split
  all_goals simp

theorem decodeRun_ne_refused (onFail : State → State) (s : State) (r : Refusal) :
    decodeRun onFail s ≠ .refused r := by
  unfold decodeRun
  repeat' split
  all_goals simp

theorem exec_ne_refused (i : Instr) (s : State) (r : Refusal) : exec i s ≠ .refused r := by
  by_cases h : s.phase ≠ .run ∨ quantitiesOf s.params s.latch i = none
  · obtain ⟨t, e⟩ := exec_next_of_not_run h
    simp [e]
  · simp only [not_or, not_not] at h
    obtain ⟨hrun, hq⟩ := h
    obtain ⟨q, hq⟩ := Option.ne_none_iff_exists'.mp hq
    obtain he | hd := encodes_or_decodes hq
    · rw [exec_run_encodes hrun he]
      exact encodeRun_ne_refused s r
    · rw [exec_run_decodes hrun hd]
      exact decodeRun_ne_refused _ s r

theorem engineStep_ne_refused (s : State) (r : Refusal) : engineStep s ≠ .refused r := by
  unfold engineStep
  split
  · simp
  · split
    · exact exec_ne_refused _ s r
    · simp

theorem hostAct_ne_refused (e : HostEvent) (s : State) (r : Refusal) : hostAct e s ≠ .refused r := by
  cases e <;> simp only [hostAct, hostRegRead, hostRegWrite, hostPoll, hostMemRead, busMemWrite]
  all_goals repeat' split
  all_goals simp

theorem step_ne_refused (s : State) (r : Refusal) : step s ≠ .refused r := by
  unfold step
  split
  · exact engineStep_ne_refused s r
  · exact engineStep_ne_refused _ r
  · exact hostAct_ne_refused _ _ r

/-- Under the invariant a step outside RUN goes on. -/
theorem engineStep_next_of_not_run {s : State} (h : s.phase ≠ .run) : ∃ t, engineStep s = .next t := by
  by_cases hp : s.phase = .idle
  · exact ⟨s, engineStep_idle hp⟩
  · cases hd : decodeWord s.latch.cmd with
    | error e => exact ⟨_, engineStep_undecodable hp hd⟩
    | ok i =>
      rw [engineStep_busy hp hd]
      exact exec_next_of_not_run (.inl h)

theorem Memory.exists_undef_of_readBytes {m : Memory} {addr n : Nat} (h : m.readBytes addr n = none) :
    ∃ x, addr ≤ x ∧ x < addr + n ∧ m.read x = none := by
  induction n generalizing addr with
  | zero => cases h
  | succ n ih =>
    cases hb : m.read addr with
    | none => exact ⟨addr, Nat.le_refl _, by omega, hb⟩
    | some b =>
      cases hbs : m.readBytes (addr + 1) n with
      | none =>
        obtain ⟨x, hlo, hhi, hx⟩ := ih hbs
        exact ⟨x, by omega, by omega, hx⟩
      | some bs => simp [Memory.readBytes, hb, hbs] at h

/-- Settles O42. -/
theorem engineStopsOnlyAtUndefinedSource : Obligations.EngineStopsOnlyAtUndefinedSource := by
  refine ⟨fun s f hinv h => ?_, step_ne_refused⟩
  by_cases hrun : s.phase = .run
  · obtain ⟨i, q, hr⟩ := hinv.running hrun
    obtain ⟨item, hitem⟩ := hr.exists_item
    rw [hr.engineStep_eq] at h
    obtain ⟨hread, e⟩ | ⟨v, -, ⟨-, e⟩ | ⟨bs, -, e⟩⟩ := hr.exec_cases hitem
    · obtain ⟨x, hlo, hhi, hx⟩ := Memory.exists_undef_of_readBytes hread
      rw [e] at h
      cases h
      exact ⟨rfl, hrun, x, hr.inActiveSource_item hitem hlo hhi, hx⟩
    · rw [e] at h
      cases h
    · rw [e] at h
      cases h
  · obtain ⟨t, e⟩ := engineStep_next_of_not_run hrun
    rw [e] at h
    cases h

/-! ## What a step writes -/

theorem engineStep_mem_of_not_run {s t : State} (hrun : s.phase ≠ .run) (h : engineStep s = .next t) :
    t.mem = s.mem := by
  obtain ⟨-, rfl⟩ | ⟨-, -, rfl⟩ | ⟨i, -, -, hexec⟩ := engineStep_next_cases h
  · rfl
  · rfl
  · exact checkStepLeavesMemory i s t hexec (.inl hrun)

/-- Settles O43. -/
theorem engineWritesOnlyDestination : Obligations.EngineWritesOnlyDestination := by
  intro s t hinv h x hx
  by_cases hrun : s.phase = .run
  · obtain ⟨i, q, hr⟩ := hinv.running hrun
    obtain ⟨item, hitem⟩ := hr.exists_item
    rw [hr.engineStep_eq] at h
    rw [inActiveDest_of_active hr.active] at hx
    obtain ⟨-, e⟩ | ⟨v, hread, ⟨hv, e⟩ | ⟨bs, hbs, e⟩⟩ := hr.exec_cases hitem <;> rw [e] at h <;> cases h
    · rw [hr.read_failed hv, if_neg (by simp [hx])]
    · rw [advance_mem]
      exact Memory.read_writeBytes_outside (hr.value_length hread hbs).le (hr.inRegion_of_written hitem hx)
  · rw [engineStep_mem_of_not_run hrun h]

/-! ## What a step reads -/

/-- The state over another data memory. -/
def withMem (m : Memory) (s : State) : State := { s with mem := m }

theorem checkStep_setMem (q : Quantities) (s : State) (m : Memory) :
    checkStep q { s with mem := m } = { checkStep q s with mem := m } := by
  change checkStep q (withMem m s) = withMem m (checkStep q s)
  cases hown : q.own <;>
    simp only [checkStep_eq, ownDstLen, hown, Bool.false_eq_true, if_true, if_false, apply_ite (withMem m)] <;> rfl

theorem advance_setMem (s : State) (m : Memory) : advance { s with mem := m } = { advance s with mem := m } := by
  unfold advance
  split <;> rfl

/-- Outside RUN no step reads the data memory. -/
theorem engineStep_setMem_of_not_run {s t : State} (hrun : s.phase ≠ .run) (h : engineStep s = .next t) (m : Memory) :
    engineStep { s with mem := m } = .next { t with mem := m } := by
  obtain ⟨hidle, rfl⟩ | ⟨hbusy, ⟨e, he⟩, rfl⟩ | ⟨i, hbusy, hcmd, hexec⟩ := engineStep_next_cases h
  · exact engineStep_idle hidle
  · exact engineStep_undecodable hbusy he
  · rw [engineStep_busy (s := { s with mem := m }) hbusy hcmd]
    obtain ⟨rfl, rfl⟩ | ⟨rfl, rfl⟩ | ⟨rfl, rfl⟩ | ⟨hcheck, hw, rfl⟩ | ⟨q, hcheck, hw, hq, rfl⟩ | ⟨h, -⟩ | ⟨h, -⟩ :=
      exec_next_cases hbusy hexec
    · exact exec_nop hbusy
    · exact exec_lutHex hbusy
    · exact exec_lutNib hbusy
    · exact exec_check_unsupported hcheck hw
    · rw [← checkStep_setMem]
      exact exec_check hcheck hw hq
    · exact absurd h hrun
    · exact absurd h hrun

/-- The same bytes written over two memories: each byte is a written one, or what its memory held. -/
theorem Memory.read_writeBytes_both (m m' : Memory) (addr : Nat) (bs : List Byte) (x : Nat) :
    (m'.writeBytes addr bs).read x = (m.writeBytes addr bs).read x ∨
    ((m.writeBytes addr bs).read x = m.read x ∧ (m'.writeBytes addr bs).read x = m'.read x) := by
  rw [Memory.read_writeBytes, Memory.read_writeBytes]
  split
  · exact .inl rfl
  · exact .inr ⟨rfl, rfl⟩

/-- Two outcomes of a step over two memories: they differ at most in memory, and there each byte got one value in both
or was left alone in both. -/
def AlikeOver (s t t' : State) (m : Memory) : Prop :=
  t' = { t with mem := t'.mem } ∧
  ∀ x, t'.mem.read x = t.mem.read x ∨ (t.mem.read x = s.mem.read x ∧ t'.mem.read x = m.read x)

/-- A RUN step reads its item's part of the source alone. -/
theorem Running.exec_alike {i : Instr} {q : Quantities} {s : State} (h : Running i q s) {m : Memory}
    (hsame : ∀ x, inActiveSource s x = true → m.read x = s.mem.read x) :
    (exec i s = .fault .undefRead ∧ exec i { s with mem := m } = .fault .undefRead) ∨
    ∃ t t', exec i s = .next t ∧ exec i { s with mem := m } = .next t' ∧ AlikeOver s t t' m := by
  obtain ⟨item, hitem⟩ := h.exists_item
  have h' : Running i q { s with mem := m } := h.setMem m h.idx
  have hreads : m.readBytes (s.latch.srcAddr.toNat + item.offset) (item.count i.unitSize) =
      s.mem.readBytes (s.latch.srcAddr.toNat + item.offset) (item.count i.unitSize) :=
    Memory.readBytes_congr fun x hlo hhi => hsame x (h.inActiveSource_item hitem hlo hhi)
  cases hread : s.mem.readBytes (s.latch.srcAddr.toNat + item.offset) (item.count i.unitSize) with
  | none => exact .inl ⟨h.exec_undef hitem hread, h'.exec_undef hitem (hreads.trans hread)⟩
  | some v =>
    cases hv : commandValue i v with
    | none =>
      refine .inr ⟨_, _, h.exec_failure hitem hread hv, h'.exec_failure hitem (hreads.trans hread) hv, ?_, fun x => ?_⟩
      · simp only [failed]
        cases i.isChunk <;> rfl
      · rw [h.read_failed hv, h'.read_failed hv]
        split
        · exact .inl rfl
        · exact .inr ⟨rfl, rfl⟩
    | some bs =>
      refine .inr ⟨_, _, h.exec_value hitem hread hv, h'.exec_value hitem (hreads.trans hread) hv, ?_, fun x => ?_⟩
      · simp only [advance_setMem]
      · simp only [advance_mem]
        exact Memory.read_writeBytes_both _ _ _ _ x

/-- R74, for a step of the engine in any phase. -/
theorem engineStep_alike {s : State} {m : Memory} (h : Inv s)
    (hsame : ∀ x, inActiveSource s x = true → m.read x = s.mem.read x) :
    (engineStep s = .fault .undefRead ∧ engineStep { s with mem := m } = .fault .undefRead) ∨
    ∃ t t', engineStep s = .next t ∧ engineStep { s with mem := m } = .next t' ∧ AlikeOver s t t' m := by
  by_cases hrun : s.phase = .run
  · obtain ⟨i, q, hr⟩ := h.running hrun
    rw [hr.engineStep_eq, (hr.setMem m hr.idx : Running i q { s with mem := m }).engineStep_eq]
    exact hr.exec_alike hsame
  · obtain ⟨t, e⟩ := engineStep_next_of_not_run hrun
    refine .inr ⟨t, _, e, engineStep_setMem_of_not_run hrun e m, rfl, fun x => .inr ⟨?_, rfl⟩⟩
    rw [engineStep_mem_of_not_run hrun e]

/-- Settles O44. -/
theorem engineReadsOnlySource : Obligations.EngineReadsOnlySource := by
  intro s m h hsame
  obtain ⟨e, e'⟩ | ⟨t, t', e, e', halike⟩ := engineStep_alike h hsame
  · rw [e, e']
    exact ⟨fun f hf => hf, fun u hu => by cases hu⟩
  · refine ⟨fun f hf => absurd (e.symm.trans hf) (by simp), fun u hu => ?_⟩
    obtain rfl : t = u := by simpa [e] using hu
    exact ⟨t', e', halike⟩

end Machine
end Sys2Proof
end

section
/-!
The invariant (10_state.md R35 to R48, 60_exceptions.md R230): reset meets it, every step keeps it, and what follows of
it for STATUS, for the end of the command in progress (42_dispatch.md R206) and for writes of the host beside it
(20_memory.md R86). The obligations O25, O26, O35, O38, O39, O40 and O41.
-/

namespace Sys2Proof.Machine

/-! ## The parts of the invariant -/

/-- The part of the invariant that does not speak of the phase. -/
structure BaseInv (s : State) : Prop where
  params : s.params.wf = true
  memory : s.mem.wf = true
  memoryFits : s.mem.fits s.params.aw = true
  addresses : addressesFit s = true
  result : s.result.toNat < 256

theorem Inv.base {s : State} (h : Inv s) : BaseInv s :=
  ⟨h.params, h.memory, h.memoryFits, h.addresses, h.result⟩

/-- Another data memory in its canonical form keeps the invariant. -/
theorem Inv.setMem {s : State} (h : Inv s) {m : Memory} (hwf : m.wf = true) (hfits : m.fits s.params.aw = true) :
    Inv { s with mem := m } :=
  ⟨h.params, hwf, hfits, h.status, h.addresses, h.result, h.errors, h.latch, h.sequencing⟩

/-- The pending transactions and what the host has read are no part of the invariant. -/
theorem Inv.setHost {s : State} (h : Inv s) (events : List HostEvent) (w : Word) :
    Inv { s with host := events, hostData := w } :=
  ⟨h.params, h.memory, h.memoryFits, h.status, h.addresses, h.result, h.errors, h.latch, h.sequencing⟩

theorem Inv.status_of_busy {s : State} (h : Inv s) (hp : s.phase ≠ .idle) : s.status = statusBusy := by
  have hstatus := h.status
  unfold statusAgrees at hstatus
  split at hstatus
  · contradiction
  · simpa using hstatus
  · simpa using hstatus

theorem Inv.status_of_idle {s : State} (h : Inv s) (hp : s.phase = .idle) : idleStatus s.status = true := by
  have hstatus := h.status
  rwa [statusAgrees, hp] at hstatus

theorem Inv.sequencing_of_idle {s : State} (h : Inv s) (hp : s.phase = .idle) : s.sched = [] ∧ s.idx = 0 := by
  have hseq := h.sequencing
  rw [sequencingAgrees, hp] at hseq
  simpa using hseq

theorem Inv.errors_of_busy {s : State} (h : Inv s) (hp : s.phase ≠ .idle) : s.errExpected = 0 ∧ s.errActual = 0 := by
  have herr := h.errors
  rw [errorsAgree, h.status_of_busy hp] at herr
  simpa [statusBusy, statusDone, StatusCode.code] using herr

theorem idleStatus_iff {w : Word} :
    idleStatus w = true ↔ w = 0 ∨ ∃ c : StatusCode, w = statusDone c := by
  simp only [idleStatus, statusCodes, List.any_cons, List.any_nil, Bool.or_eq_true, decide_eq_true_eq, Bool.or_false]
  constructor
  · rintro (h | h | h | h | h | h | h)
    · exact .inl h
    all_goals exact .inr ⟨_, h⟩
  · rintro (h | ⟨c, h⟩)
    · exact .inl h
    · cases c <;> simp [h]

/-! ## The invariant, phase by phase -/

theorem inv_of_idle {s : State} (hb : BaseInv s) (hp : s.phase = .idle) (hstatus : idleStatus s.status = true)
    (herrors : errorsAgree s = true) (hsched : s.sched = []) (hidx : s.idx = 0) : Inv s :=
  ⟨hb.params, hb.memory, hb.memoryFits, by rw [statusAgrees, hp]; exact hstatus, hb.addresses, hb.result, herrors,
    by rw [latchAgrees, hp], by simp [sequencingAgrees, hp, hsched, hidx]⟩

/-- Completion reaches a state of the invariant: only LENGTH_MISMATCH records lengths (R40, R41). -/
theorem inv_complete {s : State} {c : StatusCode} (hb : BaseInv s)
    (herrors : c = .lengthMismatch ∨ (s.errExpected = 0 ∧ s.errActual = 0)) : Inv (complete s c) := by
  refine inv_of_idle ⟨hb.params, hb.memory, hb.memoryFits, hb.addresses, hb.result⟩ rfl
    (idleStatus_iff.mpr (.inr ⟨c, rfl⟩)) ?_ rfl rfl
  obtain rfl | ⟨he, ha⟩ := herrors
  · simp [errorsAgree]
  · simp [errorsAgree, he, ha]

theorem inv_of_running {i : Instr} {q : Quantities} {s : State} (hb : BaseInv s) (hr : Running i q s)
    (hstatus : s.status = statusBusy) (herrors : s.errExpected = 0 ∧ s.errActual = 0)
    (hlatch : { s.latch with dstLen := s.dstLen } = snapshot s s.cmd) : Inv s := by
  refine ⟨hb.params, hb.memory, hb.memoryFits, ?_, hb.addresses, hb.result, ?_, ?_, ?_⟩
  · simp [statusAgrees, hr.phase, hstatus]
  · simp [errorsAgree, herrors]
  · simp [latchAgrees, hr.phase, hlatch]
  · have hidx := hr.sched ▸ hr.idx
    simp [sequencingAgrees, hr.phase, hr.active, hr.checks, hr.sched, hidx]

/-- R190: the start of a command. -/
theorem inv_startCommand {s : State} (h : Inv s) (w : Word) : Inv (startCommand s w) := by
  have haddr := h.addresses
  simp only [addressesFit, Bool.and_eq_true, decide_eq_true_eq] at haddr
  obtain ⟨⟨⟨hsrc, hdst⟩, -⟩, -⟩ := haddr
  refine ⟨h.params, h.memory, h.memoryFits, rfl, ?_, h.result, rfl, ?_, rfl⟩
  · simp only [addressesFit, Bool.and_eq_true, decide_eq_true_eq]
    exact ⟨⟨⟨hsrc, hdst⟩, hsrc⟩, hdst⟩
  · simp [latchAgrees, snapshot]

/-! ## Reset -/

theorem addressesFit_reset (p : Params) (m : Memory) (events : List HostEvent) (w : Word) :
    addressesFit { State.resetWith p with mem := m, host := events, hostData := w } = true := by
  simp [addressesFit, State.memTop, Latch.reset]

theorem inv_resetWith {p : Params} {m : Memory} (hp : p.wf = true) (hwf : m.wf = true) (hfits : m.fits p.aw = true)
    (events : List HostEvent) (w : Word) :
    Inv { State.resetWith p with mem := m, host := events, hostData := w } :=
  inv_of_idle ⟨hp, hwf, hfits, addressesFit_reset p m events w, by simp⟩ rfl rfl rfl rfl rfl

/-- Settles O38. -/
theorem resetMeetsInv : Obligations.ResetMeetsInv :=
  ⟨fun _ hp => inv_resetWith hp rfl rfl [] 0, inv_resetWith (p := Params.default) (by decide) rfl rfl [] 0⟩

theorem inv_assertReset {s : State} (h : Inv s) : Inv (assertReset s) := by
  have hkeep : Inv (resetBlock s) := inv_resetWith h.params h.memory h.memoryFits s.host s.hostData
  unfold assertReset
  split
  · unfold undefineAbandoned
    split
    · exact inv_resetWith h.params (Memory.wf_undefine h.memory _ _) (Memory.fits_undefine h.memoryFits _ _) s.host
        s.hostData
    · exact hkeep
  · exact hkeep

/-! ## Steps of the engine -/

/-- Only with every check passed does the CHECK step start a schedule. -/
theorem checksPass_of_run {q : Quantities} {s : State} (h : (checkStep q s).phase = .run) :
    checksPass q s = true := by
  rw [checkStep_eq] at h
  split_ifs at h with h1 h2 h3 h4 h5
  · cases h
  · cases h
  · cases h
  · cases h
  · cases h
  · rw [not_or] at h1 h4
    exact checksPass_iff.mpr ⟨h1.1, Nat.not_lt.mp h1.2, h2, h3, Nat.not_lt.mp h4.1, Bool.eq_false_iff.mpr h4.2⟩

section
variable {s t : State}

/-- A step of the CHECK phase (R192). -/
theorem inv_checkStep (h : Inv s) {i : Instr} {q : Quantities} (hp : s.phase = .check)
    (hcmd : decodeWord s.latch.cmd = .ok i) (hw : i.wf s.params = true)
    (hq : quantitiesOf s.params s.latch i = some q) : Inv (checkStep q s) := by
  have hbusy : s.phase ≠ .idle := by simp [hp]
  have herr := h.errors_of_busy hbusy
  have hlatch := h.latch
  rw [latchAgrees, hp] at hlatch
  simp only [decide_eq_true_eq] at hlatch
  have hb := h.base
  have hrunning {u : State} (hu : checkStep q s = u) (hparams : u.params = s.params) (hphase : u.phase = .run)
      (hl : u.latch = s.latch) (hsched : u.sched = q.sched) (hidx : u.idx = 0) (hne : q.sched ≠ []) :
      Running i q u := by
    have hchecks := checksPass_of_run (hu ▸ hphase : (checkStep q s).phase = .run)
    refine ⟨hparams ▸ h.params, hphase, hl ▸ hcmd, hparams ▸ hw, by rw [hparams, hl]; exact hq, ?_, hsched, ?_⟩
    · rw [← hchecks, checksPass, checksPass, State.memTop, hparams, hl]
      rfl
    · rw [hsched, hidx]
      exact List.length_pos_iff.mpr hne
  obtain ⟨c, e⟩ | ⟨c, -, e⟩ | ⟨-, e⟩ | ⟨-, hne, e⟩ | ⟨-, hne, e⟩ := checkStep_cases q s <;> rw [e]
  · exact inv_complete hb (.inr herr)
  · exact inv_complete ⟨hb.params, hb.memory, hb.memoryFits, hb.addresses, hb.result⟩ (.inr herr)
  · exact inv_complete ⟨hb.params, hb.memory, hb.memoryFits, hb.addresses, hb.result⟩ (.inl rfl)
  · refine inv_of_running ⟨hb.params, hb.memory, hb.memoryFits, hb.addresses, hb.result⟩
      (hrunning e rfl rfl rfl rfl rfl hne) (h.status_of_busy hbusy) herr ?_
    simp [hlatch, snapshot]
  · refine inv_of_running ⟨hb.params, hb.memory, hb.memoryFits, hb.addresses, hb.result⟩
      (hrunning e rfl rfl rfl rfl rfl hne) (h.status_of_busy hbusy) herr ?_
    simp [hlatch, snapshot]

/-- A step of the RUN phase (R194, R195). -/
theorem inv_run (h : Inv s) (hrun : s.phase = .run) (hstep : engineStep s = .next t) : Inv t := by
  obtain ⟨i, q, hr⟩ := h.running hrun
  obtain ⟨item, hitem⟩ := hr.exists_item
  have herr := h.errors_of_busy (by simp [hrun])
  rw [hr.engineStep_eq] at hstep
  obtain ⟨-, e⟩ | ⟨v, hread, ⟨hv, e⟩ | ⟨bs, hbs, e⟩⟩ := hr.exec_cases hitem <;> rw [e] at hstep <;> cases hstep
  · unfold failed
    split
    · exact inv_complete h.base (.inr herr)
    · exact inv_complete
        (h.setMem (Memory.wf_undefine h.memory _ _) (Memory.fits_undefine h.memoryFits _ _)).base (.inr herr)
  · have hfit := hr.dest_fits hitem
    rw [← hr.value_length hread hbs] at hfit
    have hmem := h.setMem (Memory.wf_writeBytes h.memory (s.latch.dstAddr.toNat + i.outSize item.offset) bs)
      (Memory.fits_writeBytes h.memoryFits hfit)
    obtain ⟨hlt, e⟩ | ⟨-, e⟩ := advance_cases
      { s with mem := s.mem.writeBytes (s.latch.dstAddr.toNat + i.outSize item.offset) bs } <;> rw [e]
    · have hlatch := h.latch
      rw [latchAgrees, hrun] at hlatch
      have hb := hmem.base
      exact inv_of_running ⟨hb.params, hb.memory, hb.memoryFits, hb.addresses, hb.result⟩ (hr.setMem _ hlt)
        (h.status_of_busy (by simp [hrun])) herr (of_decide_eq_true hlatch)
    · exact inv_complete hmem.base (.inr herr)

theorem setWidth_toNat_lt (b : Byte) : (b.setWidth 32).toNat < 256 := by
  rw [BitVec.toNat_setWidth_of_le (by decide)]
  exact b.isLt

theorem inv_engineStep (h : Inv s) (hstep : engineStep s = .next t) : Inv t := by
  by_cases hrun : s.phase = .run
  · exact inv_run h hrun hstep
  have hb := h.base
  have hbase (w : Word) (hw : w.toNat < 256) : BaseInv { s with result := w } :=
    ⟨hb.params, hb.memory, hb.memoryFits, hb.addresses, hw⟩
  obtain ⟨-, rfl⟩ | ⟨hbusy, -, rfl⟩ | ⟨i, hbusy, hcmd, hexec⟩ := engineStep_next_cases hstep
  · exact h
  · exact inv_complete hb (.inr (h.errors_of_busy hbusy))
  have herr := h.errors_of_busy hbusy
  obtain ⟨-, rfl⟩ | ⟨-, rfl⟩ | ⟨-, rfl⟩ | ⟨-, -, rfl⟩ | ⟨q, hp, hw, hq, rfl⟩ | ⟨hp, -⟩ | ⟨hp, -⟩ :=
    exec_next_cases hbusy hexec
  · exact inv_complete hb (.inr herr)
  · exact inv_complete (hbase _ (setWidth_toNat_lt _)) (.inr herr)
  · exact inv_complete (hbase _ (setWidth_toNat_lt _)) (.inr herr)
  · exact inv_complete hb (.inr herr)
  · exact inv_checkStep h hp hcmd hw hq
  · exact absurd hp hrun
  · exact absurd hp hrun

/-! ## Transactions -/

/-- R35, R47: BUSY is 1 exactly while a command is in progress. -/
theorem Inv.busy_iff (h : Inv s) : s.busy = true ↔ s.phase ≠ .idle := by
  constructor
  · intro hbusy hp
    obtain e | ⟨c, e⟩ := idleStatus_iff.mp (h.status_of_idle hp) <;> rw [State.busy, e] at hbusy
    · cases hbusy
    · rw [busyBit_statusDone] at hbusy
      cases hbusy
  · intro hp
    rw [State.busy, h.status_of_busy hp]
    rfl

theorem aw_le {p : Params} (h : p.wf = true) : p.aw ≤ 32 := by
  simp only [Params.wf, Params.awOk, Bool.and_eq_true, decide_eq_true_eq] at h
  exact h.1.1.2

theorem maskAddress_lt {p : Params} (h : p.wf = true) (w : Word) : (maskAddress p w).toNat < 2 ^ p.aw := by
  rw [maskAddress_toNat (aw_le h)]
  exact Nat.mod_lt _ (Nat.two_pow_pos _)

/-- R52: a register write while no command is in progress. -/
theorem inv_writeReg (h : Inv s) (hidle : s.busy = false) (offset : BitVec 8) (w : Word) :
    Inv (writeReg s offset w) := by
  have hp : s.phase = .idle := by
    by_contra hp
    rw [h.busy_iff.mpr hp] at hidle
    cases hidle
  obtain ⟨hsched, hidx⟩ := h.sequencing_of_idle hp
  have hb := h.base
  have haddr := h.addresses
  simp only [addressesFit, Bool.and_eq_true, decide_eq_true_eq] at haddr
  obtain ⟨⟨⟨hsrc, hdst⟩, hlsrc⟩, hldst⟩ := haddr
  have hmask := maskAddress_lt h.params w
  have hkeep {u : State} (hu : BaseInv u) (he : u = { s with
      srcAddr := u.srcAddr, srcLen := u.srcLen, dstAddr := u.dstAddr, dstLen := u.dstLen, arg := u.arg }) : Inv u := by
    rw [he] at hu ⊢
    exact inv_of_idle hu hp (h.status_of_idle hp) h.errors hsched hidx
  obtain e | e | e | e | e | e | e := writeReg_cases s offset w <;> rw [e]
  · exact inv_startCommand h w
  · refine hkeep ⟨hb.params, hb.memory, hb.memoryFits, ?_, hb.result⟩ rfl
    simp only [addressesFit, Bool.and_eq_true, decide_eq_true_eq]
    exact ⟨⟨⟨hmask, hdst⟩, hlsrc⟩, hldst⟩
  · exact hkeep ⟨hb.params, hb.memory, hb.memoryFits, hb.addresses, hb.result⟩ rfl
  · refine hkeep ⟨hb.params, hb.memory, hb.memoryFits, ?_, hb.result⟩ rfl
    simp only [addressesFit, Bool.and_eq_true, decide_eq_true_eq]
    exact ⟨⟨⟨hsrc, hmask⟩, hlsrc⟩, hldst⟩
  · exact hkeep ⟨hb.params, hb.memory, hb.memoryFits, hb.addresses, hb.result⟩ rfl
  · exact hkeep ⟨hb.params, hb.memory, hb.memoryFits, hb.addresses, hb.result⟩ rfl
  · exact h

theorem inv_hostAct {e : HostEvent} (h : Inv s) (hact : hostAct e s = .next t) : Inv t := by
  obtain rfl | ⟨v, events, rfl⟩ | ⟨offset, w, hidle, rfl⟩ | ⟨a, b, ha, -, rfl⟩ | ⟨-, rfl⟩ := hostAct_next hact
  · exact h
  · exact h.setHost events v
  · exact inv_writeReg h hidle offset w
  · exact h.setMem (Memory.wf_write h.memory a b) (Memory.fits_write h.memoryFits ha b)
  · exact inv_assertReset h

/-- Settles O39: the engine's steps phase by phase, and the transactions one by one. -/
theorem stepKeepsInv : Obligations.StepKeepsInv := by
  intro s t h hstep
  obtain ⟨events, -, hengine⟩ | ⟨e, rest, -, -, hact⟩ := step_next_cases hstep
  · exact inv_engineStep (h.setHost events s.hostData) hengine
  · exact inv_hostAct (h.setHost rest s.hostData) hact

/-! ## STATUS and the build parameters -/

/-- R35, R230: the fields of STATUS after a completion. -/
theorem statusDone_fields (c : StatusCode) :
    (errField (statusDone c)).toNat ≤ 5 ∧ (statusDone c).extractLsb' 2 2 = 0 ∧ (statusDone c).extractLsb' 8 24 = 0 := by
  cases c <;> decide

/-- Settles O40. -/
theorem statusFields : Obligations.StatusFields := by
  intro s h
  refine ⟨h.busy_iff, ?_⟩
  by_cases hp : s.phase = .idle
  · obtain e | ⟨c, e⟩ := idleStatus_iff.mp (h.status_of_idle hp) <;> rw [e]
    · decide
    · obtain ⟨herr, hlow, hhigh⟩ := statusDone_fields c
      exact ⟨by simp, by simp, herr, hlow, hhigh⟩
  · rw [h.status_of_busy hp]
    decide

theorem engineStep_sameOperands (h : engineStep s = .next t) : sameOperands s t := by
  obtain ⟨-, rfl⟩ | ⟨-, -, rfl⟩ | ⟨i, -, -, hexec⟩ := engineStep_next_cases h
  · exact ⟨rfl, rfl, rfl, rfl, rfl, rfl, rfl, rfl, rfl⟩
  · exact ⟨rfl, rfl, rfl, rfl, rfl, rfl, rfl, rfl, rfl⟩
  · exact (exec_registersKept hexec).operands

theorem writeReg_params (s : State) (offset : BitVec 8) (w : Word) : (writeReg s offset w).params = s.params := by
  obtain e | e | e | e | e | e | e := writeReg_cases s offset w <;> exact (congrArg State.params e).trans rfl

theorem assertReset_params (s : State) : (assertReset s).params = s.params := by
  unfold assertReset undefineAbandoned
  repeat' split
  all_goals rfl

theorem step_params (h : step s = .next t) : t.params = s.params := by
  obtain ⟨events, -, hengine⟩ | ⟨e, rest, -, -, hact⟩ := step_next_cases h
  · exact (engineStep_sameOperands hengine).1
  · obtain rfl | ⟨v, events, rfl⟩ | ⟨offset, w, -, rfl⟩ | ⟨a, b, -, -, rfl⟩ | ⟨-, rfl⟩ := hostAct_next hact
    · rfl
    · rfl
    · exact writeReg_params _ offset w
    · rfl
    · exact assertReset_params _

/-- Settles O41: ID and CAPS are computed from the build parameters. -/
theorem buildParametersNeverChange : Obligations.BuildParametersNeverChange := by
  intro s t h
  have hparams := step_params h
  exact ⟨hparams, congrArg Params.idValue hparams, congrArg capsWord hparams⟩

/-! ## The end of the command in progress -/

theorem stepsLeft_of_idle (hp : s.phase = .idle) : stepsLeft s = 0 := by
  rw [stepsLeft, hp]

theorem stepsLeft_pos (h : Inv s) (hp : s.phase ≠ .idle) : 0 < stepsLeft s := by
  rw [stepsLeft]
  split
  · contradiction
  · split <;> omega
  · next hrun =>
    obtain ⟨i, q, hr⟩ := h.running hrun
    exact Nat.sub_pos_of_lt hr.idx

theorem stepsLeft_checkStep_le (q : Quantities) (s : State) : stepsLeft (checkStep q s) ≤ q.sched.length := by
  obtain ⟨c, e⟩ | ⟨c, -, e⟩ | ⟨-, e⟩ | ⟨-, -, e⟩ | ⟨-, -, e⟩ := checkStep_cases q s <;> rw [e]
  · exact Nat.zero_le _
  · exact Nat.zero_le _
  · exact Nat.zero_le _
  · exact Nat.le_refl _
  · exact Nat.le_refl _

theorem failed_phase (i : Instr) (s : State) : (failed i s).phase = .idle := by
  unfold failed
  split <;> rfl

/-- R195: a RUN step that does not end the command advances IDX. -/
theorem stepsLeft_lt_of_run (h : Inv s) (hrun : s.phase = .run) (hidle : t.phase ≠ .idle)
    (hstep : engineStep s = .next t) : stepsLeft t < stepsLeft s := by
  obtain ⟨i, q, hr⟩ := h.running hrun
  obtain ⟨item, hitem⟩ := hr.exists_item
  rw [hr.engineStep_eq] at hstep
  obtain ⟨-, e⟩ | ⟨v, -, ⟨-, e⟩ | ⟨bs, -, e⟩⟩ := hr.exec_cases hitem <;> rw [e] at hstep <;> cases hstep
  · exact absurd (failed_phase i s) hidle
  · obtain ⟨-, e⟩ | ⟨-, e⟩ := advance_cases { s with mem := s.mem.writeBytes _ bs } <;> rw [e] at hidle ⊢
    · simp only [stepsLeft, hrun]
      exact Nat.sub_lt_sub_left hr.idx (Nat.lt_succ_self _)
    · exact absurd rfl hidle

/-- R206: every step of the engine brings the end nearer. -/
theorem stepsLeft_lt (h : Inv s) (hp : s.phase ≠ .idle) (hstep : engineStep s = .next t) :
    stepsLeft t < stepsLeft s := by
  by_cases hidle : t.phase = .idle
  · rw [stepsLeft_of_idle hidle]
    exact stepsLeft_pos h hp
  by_cases hrun : s.phase = .run
  · exact stepsLeft_lt_of_run h hrun hidle hstep
  obtain ⟨hi, -⟩ | ⟨-, -, rfl⟩ | ⟨i, -, hcmd, hexec⟩ := engineStep_next_cases hstep
  · exact absurd hi hp
  · exact absurd rfl hidle
  obtain ⟨-, rfl⟩ | ⟨-, rfl⟩ | ⟨-, rfl⟩ | ⟨-, -, rfl⟩ | ⟨q, hcheck, hw, hq, rfl⟩ | ⟨h, -⟩ | ⟨h, -⟩ :=
    exec_next_cases hp hexec
  · exact absurd rfl hidle
  · exact absurd rfl hidle
  · exact absurd rfl hidle
  · exact absurd rfl hidle
  · have hleft : stepsLeft s = 1 + q.sched.length := by
      simp only [stepsLeft, hcheck, activeQuantities_eq_some.mpr ⟨i, hcmd, hw, hq⟩]
    have := stepsLeft_checkStep_le q s
    omega
  · exact absurd h hrun
  · exact absurd h hrun

/-- One step of the engine from a state of the invariant: it goes on in the invariant, or stops at an Undef source
byte. -/
theorem engineStep_cases (h : Inv s) :
    (∃ t, engineStep s = .next t ∧ Inv t) ∨ engineStep s = .fault .undefRead := by
  cases hstep : engineStep s with
  | next t => exact .inl ⟨t, rfl, inv_engineStep h hstep⟩
  | fault f => exact .inr ((engineStopsOnlyAtUndefinedSource.1 s f h hstep).1 ▸ rfl)
  | refused r => exact absurd hstep (engineStep_ne_refused s r)

theorem runSteps_ends {n : Nat} (h : Inv s) (hhost : s.host = []) (hn : stepsLeft s ≤ n) :
    (∃ t, runSteps n s = .next t ∧ t.phase = .idle) ∨ runSteps n s = .fault .undefRead := by
  induction n generalizing s with
  | zero =>
    by_cases hp : s.phase = .idle
    · exact .inl ⟨s, rfl, hp⟩
    · exact absurd (stepsLeft_pos h hp) (by omega)
  | succ n ih =>
    by_cases hp : s.phase = .idle
    · exact .inl ⟨s, runSteps_idle hp hhost _, hp⟩
    obtain ⟨t, hstep, ht⟩ | hfault := engineStep_cases h
    · rw [runSteps_next ((step_engine hhost).trans hstep)]
      have hless := stepsLeft_lt h hp hstep
      obtain ⟨-, -, -, -, -, -, -, hhost', -⟩ := engineStep_sameOperands hstep
      exact ih ht (hhost'.trans hhost) (by omega)
    · exact .inr (runSteps_fault ((step_engine hhost).trans hfault))

/-- Settles O25. -/
theorem commandsTerminate : Obligations.CommandsTerminate :=
  fun _ h hhost => runSteps_ends h hhost (Nat.le_refl _)

/-! ## The poll loop -/

/-- R108: a read of STATUS in hex.wait. -/
theorem step_hexWait {rest : List HostEvent} (hhost : s.host = hexWait ++ rest) :
    step s =
      if s.status &&& 0x1#32 = 0x0#32 then .next { s with hostData := s.status, host := rest }
      else .next { s with hostData := s.status, host := .pass :: (hexWait ++ rest) } :=
  step_host hhost (by simp)

theorem step_hexWait_idle {rest : List HostEvent} (h : Inv s) (hp : s.phase = .idle)
    (hhost : s.host = hexWait ++ rest) :
    step s = .next { s with hostData := s.status, host := rest } ∧ busyBit s.status = false := by
  rw [step_hexWait hhost]
  obtain e | ⟨c, e⟩ := idleStatus_iff.mp (h.status_of_idle hp)
  · simp [e, busyBit]
  · refine ⟨if_pos ?_, e ▸ busyBit_statusDone c⟩
    rw [e]
    cases c <;> decide

/-- R108, log 16: while BUSY = 1 the loop gives the engine its step. -/
theorem step_hexWait_busy {rest : List HostEvent} (h : Inv s) (hp : s.phase ≠ .idle)
    (hhost : s.host = hexWait ++ rest) :
    step s = .next { s with hostData := s.status, host := .pass :: (hexWait ++ rest) } := by
  rw [step_hexWait hhost, if_neg]
  rw [h.status_of_busy hp]
  decide

theorem wait_ends {n : Nat} {rest : List HostEvent} (h : Inv s) (hhost : s.host = hexWait ++ rest)
    (hn : stepsLeft s ≤ n) :
    ∃ k : Nat, (∃ t : State, runSteps k s = .next t ∧ t.host = rest ∧ t.phase = .idle ∧
      busyBit t.hostData = false ∧ t.hostData = t.status) ∨ runSteps k s = .fault .undefRead := by
  by_cases hp : s.phase = .idle
  · obtain ⟨hstep, hbit⟩ := step_hexWait_idle h hp hhost
    exact ⟨1, .inl ⟨_, runSteps_next hstep, rfl, hp, hbit, rfl⟩⟩
  induction n generalizing s with
  | zero => exact absurd (stepsLeft_pos h hp) (by omega)
  | succ n ih =>
    have hread := step_hexWait_busy h hp hhost
    have hinv := h.setHost (hexWait ++ rest) s.status
    obtain ⟨t, hstep, ht⟩ | hfault := engineStep_cases hinv
    · have hless : stepsLeft t < stepsLeft s :=
        Nat.lt_of_lt_of_eq (stepsLeft_lt hinv hp hstep) rfl
      obtain ⟨-, -, -, -, -, -, -, hhost', -⟩ := engineStep_sameOperands hstep
      have htwo (k : Nat) : runSteps (k + 2) s = runSteps k t := by
        rw [runSteps_next hread, runSteps_next ((step_pass rfl).trans hstep)]
      by_cases htp : t.phase = .idle
      · obtain ⟨hlast, hbit⟩ := step_hexWait_idle ht htp hhost'
        exact ⟨3, .inl ⟨_, (htwo 1).trans (runSteps_next hlast), rfl, htp, hbit, rfl⟩⟩
      · obtain ⟨k, hk⟩ := ih ht hhost' (by omega) htp
        exact ⟨k + 2, by rwa [htwo]⟩
    · exact ⟨2, .inr ((runSteps_next hread).trans (runSteps_fault ((step_pass rfl).trans hfault)))⟩

/-- Settles O26. -/
theorem waitEnds : Obligations.WaitEnds :=
  fun _ _ h hhost => wait_ends h hhost (Nat.le_refl _)

/-! ## Writes of the host beside the command -/

theorem busMemWrite_next {a : Nat} {b : Byte} (h : busMemWrite s a b = .next t) :
    t = { s with mem := s.mem.write a b } := by
  unfold busMemWrite at h
  split_ifs at h
  cases h
  rfl

/-- Settles O35: the engine reads no byte outside its source and writes none outside its destination. -/
theorem outsideWritesCommute : Obligations.OutsideWritesCommute := by
  intro s t a b h hhost hp ha hsrc hdst hstep
  rw [step_engine hhost] at hstep
  have hw := h.setMem (Memory.wf_write h.memory a.toNat b) (Memory.fits_write h.memoryFits ha b)
  obtain ⟨t', hstep', ht', hreads⟩ :=
    (engineReadsOnlySource s (s.mem.write a.toNat b) h fun x hx =>
      Memory.read_write_other _ _ (by rintro rfl; simp [hsrc] at hx)).2 t hstep
  have hduty : (s.busy && (inActiveSource s a.toNat || inActiveDest s a.toNat)) = false := by simp [hsrc, hdst]
  have hwrite : step { s with host := [.memWrite a b, .pass] } =
      .next { s with host := [.pass], mem := s.mem.write a.toNat b } :=
    (step_memWrite rfl).trans (busMemWrite_free (s := { s with host := [.pass] }) ha hduty b)
  have hpass : step { s with host := [.pass], mem := s.mem.write a.toNat b } = .next t' := by
    rw [step_pass rfl, ← hstep', ← hhost]
  have hrun : runSteps 2 { s with host := [.memWrite a b, .pass] } = .next t' := by
    rw [runSteps_next hwrite, runSteps_next hpass, runSteps_zero]
  refine ⟨fun u hu => ?_, t', hrun⟩
  obtain ⟨-, -, -, -, -, -, -, hhost', -⟩ := engineStep_sameOperands hstep
  have hu' := busMemWrite_next ((step_memWrite rfl).symm.trans hu)
  have hmem : t'.mem = t.mem.write a.toNat b := by
    refine Memory.ext_of_reads (inv_engineStep hw hstep').memory
      (Memory.wf_write (inv_engineStep h hstep).memory _ _) fun x => ?_
    by_cases hx : x = a.toNat
    · subst hx
      rw [engineWritesOnlyDestination _ _ hw hstep' _ hdst, Memory.read_write_same, Memory.read_write_same]
    · rw [Memory.read_write_other _ _ hx]
      obtain e | ⟨e, e'⟩ := hreads x
      · exact e
      · rw [e, e', Memory.read_write_other _ _ hx]
  have hthost : t.host = [] := hhost'.trans hhost
  rw [hrun, hu', ht', hmem]
  simp only [hthost]

end

end Sys2Proof.Machine
end

section
/-!
Whole commands (40_encoder.md R130, R136, R137, 41_decoder.md R168, R169, 42_dispatch.md R205, R206): the run over a
schedule leaves the value of the source in the destination, or fails at the first item without a value, whatever the
family and the widths. The obligations O20, O21, O22, O23 and O24.
-/

namespace Sys2Proof.Machine

/-! ## What a run over the items leaves in memory -/

/-- The address belongs to one of the items' outputs, the destination starting at `d`. -/
def writtenBy (i : Instr) (d : Nat) (items : List Item) (x : Nat) : Bool :=
  items.any fun item => inRegion x (d + i.outSize item.offset) (i.outSize (item.count i.unitSize))

theorem writtenBy_cons (i : Instr) (d : Nat) (item : Item) (items : List Item) (x : Nat) :
    writtenBy i d (item :: items) x =
      (inRegion x (d + i.outSize item.offset) (i.outSize (item.count i.unitSize)) || writtenBy i d items x) := rfl

/-- Where the same byte stands after either of two writes, their order does not matter. -/
theorem ite_or_same {α : Type} (later earlier : Bool) (a b : α) :
    (if later = true then a else if earlier = true then a else b) = if (earlier || later) = true then a else b := by
  cases later <;> cases earlier <;> rfl

/-- A slice of a result written at its place holds the result's bytes there. -/
theorem Memory.read_writeBytes_slice {m : Memory} {d o c : Nat} {out : List Byte} (hfit : o + c ≤ out.length)
    (x : Nat) :
    (m.writeBytes (d + o) ((out.drop o).take c)).read x =
      if inRegion x (d + o) c = true then out[x - d]? else m.read x := by
  rw [Memory.read_writeBytes, slice_length hfit]
  simp only [inRegion_iff]
  split
  · next hx =>
    have hplace : o + (x - (d + o)) = x - d := by omega
    rw [List.getElem?_take_of_lt (by omega), List.getElem?_drop, hplace]
  · rfl

/-- R201 item 5, said of the destination. -/
theorem Layout.covers_out {i : Instr} {q : Quantities} (h : Layout i q) {y : Nat} (hy : y < q.dstLen) :
    ∃ item ∈ q.sched, i.outSize item.offset ≤ y ∧ y < i.outSize item.offset + i.outSize (item.count i.unitSize) := by
  rw [h.dstLen] at hy
  cases he : i.encodes with
  | true =>
    simp only [Instr.outSize_of_encodes he] at hy ⊢
    obtain ⟨item, hmem, hlo, hhi⟩ := h.covers (y / 2) (by omega)
    exact ⟨item, hmem, by omega, by omega⟩
  | false =>
    simp only [Instr.outSize_of_decodes he] at hy ⊢
    obtain ⟨item, hmem, hlo, hhi⟩ := h.covers (2 * y) (by omega)
    obtain ⟨-, hoff, hcount⟩ := h.items item hmem
    rw [Instr.unitSize_of_decodes he] at hoff hcount hhi ⊢
    exact ⟨item, hmem, by omega, by omega⟩

/-- A whole schedule writes exactly the destination region. -/
theorem Layout.writtenBy_sched {i : Instr} {q : Quantities} (h : Layout i q) (d x : Nat) :
    writtenBy i d q.sched x = inRegion x d q.dstLen := by
  rw [Bool.eq_iff_iff, writtenBy, List.any_eq_true, inRegion_iff]
  constructor
  · rintro ⟨item, hmem, hx⟩
    have := h.dstLen ▸ i.outSize_add_le (h.items item hmem).1
    rw [inRegion_iff] at hx
    omega
  · rintro ⟨hlo, hhi⟩
    obtain ⟨item, hmem, hitem⟩ := h.covers_out (y := x - d) (by omega)
    exact ⟨item, hmem, inRegion_iff.mpr (by omega)⟩

/-- R198: with the overlap check passed no address lies in both regions. -/
theorem outside_dest_of_source {q : Quantities} {s : State} (h : checksPass q s = true) {x : Nat}
    (hx : inRegion x s.latch.srcAddr.toNat q.srcLen = true) : inRegion x s.latch.dstAddr.toNat q.dstLen = false := by
  obtain ⟨-, -, -, -, -, hover⟩ := checksPass_iff.mp h
  have hno := mt overlap_iff.mpr (Bool.eq_false_iff.mp hover)
  rw [inRegion_iff] at hx
  rw [inRegion_eq_false_iff]
  omega

namespace Running

variable {i : Instr} {q : Quantities} {s : State} {src out : List Byte}

/-- A write that stays in the destination leaves the source alone. -/
theorem source_kept (h : Running i q s) (hsrc : s.mem.readBytes s.latch.srcAddr.toNat q.srcLen = some src)
    {m : Memory} (hm : ∀ x, inRegion x s.latch.dstAddr.toNat q.dstLen = false → m.read x = s.mem.read x) :
    m.readBytes s.latch.srcAddr.toNat q.srcLen = some src := by
  rw [← hsrc]
  exact Memory.readBytes_congr fun x hlo hhi => hm x (outside_dest_of_source h.checks (inRegion_iff.mpr ⟨hlo, hhi⟩))

/-- The RUN step of one item, the source's bytes given: it fails or writes, as the item's part of the source has a
value or not. -/
theorem exec_of_source (h : Running i q s) (hsrc : s.mem.readBytes s.latch.srcAddr.toNat q.srcLen = some src)
    {item : Item} (hitem : s.sched[s.idx]? = some item) :
    (commandValue i ((src.drop item.offset).take (item.count i.unitSize)) = none ∧ exec i s = .next (failed i s)) ∨
    ∃ bs, commandValue i ((src.drop item.offset).take (item.count i.unitSize)) = some bs ∧
      bs.length = i.outSize (item.count i.unitSize) ∧
      exec i s = .next (advance
        { s with mem := s.mem.writeBytes (s.latch.dstAddr.toNat + i.outSize item.offset) bs }) := by
  have hpart := Memory.readBytes_part hsrc item.offset (item.count i.unitSize) (h.item_bounds hitem).1
  obtain ⟨hnone, -⟩ | ⟨v, hread, hcase⟩ := h.exec_cases hitem
  · rw [hpart] at hnone
    cases hnone
  · obtain rfl := Option.some.inj (hread.symm.trans hpart)
    obtain hfail | ⟨bs, hv, e⟩ := hcase
    · exact .inl hfail
    · exact .inr ⟨bs, hv, h.value_length hread hv, e⟩

theorem drop_idx (h : Running i q s) {item : Item} (hitem : s.sched[s.idx]? = some item) :
    s.sched.drop s.idx = item :: s.sched.drop (s.idx + 1) := by
  rw [List.drop_eq_getElem_cons h.idx]
  congr 1
  exact Option.some.inj ((List.getElem?_eq_getElem h.idx).symm.trans hitem)

/-- The run from an item on, the source having a value: every item from there on writes its slice, then the command
completes with NONE. -/
theorem run_value {n : Nat} (h : Running i q s) (hhost : s.host = [])
    (hsrc : s.mem.readBytes s.latch.srcAddr.toNat q.srcLen = some src) (hv : commandValue i src = some out)
    (hn : s.sched.length - s.idx = n) :
    ∃ m : Memory, runSteps n s = .next (complete { s with mem := m } .none) ∧
      ∀ x, m.read x =
        if writtenBy i s.latch.dstAddr.toNat (s.sched.drop s.idx) x = true then out[x - s.latch.dstAddr.toNat]?
        else s.mem.read x := by
  induction n generalizing s with
  | zero =>
    have := h.idx
    omega
  | succ n ih =>
    obtain ⟨item, hitem⟩ := h.exists_item
    obtain ⟨hend, hoff, hcount, -⟩ := h.item_bounds hitem
    have hslice := commandValue_slice hv hoff hcount
    have hfit : i.outSize item.offset + i.outSize (item.count i.unitSize) ≤ out.length := by
      rw [commandValue_length hv, Memory.readBytes_length hsrc]
      exact i.outSize_add_le hend
    obtain ⟨hnone, -⟩ | ⟨bs, hbs, hlen, e⟩ := h.exec_of_source hsrc hitem
    · rw [hslice] at hnone
      cases hnone
    obtain rfl := Option.some.inj (hslice.symm.trans hbs)
    have hread := Memory.read_writeBytes_slice (m := s.mem) (d := s.latch.dstAddr.toNat) hfit
    have hstep := (step_engine hhost).trans (h.engineStep_eq.trans e)
    rw [runSteps_next hstep, h.drop_idx hitem]
    obtain ⟨hlt, e⟩ | ⟨hlast, e⟩ := advance_cases { s with mem := s.mem.writeBytes _ _ } <;> rw [e]
    · obtain ⟨m, hrun, hm⟩ := ih (h.setMem _ hlt) hhost
        (h.source_kept hsrc fun x hx => Memory.read_writeBytes_outside hlen.le (h.inRegion_of_written hitem hx))
        (by simp only; omega)
      refine ⟨m, hrun, fun x => (hm x).trans ?_⟩
      rw [writtenBy_cons, hread, ite_or_same]
    · obtain rfl : n = 0 := by
        simp only at hlast
        omega
      refine ⟨_, rfl, fun x => (hread x).trans ?_⟩
      rw [List.drop_eq_nil_of_le hlast, writtenBy_cons]
      simp only [writtenBy, List.any_nil, Bool.or_false]

/-- The run from an item on, some item from there on having no value: the command fails at the first such one. Before
it only bytes of the destination change, and in DEC_CHUNK, which has one item, none. -/
theorem run_failure {n : Nat} (h : Running i q s) (hhost : s.host = [])
    (hsrc : s.mem.readBytes s.latch.srcAddr.toNat q.srcLen = some src)
    (hbad : ∃ item ∈ s.sched.drop s.idx,
      commandValue i ((src.drop item.offset).take (item.count i.unitSize)) = none)
    (hn : s.sched.length - s.idx = n) :
    ∃ (k : Nat) (m : Memory), k ≤ n ∧ runSteps k s = .next (failed i { s with mem := m }) ∧
      (∀ x, inRegion x s.latch.dstAddr.toNat q.dstLen = false → m.read x = s.mem.read x) ∧
      (i.isChunk = true → m = s.mem) := by
  induction n generalizing s with
  | zero =>
    have := h.idx
    omega
  | succ n ih =>
    obtain ⟨item, hitem⟩ := h.exists_item
    obtain ⟨-, e⟩ | ⟨bs, hbs, hlen, e⟩ := h.exec_of_source hsrc hitem
    · have hstep := (step_engine hhost).trans (h.engineStep_eq.trans e)
      exact ⟨1, s.mem, by omega, runSteps_next hstep, fun _ _ => rfl, fun _ => rfl⟩
    have hstep := (step_engine hhost).trans (h.engineStep_eq.trans e)
    obtain ⟨bad, hbadmem, hbadnone⟩ := hbad
    rw [h.drop_idx hitem, List.mem_cons] at hbadmem
    have hlater : bad ∈ s.sched.drop (s.idx + 1) := by
      refine hbadmem.resolve_left ?_
      rintro rfl
      rw [hbadnone] at hbs
      cases hbs
    have hlt : s.idx + 1 < s.sched.length := by
      by_contra hle
      rw [List.drop_eq_nil_of_le (Nat.not_lt.mp hle)] at hlater
      cases hlater
    have hkept {x : Nat} (hx : inRegion x s.latch.dstAddr.toNat q.dstLen = false) :
        (s.mem.writeBytes (s.latch.dstAddr.toNat + i.outSize item.offset) bs).read x = s.mem.read x :=
      Memory.read_writeBytes_outside hlen.le (h.inRegion_of_written hitem hx)
    rw [advance, if_pos hlt] at hstep
    obtain ⟨k, m, hk, hrun, hm, -⟩ := ih (h.setMem _ hlt) hhost (h.source_kept hsrc fun x => hkept)
      ⟨bad, hlater, hbadnone⟩ (by simp only; omega)
    refine ⟨k + 1, m, by omega, (runSteps_next hstep).trans (hrun.trans ?_), fun x hx => (hm x hx).trans (hkept hx),
      fun hchunk => ?_⟩
    · simp only [failed]
      cases i.isChunk <;> rfl
    · obtain ⟨wsel, -, -, -, hone⟩ | ⟨hno, -⟩ := quantitiesOf_chunk_or_whole h.quantities
      · rw [h.sched, hone, List.length_singleton] at hlt
        omega
      · rw [hchunk] at hno
        cases hno

end Running

/-! ## From the CHECK step on -/

/-- PHASE = CHECK, no transaction pending, of a legal command whose checks are going to pass. -/
structure Passing (i : Instr) (q : Quantities) (s : State) : Prop where
  params : s.params.wf = true
  host : s.host = []
  phase : s.phase = .check
  command : decodeWord s.latch.cmd = .ok i
  legal : i.wf s.params = true
  quantities : quantitiesOf s.params s.latch i = some q
  checks : checksPass q s = true

/-- The state with which such a command enters RUN. -/
def scheduled (q : Quantities) (s : State) : State :=
  { ownDstLen q s with sched := q.sched, idx := 0, phase := .run }

@[simp] theorem scheduled_params (q : Quantities) (s : State) : (scheduled q s).params = s.params := by
  unfold scheduled ownDstLen
  cases q.own <;> rfl

@[simp] theorem scheduled_latch (q : Quantities) (s : State) : (scheduled q s).latch = s.latch := by
  unfold scheduled ownDstLen
  cases q.own <;> rfl

@[simp] theorem scheduled_mem (q : Quantities) (s : State) : (scheduled q s).mem = s.mem := by
  unfold scheduled ownDstLen
  cases q.own <;> rfl

@[simp] theorem scheduled_host (q : Quantities) (s : State) : (scheduled q s).host = s.host := by
  unfold scheduled ownDstLen
  cases q.own <;> rfl

namespace Passing

variable {i : Instr} {q : Quantities} {s : State} {src out : List Byte}

theorem layout (h : Passing i q s) : Layout i q :=
  layout_of_quantities h.params h.legal h.quantities (checksPass_iff.mp h.checks).2.2.1

theorem step_eq (h : Passing i q s) : step s = .next (checkStep q s) := by
  rw [step_engine h.host, engineStep_busy (by simp [h.phase]) h.command, exec_check h.phase h.legal h.quantities]

theorem checkStep_empty (h : Passing i q s) (hsched : q.sched = []) :
    checkStep q s = complete (ownDstLen q s) .none := by
  rw [checkStep_of_checksPass h.checks, hsched]
  rfl

theorem checkStep_scheduled (h : Passing i q s) (hsched : q.sched ≠ []) : checkStep q s = scheduled q s := by
  rw [checkStep_of_checksPass h.checks, if_neg (by simpa using hsched)]
  rfl

theorem running (h : Passing i q s) (hsched : q.sched ≠ []) : Running i q (scheduled q s) := by
  refine ⟨?_, rfl, ?_, ?_, ?_, ?_, rfl, List.length_pos_iff.mpr hsched⟩
  · simpa using h.params
  · simpa using h.command
  · simpa using h.legal
  · simpa using h.quantities
  · rw [← h.checks, checksPass, checksPass, State.memTop, State.memTop, scheduled_latch, scheduled_params]

/-- R201: an empty schedule has nothing to process. -/
theorem srcLen_of_empty (h : Passing i q s) (hsched : q.sched = []) : q.srcLen = 0 := by
  by_contra hne
  obtain ⟨item, hmem, -⟩ := h.layout.covers 0 (Nat.pos_of_ne_zero hne)
  simp [hsched] at hmem

/-- A command whose source has a value: 1 + len(SCHED) steps, NONE, the value in the destination. -/
theorem command_value (h : Passing i q s) (hsrc : s.mem.readBytes s.latch.srcAddr.toNat q.srcLen = some src)
    (hv : commandValue i src = some out) :
    ∃ m : Memory, runSteps (1 + q.sched.length) s = .next (complete { ownDstLen q s with mem := m } .none) ∧
      m.readBytes s.latch.dstAddr.toNat q.dstLen = some out ∧
      ∀ x, inRegion x s.latch.dstAddr.toNat q.dstLen = false → m.read x = s.mem.read x := by
  have hlen : out.length = q.dstLen := by
    rw [commandValue_length hv, Memory.readBytes_length hsrc, h.layout.dstLen]
  by_cases hsched : q.sched = []
  · have hzero : q.dstLen = 0 := by
      rw [h.layout.dstLen, h.srcLen_of_empty hsched]
      simp [Instr.outSize]
    obtain rfl : out = [] := List.length_eq_zero_iff.mp (hlen.trans hzero)
    refine ⟨s.mem, ?_, by rw [hzero]; rfl, fun _ _ => rfl⟩
    rw [hsched, List.length_nil, runSteps_next h.step_eq, h.checkStep_empty hsched, runSteps_zero]
    unfold ownDstLen
    cases q.own <;> rfl
  · obtain ⟨m, hrun, hm⟩ := (h.running hsched).run_value (n := q.sched.length) (by simpa using h.host)
      (by simpa using hsrc) hv rfl
    have hsched' : (scheduled q s).sched.drop (scheduled q s).idx = q.sched := rfl
    simp only [hsched', h.layout.writtenBy_sched, scheduled_latch, scheduled_mem] at hm
    refine ⟨m, ?_, (Memory.readBytes_eq_some _ _ _ _).mpr ⟨hlen, fun j hj => ?_⟩, fun x hx => ?_⟩
    · rw [Nat.add_comm, runSteps_next h.step_eq, h.checkStep_scheduled hsched, hrun]
      rfl
    · rw [hm, if_pos (inRegion_iff.mpr (by omega)), Nat.add_sub_cancel_left]
    · rw [hm, if_neg (by simp [hx])]

/-- R171, R201: an invalid character of the source lies in an item, which then has no value. -/
theorem exists_item_without_value (h : Passing i q s) (he : i.encodes = false) (hlen : src.length = q.srcLen)
    (hbad : ∃ c ∈ src, validChar c = false) :
    ∃ item ∈ q.sched, commandValue i ((src.drop item.offset).take (item.count i.unitSize)) = none := by
  obtain ⟨c, hc, hinvalid⟩ := hbad
  obtain ⟨x, hx, rfl⟩ := List.getElem_of_mem hc
  obtain ⟨item, hmem, hlo, hhi⟩ := h.layout.covers x (hlen ▸ hx)
  refine ⟨item, hmem, (commandValue_of_decodes he _).trans (decChars_eq_none ⟨src[x], ?_, hinvalid⟩)⟩
  refine List.mem_of_getElem? (i := x - item.offset) ?_
  rw [List.getElem?_take_of_lt (by omega), List.getElem?_drop, Nat.add_sub_cancel' hlo, List.getElem?_eq_getElem hx]

/-- A command whose source has an invalid character: it ends with INVALID_CHARACTER, the destination Undef (DEC_CHUNK:
unchanged). -/
theorem command_failure (h : Passing i q s) (he : i.encodes = false)
    (hsrc : s.mem.readBytes s.latch.srcAddr.toNat q.srcLen = some src) (hbad : ∃ c ∈ src, validChar c = false) :
    ∃ (k : Nat) (m : Memory), k ≤ 1 + q.sched.length ∧
      runSteps k s = .next (complete { ownDstLen q s with mem := m } .invalidCharacter) ∧
      ∀ x, m.read x = if i.isChunk = false ∧ inRegion x s.latch.dstAddr.toNat q.dstLen = true then none
        else s.mem.read x := by
  obtain ⟨item, hmem, hnone⟩ := h.exists_item_without_value he (Memory.readBytes_length hsrc) hbad
  have hsched : q.sched ≠ [] := List.ne_nil_of_mem hmem
  obtain ⟨k, m, hk, hrun, hm, hchunk⟩ := (h.running hsched).run_failure (n := q.sched.length) (by simpa using h.host)
    (by simpa using hsrc) ⟨item, hmem, hnone⟩ rfl
  simp only [scheduled_latch, scheduled_mem] at hm hchunk
  refine ⟨k + 1, (failed i { scheduled q s with mem := m }).mem, by omega, ?_, fun x => ?_⟩
  · rw [runSteps_next h.step_eq, h.checkStep_scheduled hsched, hrun]
    unfold failed
    cases i.isChunk <;> rfl
  · refine (((h.running hsched).setMem m (List.length_pos_iff.mpr hsched)).read_failed hnone x).trans ?_
    simp only [scheduled_latch]
    split
    · rfl
    · next hcase =>
      cases hc : i.isChunk with
      | true => rw [hchunk hc]
      | false => exact hm x (Bool.eq_false_iff.mpr fun hx => hcase ⟨hc, hx⟩)

end Passing

/-! ## The obligations about one command -/

section
variable {i : Instr} {q : Quantities} {s : State}

theorem ownDstLen_sameOperands (q : Quantities) (s : State) (m : Memory) (c : StatusCode) :
    sameOperands s (complete { ownDstLen q s with mem := m } c) := by
  unfold ownDstLen
  cases q.own <;> exact ⟨rfl, rfl, rfl, rfl, rfl, rfl, rfl, rfl, rfl⟩

theorem ownDstLen_results (q : Quantities) (s : State) :
    (ownDstLen q s).errExpected = s.errExpected ∧ (ownDstLen q s).errActual = s.errActual ∧
      (ownDstLen q s).result = s.result := by
  unfold ownDstLen
  cases q.own <;> exact ⟨rfl, rfl, rfl⟩

/-- R193, the column OWN: ENCODE and DECODE report the length. -/
theorem ownDstLen_dstLen (hq : quantitiesOf s.params s.latch i = some q) :
    (ownDstLen q s).dstLen = if i = .encode ∨ i = .decode then BitVec.ofNat 32 q.dstLen else s.dstLen := by
  simp only [ownDstLen, quantitiesOf_own hq, decide_eq_true_eq]
  split <;> rfl

end

/-- Settles O20: ENC is the value of every source. -/
theorem encodeCommandResult : Obligations.EncodeCommandResult := by
  intro s i q src hparams hhost hphase hcmd hwf henc hq hchecks hsrc
  have h : Passing i q s := ⟨hparams, hhost, hphase, hcmd, hwf, hq, hchecks⟩
  have hlen : q.dstLen = 2 * src.length := by
    rw [h.layout.dstLen, Instr.outSize_of_encodes henc, Memory.readBytes_length hsrc]
  have hne : i ≠ .decode := by
    rintro rfl
    cases henc
  obtain ⟨m, hrun, hout, hframe⟩ := h.command_value hsrc (commandValue_of_encodes henc src)
  obtain ⟨hexp, hact, hres⟩ := ownDstLen_results q s
  rw [hlen] at hout hframe
  refine ⟨_, hrun, rfl, rfl, rfl, rfl, hout, hframe, ownDstLen_sameOperands q s m .none, hexp, hact, hres, ?_⟩
  refine (ownDstLen_dstLen hq).trans ?_
  simp only [hne, or_false, hlen]

/-- Settles O21: a text of whole pairs of hex characters has a value. -/
theorem decodeCommandAccepts : Obligations.DecodeCommandAccepts := by
  intro s i q src hparams hhost hphase hcmd hwf hdec hq hchecks hsrc hvalid
  have h : Passing i q s := ⟨hparams, hhost, hphase, hcmd, hwf, hq, hchecks⟩
  have he := Instr.encodes_eq_false hdec
  have hsrclen := Memory.readBytes_length hsrc
  have heven : src.length % 2 = 0 := by
    rw [hsrclen, ← Instr.unitSize_of_decodes he]
    exact h.layout.units
  have hlen : q.dstLen = src.length / 2 := by rw [h.layout.dstLen, Instr.outSize_of_decodes he, hsrclen]
  have hne : i ≠ .encode := by
    rintro rfl
    cases he
  obtain ⟨out, hvalue⟩ := (decChars_isSome_iff src).mpr ⟨heven, hvalid⟩
  obtain ⟨m, hrun, hout, hframe⟩ := h.command_value hsrc ((commandValue_of_decodes he src).trans hvalue)
  obtain ⟨hexp, hact, hres⟩ := ownDstLen_results q s
  rw [hlen] at hout hframe
  refine ⟨_, out, hrun, rfl, rfl, rfl, rfl, hvalue, decChars_length hvalue, hout, hframe,
    ownDstLen_sameOperands q s m .none, hexp, hact, hres, ?_⟩
  refine (ownDstLen_dstLen hq).trans ?_
  simp only [hne, false_or, hlen]

/-- Settles O22: the first item with an invalid character ends the command. -/
theorem decodeCommandRejects : Obligations.DecodeCommandRejects := by
  intro s i q src hparams hhost hphase hcmd hwf hdec hq hchecks hsrc hbad
  have h : Passing i q s := ⟨hparams, hhost, hphase, hcmd, hwf, hq, hchecks⟩
  have he := Instr.encodes_eq_false hdec
  have hlen : q.dstLen = src.length / 2 := by
    rw [h.layout.dstLen, Instr.outSize_of_decodes he, Memory.readBytes_length hsrc]
  have hne : i ≠ .encode := by
    rintro rfl
    cases he
  obtain ⟨k, m, hk, hrun, hm⟩ := h.command_failure he hsrc hbad
  obtain ⟨hexp, hact, hres⟩ := ownDstLen_results q s
  rw [hlen] at hm
  refine ⟨k, _, hk, hrun, rfl, rfl, rfl, rfl, fun x hx => (hm x).trans ?_, fun x hx => (hm x).trans ?_,
    ownDstLen_sameOperands q s m .invalidCharacter, hexp, hact, hres, ?_⟩
  · cases i.isChunk <;> simp [hx]
  · simp [hx]
  · refine (ownDstLen_dstLen hq).trans ?_
    simp only [hne, false_or, hlen]

/-! ## Family invariance -/

/-- The code a command whose checks pass ends with, by its source alone. -/
def finalCode (i : Instr) (src : List Byte) : StatusCode :=
  if (commandValue i src).isSome then .none else .invalidCharacter

/-- The byte it leaves at an address, by its source, its destination region and the memory before. -/
def finalByte (i : Instr) (src : List Byte) (d len : Nat) (m : Memory) (x : Nat) : Option Byte :=
  match commandValue i src with
  | some out => if inRegion x d len = true then out[x - d]? else m.read x
  | none => if i.isChunk = false ∧ inRegion x d len = true then none else m.read x

/-- R205: how a command whose checks pass ends, neither family nor schedule in it. -/
theorem Passing.command_end {i : Instr} {q : Quantities} {s : State} {src : List Byte} (h : Passing i q s)
    (hsrc : s.mem.readBytes s.latch.srcAddr.toNat q.srcLen = some src) :
    ∃ (k : Nat) (m : Memory), runSteps k s = .next (complete { ownDstLen q s with mem := m } (finalCode i src)) ∧
      ∀ x, m.read x = finalByte i src s.latch.dstAddr.toNat q.dstLen s.mem x := by
  cases hv : commandValue i src with
  | some out =>
    obtain ⟨m, hrun, hout, hframe⟩ := h.command_value hsrc hv
    refine ⟨_, m, by rw [hrun, finalCode, hv]; rfl, fun x => ?_⟩
    rw [finalByte, hv]
    simp only
    split
    · next hx =>
      rw [inRegion_iff] at hx
      rw [← ((Memory.readBytes_eq_some _ _ _ _).mp hout).2 _ (by omega), Nat.add_sub_cancel' hx.1]
    · next hx => exact hframe x (Bool.eq_false_iff.mpr hx)
  | none =>
    have he := encodes_of_commandValue_eq_none hv
    have heven : src.length % 2 = 0 := by
      rw [Memory.readBytes_length hsrc, ← Instr.unitSize_of_decodes he]
      exact h.layout.units
    have hbad : ∃ c ∈ src, validChar c = false := by
      by_contra hno
      obtain ⟨out, hout⟩ := (decChars_isSome_iff src).mpr
        ⟨heven, fun c hc => by_contra fun hc' => hno ⟨c, hc, Bool.eq_false_iff.mpr hc'⟩⟩
      rw [commandValue_of_decodes he, hout] at hv
      cases hv
    obtain ⟨k, m, -, hrun, hm⟩ := h.command_failure he hsrc hbad
    refine ⟨k, m, by rw [hrun, finalCode, hv]; rfl, fun x => ?_⟩
    rw [hm, finalByte, hv]

/-- The state in a block built with other parameters. -/
def withParams (p : Params) (s : State) : State := { s with params := p }

/-- R193: the parameters enter a row in its schedule alone. -/
theorem quantitiesOf_withParams {p : Params} {l : Latch} {i : Instr} {q : Quantities}
    (h : quantitiesOf p l i = some q) (p' : Params) :
    ∃ items, quantitiesOf p' l i = some { q with sched := items } := by
  cases i <;> cases h <;> exact ⟨_, rfl⟩

/-- Where a check fails, the CHECK step ends the command, and what it does then depends on no schedule. -/
theorem checkStep_of_failing {q : Quantities} {s : State} (h : checksPass q s = false) :
    checkStep q s =
      if (q.encodeType = true ∧ 2 ^ 31 - 1 < s.latch.srcLen.toNat) ∨ s.memTop < s.latch.srcAddr.toNat + q.srcLen then
        ended s 5
      else if q.par = true ∧ q.srcLen % 2 = 1 then ended s 2
      else if q.len = true ∧ s.latch.dstLen.toNat ≠ q.dstLen then
        ended { s with errExpected := BitVec.ofNat 32 q.dstLen, errActual := s.latch.dstLen } 1
      else ended (ownDstLen q s) 5 := by
  have hfail : ¬ checksPass q s = true := by simp [h]
  rw [checksPass_iff] at hfail
  rw [checkStep_eq]
  split_ifs with h1 h2 h3 h4 h5
  · rfl
  · rfl
  · rfl
  · rfl
  all_goals
    rw [not_or] at h1 h4
    exact absurd ⟨h1.1, Nat.not_lt.mp h1.2, h2, h3, Nat.not_lt.mp h4.1, Bool.eq_false_iff.mpr h4.2⟩ hfail

section
variable {p : Params} {s : State} {q : Quantities}

theorem memTop_withParams (haw : p.aw = s.params.aw) : (withParams p s).memTop = s.memTop := by
  rw [State.memTop, State.memTop, ← haw]
  rfl

theorem checksPass_withParams (haw : p.aw = s.params.aw) (items : List Item) :
    checksPass { q with sched := items } (withParams p s) = checksPass q s := by
  rw [checksPass, checksPass, memTop_withParams haw]
  rfl

theorem checkStep_withParams (haw : p.aw = s.params.aw) (h : checksPass q s = false) (items : List Item) :
    checkStep { q with sched := items } (withParams p s) = withParams p (checkStep q s) := by
  rw [checkStep_of_failing h, checkStep_of_failing ((checksPass_withParams haw items).trans h), memTop_withParams haw]
  cases hown : q.own <;>
    simp only [ownDstLen, hown, Bool.false_eq_true, if_true, if_false, apply_ite (withParams p)] <;> rfl

theorem checkStep_idle_of_failing (h : checksPass q s = false) : (checkStep q s).phase = .idle := by
  rw [checkStep_of_failing h]
  split_ifs <;> rfl

theorem ownDstLen_withParams (items : List Item) (m m' : Memory) (c : StatusCode) :
    complete { ownDstLen { q with sched := items } (withParams p s) with mem := m' } c =
      { complete { ownDstLen q s with mem := m } c with params := p, mem := m' } := by
  unfold ownDstLen
  cases q.own <;> rfl

end

theorem wf_of_not_chunk {i : Instr} (h : i.isChunk = false) (p : Params) : i.wf p = true := by
  cases i with
  | encChunk wsel => cases h
  | decChunk wsel => cases h
  | _ => rfl

/-- Settles O23: NOP and the table reads read no parameter, a failing check ends alike, and with the checks passed the
source alone decides. -/
theorem familyInvariance : Obligations.FamilyInvariance := by
  intro s p i hparams hp haw hhost hphase hcmd hchunk hdef
  have hbusy : s.phase ≠ .idle := by simp [hphase]
  change ∃ (k k' : Nat) (t t' : State), runSteps k s = .next t ∧ runSteps k' (withParams p s) = .next t' ∧ _
  have hfirst {t : State} (h : exec i s = .next t) : runSteps 1 s = .next t :=
    runSteps_next ((step_engine hhost).trans ((engineStep_busy hbusy hcmd).trans h))
  have hfirst' {t : State} (h : exec i (withParams p s) = .next t) : runSteps 1 (withParams p s) = .next t :=
    runSteps_next ((step_engine (s := withParams p s) hhost).trans
      ((engineStep_busy (s := withParams p s) hbusy hcmd).trans h))
  cases hq : quantitiesOf s.params s.latch i with
  | none =>
    obtain ⟨rfl, e⟩ | ⟨rfl, e⟩ | ⟨rfl, e⟩ := exec_register hbusy hq
    · exact ⟨1, 1, _, _, hfirst e, hfirst' (exec_nop hbusy), rfl, rfl, fun _ => rfl, rfl⟩
    · exact ⟨1, 1, _, _, hfirst e, hfirst' (exec_lutHex hbusy), rfl, rfl, fun _ => rfl, rfl⟩
    · exact ⟨1, 1, _, _, hfirst e, hfirst' (exec_lutNib hbusy), rfl, rfl, fun _ => rfl, rfl⟩
  | some q =>
    have hwf := wf_of_not_chunk hchunk
    obtain ⟨items, hq'⟩ := quantitiesOf_withParams hq p
    cases hchecks : checksPass q s with
    | false =>
      have e := exec_check hphase (hwf s.params) hq
      have e' := exec_check (s := withParams p s) hphase (hwf p) hq'
      rw [checkStep_withParams haw hchecks] at e'
      have hidle := checkStep_idle_of_failing hchecks
      exact ⟨1, 1, _, _, hfirst e, hfirst' e', hidle, hidle, fun _ => rfl, rfl⟩
    | true =>
      obtain ⟨src, hsrc⟩ := Option.isSome_iff_exists.mp (hdef q hq hchecks)
      have h : Passing i q s := ⟨hparams, hhost, hphase, hcmd, hwf _, hq, hchecks⟩
      have h' : Passing i { q with sched := items } (withParams p s) :=
        ⟨hp, hhost, hphase, hcmd, hwf p, hq', (checksPass_withParams haw items).trans hchecks⟩
      obtain ⟨k, m, hrun, hm⟩ := h.command_end hsrc
      obtain ⟨k', m', hrun', hm'⟩ := h'.command_end hsrc
      exact ⟨k, k', _, _, hrun, hrun', rfl, rfl, fun x => (hm' x).trans (hm x).symm,
        ownDstLen_withParams items m m' _⟩

/-! ## The round trip -/

theorem pairValue_encByte (b : Byte) : pairValue (hexLutAt (hiNibble b)) (hexLutAt (loNibble b)) = b := by
  revert b
  decide

theorem validChar_hexLutAt (n : BitVec 4) : validChar (hexLutAt n) = true := by
  revert n
  decide

/-- R137, for the two functions. -/
theorem decChars_encBytes (src : List Byte) : decChars (encBytes src) = some src := by
  induction src with
  | nil => rfl
  | cons b src ih =>
    simp only [encBytes, encByte, List.cons_append, List.nil_append, decChars_pair, validChar_hexLutAt, Bool.and_self,
      if_true, ih, Option.map_some, pairValue_encByte]

/-- DECODE started in `t` with source `a`, the length DST_LEN reports, and destination `e`. -/
def decodeStarted (t : State) (a e : Word) : State :=
  startCommand { t with srcAddr := a, srcLen := t.dstLen, dstAddr := e } 0x00000003#32

theorem checksPass_decodeStarted {t : State} {a e : Word} (heven : t.dstLen.toNat % 2 = 0)
    (hsrc : a.toNat + t.dstLen.toNat ≤ t.memTop) (hdst : e.toNat + t.dstLen.toNat / 2 ≤ t.memTop)
    (hover : overlap a.toNat t.dstLen.toNat e.toNat (t.dstLen.toNat / 2) = false) :
    checksPass (quantDecode t.params (decodeStarted t a e).latch) (decodeStarted t a e) = true := by
  refine checksPass_iff.mpr
    ⟨fun h => Bool.noConfusion h.1, hsrc, fun h => ?_, fun h => Bool.noConfusion h.1, hdst, hover⟩
  exact absurd (heven.symm.trans h.2) (by decide)

/-- Settles O24: the checks of the second command follow from those of the first. -/
theorem encodeThenDecode : Obligations.EncodeThenDecode := by
  intro s q src e hparams hhost hphase hcmd hq hchecks hsrc hfit hover
  obtain ⟨t, hrun, hstatus, -, -, -, hout, -, hsame, -, -, -, hdstLen⟩ :=
    encodeCommandResult s .encode q src hparams hhost hphase hcmd rfl rfl hq hchecks hsrc
  obtain ⟨hpar, -, -, -, -, -, -, hthost, -⟩ := hsame
  have hsrclen := Memory.readBytes_length hsrc
  obtain ⟨hlimit, -, -, -, hdst, -⟩ := checksPass_iff.mp hchecks
  obtain rfl : quantEncode s.params s.latch = q := Option.some.inj hq
  simp only [quantEncode, true_and, Nat.not_lt] at hlimit hsrclen hdst
  have hlen : t.dstLen.toNat = 2 * src.length := by
    rw [hdstLen, if_pos rfl, BitVec.toNat_ofNat]
    omega
  have hhalf : t.dstLen.toNat / 2 = src.length := by omega
  have htop : t.memTop = s.memTop := by rw [State.memTop, hpar, State.memTop]
  have hpass := checksPass_decodeStarted (t := t) (a := s.latch.dstAddr) (e := e) (by omega)
    (by rw [htop, hlen, hsrclen]; exact hdst) (by rw [htop, hhalf]; exact hfit) (by rw [hhalf, hlen]; exact hover)
  have htext : t.mem.readBytes s.latch.dstAddr.toNat t.dstLen.toNat = some (encBytes src) := by rw [hlen, hout]
  obtain ⟨u, out, hrun', hstatus', -, -, -, hvalue, -, hbytes, -⟩ :=
    decodeCommandAccepts (decodeStarted t s.latch.dstAddr e) .decode _ (encBytes src) (hpar ▸ hparams)
      (hthost.trans hhost) rfl (decodeWord_encodeInstr .decode) rfl rfl rfl hpass htext fun c hc => by
        obtain ⟨n, rfl⟩ := encBytes_alphabet hc
        exact validChar_hexLutAt n
  obtain rfl : src = out := Option.some.inj ((decChars_encBytes src).symm.trans hvalue)
  rw [encBytes_length, Nat.mul_div_cancel_left _ Nat.two_pos] at hbytes
  exact ⟨_, _, t, u, hrun, hstatus, hrun', hstatus', hbytes⟩

end Sys2Proof.Machine
end

section
/-!
The host's side once more: operand writes (10_state.md R36, R38, R52), accesses of a wrong size or alignment (R31), the
fields of CAPS (R33), the host's duties while BUSY = 1 (70_reset_and_hazards.md R271, R273, 20_memory.md R91) and reset
(R54, R260 to R262). The obligations O29, O31, O32, O34, O36 and O37.
-/

namespace Sys2Proof.Machine

/-! ## The register window -/

/-- R36, R38: an address register keeps its operand modulo 2 ^ AW. -/
theorem maskAddress_eq {p : Params} (h : p.wf = true) (w : Word) :
    maskAddress p w = BitVec.ofNat 32 (w.toNat % 2 ^ p.aw) := by
  apply BitVec.eq_of_toNat_eq
  have hle := Nat.mod_le w.toNat (2 ^ p.aw)
  have hlt := w.isLt
  rw [maskAddress_toNat (aw_le h), BitVec.toNat_ofNat, Nat.mod_eq_of_lt (Nat.lt_of_le_of_lt hle hlt)]

/-- Settles O29. -/
theorem operandWrites : Obligations.OperandWrites := by
  intro s rest w hwf hidle
  have hmask := maskAddress_eq hwf w
  refine ⟨fun hhost => ?_, fun hhost => ?_, fun hhost => ?_, fun hhost => ?_, fun hhost => ?_⟩ <;>
    rw [step_regWrite_idle (by decide) (by decide) hidle hhost]
  · exact congrArg (fun a => Host.Outcome.next { s with host := rest, srcAddr := a }) hmask
  · rfl
  · exact congrArg (fun a => Host.Outcome.next { s with host := rest, dstAddr := a }) hmask
  · rfl
  · rfl

/-- Settles O31: the first test of either access is its size and alignment. -/
theorem unalignedRegisterAccess : Obligations.UnalignedRegisterAccess := by
  intro s rest offset size w hbad
  have hal : ¬ alignedAccess offset size = true := by
    simp only [alignedAccess, Bool.and_eq_true, decide_eq_true_eq]
    tauto
  refine ⟨fun hhost => ?_, fun hhost => ?_⟩
  · rw [step_regRead hhost, hostRegRead, if_neg hal]
  · rw [step_regWrite hhost, hostRegWrite, if_neg hal]

/-! ## CAPS -/

/-- The bits the loop of R33 sets: those of the mask it starts with, and bit k + 1 where 2 ^ (k + 1) is a width. -/
theorem getLsbD_widthLoop (widths : List Nat) (ks : List Nat) (mask : BitVec 16) (j : Nat) (hj : j < 16) :
    (ks.foldl (fun mask k => if widths.contains (2 ^ (k + 1)) then mask ||| BitVec.twoPow 16 (k + 1) else mask)
      mask).getLsbD j = (mask.getLsbD j || ks.any fun k => decide (j = k + 1) && widths.contains (2 ^ (k + 1))) := by
  induction ks generalizing mask with
  | nil => simp
  | cons k ks ih =>
    rw [List.foldl_cons, ih, List.any_cons, ← Bool.or_assoc]
    congr 1
    cases widths.contains (2 ^ (k + 1)) with
    | false => simp
    | true => simp [hj]

theorem getLsbD_widthMask (widths : List Nat) {k : Nat} (h1 : 1 ≤ k) (h15 : k ≤ 15) :
    (widthMask widths).getLsbD k = true ↔ 2 ^ k ∈ widths := by
  have hzero : (0 : BitVec 16).getLsbD k = false := BitVec.getLsbD_zero
  rw [widthMask, getLsbD_widthLoop _ _ _ _ (by omega), hzero, Bool.false_or]
  simp only [List.any_eq_true, List.mem_range, Bool.and_eq_true, decide_eq_true_eq,
    List.contains_iff_mem]
  constructor
  · rintro ⟨j, -, rfl, hmem⟩
    exact hmem
  · intro hmem
    have hk : k - 1 + 1 = k := by omega
    exact ⟨k - 1, by omega, hk.symm, hk ▸ hmem⟩

theorem getLsbD_widthMask_zero (widths : List Nat) : (widthMask widths).getLsbD 0 = false := by
  rw [widthMask, getLsbD_widthLoop _ _ _ _ (by omega)]
  simp

/-- R33, bit by bit. -/
theorem getLsbD_capsWord (p : Params) (j : Nat) :
    (capsWord p).getLsbD j =
      if j < 2 then (familyCode p.family).getLsbD j
      else if j < 8 then false
      else if j < 14 then (BitVec.ofNat 6 p.aw).getLsbD (j - 8)
      else if j < 16 then false
      else (widthMask p.widths).getLsbD (j - 16) := by
  change BitVec.getLsbD (w := 16 + 2 + 6 + 6 + 2)
    (widthMask p.widths ++ 0#2 ++ BitVec.ofNat 6 p.aw ++ 0#6 ++ familyCode p.family) j = _
  have h8 : j - 2 < 6 ↔ j < 8 := by omega
  have h14 : j - 8 < 6 ↔ j < 14 := by omega
  have h16 : j - 14 < 2 ↔ j < 16 := by omega
  simp only [BitVec.getLsbD_append, BitVec.getLsbD_zero]
  simp only [Nat.sub_sub, Nat.reduceAdd, h8, h14, h16]

/-- Settles O32. -/
theorem capsFields : Obligations.CapsFields := by
  intro p hwf
  have haw := aw_le hwf
  have hfield : (capsWord p).extractLsb' 8 6 = BitVec.ofNat 6 p.aw := by
    refine BitVec.eq_of_getLsbD_eq fun j hj => ?_
    rw [BitVec.getLsbD_extractLsb', getLsbD_capsWord, if_neg (by omega), if_neg (by omega), if_pos (by omega),
      Nat.add_sub_cancel_left]
    simp [hj]
  refine ⟨BitVec.eq_of_getLsbD_eq fun j hj => ?_, BitVec.eq_of_getLsbD_eq fun j hj => ?_, ?_,
    BitVec.eq_of_getLsbD_eq fun j hj => ?_, ?_, fun k h1 h15 => ?_⟩
  · rw [BitVec.getLsbD_extractLsb', getLsbD_capsWord, if_pos (by omega)]
    simp [hj]
  · rw [BitVec.getLsbD_extractLsb', getLsbD_capsWord, if_neg (by omega), if_pos (by omega)]
    simp
  · rw [hfield, BitVec.toNat_ofNat, Nat.mod_eq_of_lt (by omega)]
  · rw [BitVec.getLsbD_extractLsb', getLsbD_capsWord, if_neg (by omega), if_neg (by omega), if_neg (by omega),
      if_pos (by omega)]
    simp
  · exact (getLsbD_capsWord p 16).trans (getLsbD_widthMask_zero p.widths)
  · rw [getLsbD_capsWord, if_neg (by omega), if_neg (by omega), if_neg (by omega), if_neg (by omega),
      Nat.add_sub_cancel_left, getLsbD_widthMask p.widths h1 h15]

/-! ## The data memory while BUSY = 1 -/

section
variable {s : State} {a : Nat}

theorem hostMemRead_duty (ha : a < s.memTop) (hbusy : s.busy = true) (hdst : inActiveDest s a = true) :
    hostMemRead s a = .fault .hostProtocol := by
  rw [hostMemRead, if_neg (Nat.not_le.mpr ha), if_pos (by simp [hbusy, hdst])]

theorem busMemWrite_duty (ha : a < s.memTop) (hbusy : s.busy = true)
    (hactive : inActiveSource s a = true ∨ inActiveDest s a = true) (b : Byte) :
    busMemWrite s a b = .fault .hostProtocol := by
  rw [busMemWrite, if_neg (Nat.not_le.mpr ha), if_pos (by simpa [hbusy] using hactive)]

end

/-- Settles O34. -/
theorem dutiesWhileBusy : Obligations.DutiesWhileBusy := by
  intro s rest a b hbusy ha
  have hwrite (hactive : inActiveSource s a.toNat = true ∨ inActiveDest s a.toNat = true) :
      busMemWrite { s with host := rest } a.toNat b = .fault .hostProtocol :=
    busMemWrite_duty (s := { s with host := rest }) ha hbusy hactive b
  refine ⟨fun hdst => ⟨fun hhost => ?_, fun hhost => ?_, fun hhost => ?_⟩,
    fun hsrc => ⟨fun hhost => ?_, fun hdst hb hhost => ?_⟩⟩
  · exact (step_memRead hhost).trans (hostMemRead_duty (s := { s with host := rest }) ha hbusy hdst)
  · exact (step_memWrite hhost).trans (hwrite (.inr hdst))
  · exact (step_host hhost (by simp)).trans (hwrite (.inr hdst))
  · exact (step_memWrite hhost).trans (hwrite (.inl hsrc))
  · have hfree : (State.busy { s with host := rest } && inActiveDest { s with host := rest } a.toNat) = false := by
      rw [Bool.and_eq_false_iff]
      exact .inr hdst
    exact (step_memRead hhost).trans (hostMemRead_def (s := { s with host := rest }) ha hfree hb)

/-! ## Reset -/

/-- Settles O36. -/
theorem resetValues : Obligations.ResetValues :=
  fun _ => ⟨rfl, rfl, rfl, rfl, rfl, rfl, rfl, rfl, rfl, rfl, rfl, rfl, rfl, fun _ => rfl, rfl, rfl, rfl⟩

/-- R261: the abandoned command's destination, of none where no command has regions. -/
theorem read_undefineAbandoned (s : State) (x : Nat) :
    (undefineAbandoned s).mem.read x = if inActiveDest s x = true then none else s.mem.read x := by
  cases hq : activeQuantities s with
  | none => simp [undefineAbandoned, inActiveDest, hq]
  | some q =>
    simp only [undefineAbandoned, hq, undefineRegion_mem, Memory.read_undefine, inActiveDest_of_active hq, inRegion_iff]

theorem undefineAbandoned_eq (s : State) : undefineAbandoned s = { s with mem := (undefineAbandoned s).mem } := by
  unfold undefineAbandoned
  split <;> rfl

/-- Reset of a state: the reset values, over some memory. -/
theorem assertReset_eq (s : State) :
    assertReset s = resetBlock { s with mem := if s.busy then (undefineAbandoned s).mem else s.mem } := by
  unfold assertReset
  split
  · rw [undefineAbandoned_eq]
  · rfl

/-- Settles O37. -/
theorem resetAbandonsTheCommand : Obligations.ResetAbandonsTheCommand := by
  intro s rest hhost
  have hstep : step s = .next (assertReset { s with host := rest }) := step_host hhost (by simp)
  rw [assertReset_eq] at hstep
  refine ⟨_, hstep, rfl, rfl, rfl, rfl, rfl, rfl, rfl, rfl, rfl, rfl, rfl, rfl, rfl, rfl, rfl, fun hidle => ?_,
    fun hbusy x => ?_⟩
  · exact if_neg (by simpa [State.busy] using hidle)
  · have hmem : (if s.busy = true then (undefineAbandoned { s with host := rest }).mem else s.mem) =
        (undefineAbandoned { s with host := rest }).mem := if_pos hbusy
    exact (congrArg (fun m => Memory.read m x) hmem).trans (read_undefineAbandoned _ x)

end Sys2Proof.Machine
end
